-- ==== Sys2Proof/Word.lean ====
section
/-! DEFINITION. The word types of `load_cell_bit_banger` (00_scope.md R9, R14; 20_memory.md R52). -/

namespace Sys2Proof

/-- A command word or a STATUS code: 8 bits (R52, R65, R70). -/
abbrev Byte := BitVec 8

/-- `u24`: a 24-bit unsigned pattern, the raw frame word (R14, R25). -/
abbrev Raw24 := BitVec 24

/-- A 32-bit pattern: an `i32` in two's complement (R9), a VALUE (R49) or a binary32 (R42). -/
abbrev Word32 := BitVec 32

end Sys2Proof
end

