-- ==== Sys2Proof/Syntax.lean ====
section
/-! DEFINITION. The commands of the block: one constructor for each of the eight rows of
spec/opcode_table.json (30_encoding.md R66), and the three gain modes (R63). -/

namespace Sys2Proof

/-- GainMode of 30_encoding.md R63: channel A gain 128, channel B gain 32, channel A gain 64. -/
inductive GainMode where
  | a128
  | b32
  | a64
  deriving DecidableEq, Repr, Inhabited

/-- The commands of 30_encoding.md R66.  `setgain` carries the 2-bit operand `g = w[1:0]` of R67. -/
inductive Instr where
  | rdy
  | read
  | setgain (g : BitVec 2)
  | getgain
  | listen
  | unlisten
  | clrint
  | islistening
  deriving DecidableEq, Repr

end Sys2Proof
end

