-- ==== Sys2Proof/Config.lean ====
section
/-! DEFINITION. The parameters of the step relation (10_state.md R46) and the free values
(`Draw()` of 00_scope.md R15).  The host program text is one of the parameters (assumption log 33).  A
free value is an opaque constant: no proof can learn it. -/

namespace Sys2Proof

/-- Which `TARE_MEAN` the host uses (45_host_facade.md R116): the spec's default
`trunc(Σvs / |vs|)`, or an arbitrary function under the three laws (assumption log 21). -/
inductive TareMeanKind where
  | truncated
  | anyLawful
  deriving DecidableEq, Repr

/-- The calls of a foreground program: the procedures of 45_host_facade.md, a raw command
word (R15 `cmd(w)`, R77 `.byte`), and the two macros of R78. -/
inductive HostCall where
  | isReady
  | read
  | readScaled
  | tare (n : Nat)
  | setScale (s : Word32)
  | getScale
  | setOffset (o : Word32)
  | getOffset
  | setGainMode (m : GainMode)
  | getGainMode
  | enableInterrupt
  | disableInterrupt
  | clearInterrupt
  | getLastReading
  | cmd (w : Byte)
  | waitReady
  | assertReady
  deriving DecidableEq, Repr

/-- What a branch of a host program asks of the result of the last procedure (assumption log 33). -/
inductive HostTest where
  /-- `Err NotReady` (R138). -/
  | notReady
  /-- `is_ready()` returned true. -/
  | isTrue
  | intIs (r : Word32)
  /-- A signed comparison. -/
  | intBelow (r : Word32)
  | floatIs (x : Word32)
  /-- A binary32 comparison. -/
  | floatBelow (x : Word32)
  | gainIs (m : GainMode)
  | lastIs (l : Option Word32)
  | statusIs (b : Byte)
  | valueIs (v : Word32)
  deriving DecidableEq, Repr

/-- One statement of the host program text (R46, assumption log 33): a call, or control among the
statements, which are numbered from 0. -/
inductive HostStmt where
  | call (c : HostCall)
  | jump (target : Nat)
  | branch (test : HostTest) (target : Nat)
  deriving DecidableEq, Repr

/-- Configuration is not state: these are never written (R46).  They stand beside the state so that
a statement about every state is a statement about every configuration (assumption log 5). -/
structure Params where
  /-- `HAS_EDGE_NOTIFY` (R12): the edge-notify unit is present. -/
  hasEdgeNotify : Bool
  /-- `T_BIT_US` (R11): the clock high time, which is also the low time, in µs. -/
  tBitUs : Nat
  /-- `T_PD_US` (R11): the chip's power-down threshold on clock high time, in µs. -/
  tPdUs : Nat
  /-- `T_TARE_POLL_US` (R13). -/
  tTarePollUs : Nat
  /-- `T_TARE_SETTLE_US` (R13). -/
  tTareSettleUs : Nat
  /-- `TARE_MEAN` (R13, R116). -/
  tareMean : TareMeanKind
  /-- `HOST_IRQ_VECTOR` (60_exceptions.md R143); it carries no meaning beyond "runs handler()". -/
  hostIrqVector : Nat
  /-- The host program text (R46); the machine's user loads it from outside (assumption log 28). -/
  program : List HostStmt
  /-- The platform may stretch a clock pulse, which R163 forbids.  A run under this flag is outside the
  spec from its start (U22), and shows the chip's own law R38 only; without it a stretched pulse is
  refused (assumption log 10). -/
  platformStretches : Bool
  deriving DecidableEq, Repr

/-- The configuration check of 70_reset_and_hazards.md R164: `T_BIT_US < T_PD_US`. -/
def Params.legal (p : Params) : Bool := decide (p.tBitUs < p.tPdUs)

/-- The configuration of `State.reset`: the spec's defaults T_BIT_US = 1, T_PD_US = 60 and the
truncated mean (92_eei_decisions.md, the table of parameters).  DESIGN CHOICE for the four
parameters the spec gives no default (assumption logs 5, 6): the edge-notify unit is present, the
two tare delays and the vector are 0.  No program is loaded, and the platform keeps R163. -/
def Params.default : Params where
  hasEdgeNotify := true
  tBitUs := 1
  tPdUs := 60
  tTarePollUs := 0
  tTareSettleUs := 0
  tareMean := .truncated
  hostIrqVector := 0
  program := []
  platformStretches := false

/-- A fresh `Draw()` of one bit, by the number of the draw (R15; assumption log 3). -/
opaque Config.drawBit : Nat → Bool

/-- A fresh draw of the chip's conversion word: one it latches (R36), or what a power-down leaves
(R154; assumption logs 3, 37 and 39). -/
opaque Config.drawConv : Nat → Raw24

/-- A fresh draw of the chip's NEXT_GAIN (R38, R158; assumption log 3). -/
opaque Config.drawGain : Nat → GainMode

/-- CONV at chip power-on, a draw (R36; assumption log 7). -/
opaque Config.powerOnConv : Raw24

/-- NEXT_GAIN at chip power-on, a draw (R39; assumption log 7). -/
opaque Config.powerOnGain : GainMode

/-- What an implementation's running mean gives before the laws of R116 are asked of it
(assumption log 21). -/
opaque Config.tareMeanChoice : List Int → Int

/-- The sign and payload of the NaN a binary32 multiplication of these two operands returns;
IEEE 754 leaves them open (assumption log 22). -/
opaque Config.nanPattern : Word32 → Word32 → Word32

end Sys2Proof
end

