-- ==== Sys2Proof/Machine/State.lean ====
section
/-! DEFINITION. The state of the whole machine as plain data: the block (10_state.md R19 to R32), its
command channel (20_memory.md R49), the chip (R35 to R40), the host contract (R41 to R44), and the
environment's choices still to come.  With it the reasons a step can stop, and the reset state. -/

namespace Sys2Proof.Machine

/-- `PHASE` (R23). -/
inductive Phase where
  | idle
  | reading
  | gainPulsing
  deriving DecidableEq, Repr

/-- The two pins a pin primitive acts on (R15, R136). -/
inductive Pin where
  | clk
  | din
  deriving DecidableEq, Repr

/-- What a PinFault records: the pin and the STEP (R136). -/
structure FaultInfo where
  pin : Pin
  phase : Phase
  cnt : BitVec 5
  deriving DecidableEq, Repr

/-- One response of the command channel (R49, R70). -/
@[ext]
structure Response where
  status : Byte
  value : Word32
  deriving DecidableEq, Repr

/-- The block's architectural state (R19), with the fault information of R136. -/
@[ext]
structure Block where
  /-- `CLK`, the level driven on the clock line (R21). -/
  clk : Bool
  /-- `GAIN`, the code of a GainMode (R22). -/
  gain : BitVec 2
  /-- `PHASE` (R23). -/
  phase : Phase
  /-- `CNT` (R24); STEP is the pair `(phase, cnt)`. -/
  cnt : BitVec 5
  /-- `SHIFT` (R25). -/
  shift : Raw24
  /-- `RESULT`, an i32 (R26). -/
  result : Word32
  /-- `FAULT` (R28). -/
  fault : Bool
  /-- `LISTEN` (R29). -/
  listen : Bool
  /-- `PENDING` (R30). -/
  pending : Bool
  /-- `DIN_PREV` (R31). -/
  dinPrev : Bool
  /-- The fault information of R136, which no command reads.  It is also the mark that the run is
  faulted, which reset does not take back (92_eei_decisions.md D15; assumption log 14). -/
  faultInfo : Option FaultInfo
  deriving DecidableEq, Repr

/-- The command channel (R49): the word on `CMD` that the block has not accepted yet (R53), and the
`(STATUS, VALUE)` of the command that completed last. -/
@[ext]
structure Channel where
  cmd : Option Byte
  response : Option Response
  deriving DecidableEq, Repr

/-- Where the data bits of the READ in progress come from: the word of a valid read (R37), draws
(R37, R83), or the forced level 1 after a power-down (R38).  Assumption logs 8 and 11. -/
inductive ReadSource where
  | word (w : Raw24)
  | draws
  | poweredDown
  deriving DecidableEq, Repr

/-- The chip, the environment agent (R18, R35 to R40). -/
@[ext]
structure Chip where
  /-- `DIN`, the level the chip drives (R35). -/
  din : Bool
  /-- `CONV`, the latched conversion word (R36). -/
  conv : Raw24
  /-- The GainMode the conversion in CONV was made under (R39, R91; assumption log 13). -/
  convMode : GainMode
  /-- `NEXT_GAIN` (R39). -/
  nextGain : GainMode
  /-- `SYNC` (R40). -/
  sync : Bool
  /-- The source of the data bits of the READ in progress (R37, R38). -/
  source : ReadSource
  /-- The clock pulses the chip has observed in the present frame (R39, R62; assumption log 12). -/
  pulses : Nat
  deriving DecidableEq, Repr

/-- One entry of the schedule: which agent moves next, or what the environment does (R18, R56, R146;
assumption log 2). -/
inductive Event where
  /-- The block or, when the block has nothing to do, the host takes its step. -/
  | run
  /-- As `run`, but the foreground goes before a handler dispatch that is enabled (R142). -/
  | foreground
  /-- The chip drives DIN to this level (R35). -/
  | drive (v : Bool)
  /-- The chip latches this conversion and pulls DIN low (R36). -/
  | ready (w : Raw24)
  /-- Something stretches the clock high time of the present or next pulse by this many µs (R38). -/
  | stretch (us : Nat)
  /-- `RST` (R156). -/
  | rst
  deriving DecidableEq, Repr

/-- What a host procedure returns (R108). -/
inductive HostResult where
  | unit
  | bool (b : Bool)
  | int (r : Word32)
  | float (x : Word32)
  | gain (m : Option GainMode)
  | last (l : Option Word32)
  | response (r : Response)
  | notReady
  deriving DecidableEq, Repr

/-- Where the foreground context stands in its procedure.  A point named `await…` is inside a
critical section with a command issued, the others are between critical sections (R132, R147;
assumption log 23). -/
inductive FgPoint where
  | idle
  /-- `read_scaled` after its `read`, before it fetches SCALE (R112). -/
  | scale (r : Word32)
  /-- The macro `waitready`, before its next poll (R78). -/
  | poll
  /-- `tare`: before the next poll of `waitready`; `left` samples are still to be taken (R114, R115). -/
  | tarePoll (prior : Bool) (left : Nat) (vs : List Word32)
  /-- `tare`: ready, before the READ. -/
  | tareSample (prior : Bool) (left : Nat) (vs : List Word32)
  /-- `tare`: before OFFSET is written. -/
  | tareStore (prior : Bool) (vs : List Word32)
  /-- `tare`: before LISTEN is restored (R117). -/
  | tareRestore
  | awaitReady
  | awaitAssert
  | awaitPoll
  | awaitReadRdy (scaled : Bool)
  | awaitReadSample (scaled : Bool)
  | awaitTareQuery (n : Nat)
  | awaitTareUnlisten (n : Nat)
  | awaitTarePoll (prior : Bool) (left : Nat) (vs : List Word32)
  | awaitTareSample (prior : Bool) (left : Nat) (vs : List Word32)
  | awaitTareRestore
  | awaitUnit
  | awaitGain
  | awaitRaw
  deriving DecidableEq, Repr

/-- Where the handler context stands in `handler()` (R129). -/
inductive HdPoint where
  | idle
  | start
  | awaitRdy
  | awaitSample
  | awaitClear
  deriving DecidableEq, Repr

/-- The host contract's state (R41 to R44), the foreground's place in the program text (R46), and the
two contexts' program points (R149). -/
@[ext]
structure HostState where
  /-- `OFFSET`, an i32 (R41). -/
  offset : Word32
  /-- `SCALE`, a binary32 (R42). -/
  scale : Word32
  /-- `LAST` (R43). -/
  last : Option Word32
  /-- `IN_CS` (R44). -/
  inCs : Bool
  /-- `IN_HANDLER` (R44). -/
  inHandler : Bool
  /-- `TARE_SAVED` (R44). -/
  tareSaved : Bool
  /-- The number of the foreground's next statement in the program text (R46). -/
  pc : Nat
  /-- The foreground's continuation (R142, R149). -/
  fg : FgPoint
  /-- The handler's continuation. -/
  hd : HdPoint
  /-- What the foreground's last finished procedure returned. -/
  result : Option HostResult
  deriving DecidableEq, Repr

/-- The whole machine, with its configuration and the environment's choices still to come. -/
@[ext]
structure State where
  cfg : Params
  block : Block
  chan : Channel
  chip : Chip
  host : HostState
  /-- Who moves next; when nothing is left, the block or the host moves (assumption log 2). -/
  sched : List Event
  /-- Which of the pin primitives to come fail, in order; when nothing is left, none does
  (R136; assumption log 4). -/
  pins : List Bool
  /-- Extra clock high time of the present or next pulse, in µs (R38; assumption log 10). -/
  stretch : Nat
  /-- The model's own counter of draws, which makes each `Draw()` a fresh one (assumption log 3). -/
  draws : Nat
  deriving DecidableEq, Repr

/-- Why a step has no next state because the machine stops (60_exceptions.md R133). -/
inductive Fault where
  /-- The block has `FAULT = 1` and no step is enabled until reset (R28, R133 item 6, R136).  Raised
  by the step function when the block or the host would move.  Safe. -/
  | stuck
  /-- STEP is a pair the step table of R84 does not hold; R84 says no run reaches it.  Raised by the
  sequencer.  Safe. -/
  | noStep
  /-- The host fault OffsetOverflow with its sample and OFFSET (R110, R139).  Raised by `read` and by
  the handler.  Safe: the spec stops the run here. -/
  | offsetOverflow (sample offset : Word32)
  deriving DecidableEq, Repr

/-- Why a step has no meaning. -/
inductive Refusal where
  /-- An instruction without a meaning yet; raised by the dispatch only.  Safe. -/
  | notModelled (mnemonic : String)
  /-- `tare(0)` (R119, R137): the spec itself gives it no meaning.  Safe. -/
  | tareZero
  /-- A configuration with `T_BIT_US ≥ T_PD_US` (R164): the spec itself refuses it.  Safe. -/
  | badConfiguration
  /-- A call of an interrupt-mode procedure in a block without the edge-notify unit, where that
  procedure does not exist (45_host_facade.md section 4; assumption log 25).  Safe. -/
  | noSuchProcedure
  /-- A platform that stretches a clock pulse (R163): the spec itself gives the run no meaning (U22 of
  93_implementation_defined.md); raised by the schedule's event.  Safe. -/
  | outsideSpec
  deriving DecidableEq, Repr

/-- The block's registers after reset (R157); DIN_PREV takes the DIN level (R31), and the fault
information, which R157 does not list, is what it was (assumption log 14). -/
def Block.resetWith (din : Bool) (info : Option FaultInfo) : Block where
  clk := false
  gain := 0#2
  phase := .idle
  cnt := 0#5
  shift := 0#24
  result := 0#32
  fault := false
  listen := false
  pending := false
  dinPrev := din
  faultInfo := info

/-- The chip at power-on: DIN idles high (R35; assumption log 7), SYNC is 1 (R40, R159), CONV and
NEXT_GAIN are draws (R36, R39). -/
def Chip.powerOn : Chip where
  din := true
  conv := Config.powerOnConv
  convMode := Config.powerOnGain
  nextGain := Config.powerOnGain
  sync := true
  source := .draws
  pulses := 0

/-- The host state after reset (R41 to R44, R157) at this statement of the program; SCALE is 1.0, the
binary32 pattern 0x3F800000. -/
def HostState.resetWith (pc : Nat) : HostState where
  offset := 0#32
  scale := 0x3F800000#32
  last := none
  inCs := false
  inHandler := false
  tareSaved := false
  pc := pc
  fg := .idle
  hd := .idle
  result := none

/-- Power-on and reset of a machine of a given configuration: no command presented, no program, and
an environment that does nothing. -/
def State.resetWith (cfg : Params) : State where
  cfg := cfg
  block := Block.resetWith Chip.powerOn.din none
  chan := { cmd := none, response := none }
  chip := Chip.powerOn
  host := HostState.resetWith 0
  sched := []
  pins := []
  stretch := 0
  draws := 0

/-- The machine right after reset (R157) in the configuration `Params.default`. -/
def State.reset : State := State.resetWith Params.default

end Sys2Proof.Machine
end

