-- ==== Sys2Proof/Machine/Flags.lean ====
section
/-! DEFINITION. The status bits and what computes them: IRQ (10_state.md R32), PENDING by the edge
detector (41_edge_notify.md R99 to R101), and the cause codes (60_exceptions.md R134).  The block has
no flag that arithmetic sets (R33). -/

namespace Sys2Proof.Machine

/-- The cause codes of R134. -/
inductive Cause where
  | ok
  | illegalCommand
  | notReady
  | offsetOverflow
  | tareZero
  | pinFault
  deriving DecidableEq, Repr

/-- The code of each cause (R134). -/
def causeCode : Cause → Byte
  | .ok => 0x00#8
  | .illegalCommand => 0x01#8
  | .notReady => 0x10#8
  | .offsetOverflow => 0x20#8
  | .tareZero => 0x30#8
  | .pinFault => 0xF0#8

/-- The cause a stop of the machine reports, where R134 lists one. -/
def faultCause : Fault → Option Cause
  | .stuck => some .pinFault
  | .noStep => none
  | .offsetOverflow _ _ => some .offsetOverflow

/-- The cause a refusal reports, where R134 lists one. -/
def refusalCause (r : Refusal) : Option Cause :=
  if r = .tareZero then some .tareZero else none

/-- The cause a host result reports: NotReady is the one host error (R134, R138). -/
def resultCause : HostResult → Cause
  | .notReady => .notReady
  | .response r => if r.status = causeCode .ok then .ok else .illegalCommand
  | .unit => .ok
  | .bool _ => .ok
  | .int _ => .ok
  | .float _ => .ok
  | .gain _ => .ok
  | .last _ => .ok

/-- LISTEN as the rest of the block sees it: the constant 0 without the unit (R29). -/
def listenBit (s : State) : Bool := s.cfg.hasEdgeNotify && s.block.listen

/-- PENDING as the rest of the block sees it: the constant 0 without the unit (R30). -/
def pendingBit (s : State) : Bool := s.cfg.hasEdgeNotify && s.block.pending

/-- The output `IRQ = LISTEN ∧ PENDING` (R32). -/
def irq (s : State) : Bool := listenBit s && pendingBit s

/-- `BUSY` means `PHASE ≠ IDLE` (R23). -/
def busy (s : State) : Bool := s.block.phase != .idle

/-- PENDING is written (R30). -/
def setPending (b : Bool) (s : State) : State := { s with block.pending := b }

/-- A `Draw()` has been used (R15): the next one is fresh (assumption log 3). -/
def spendDraw (s : State) : State := { s with draws := s.draws + 1 }

/-- A falling edge of DIN: latched while listening (R100), and latched or not by a draw while not
listening (R101). -/
def fallingEdge (s : State) : State :=
  if s.block.listen then setPending true s
  else spendDraw (setPending (s.block.pending || Config.drawBit s.draws) s)

/-- The edge-detector step at a change of DIN to level `v` (R99). -/
def edgeStep (v : Bool) (s : State) : State :=
  let s' := if s.block.dinPrev && !v then fallingEdge s else s
  { s' with block.dinPrev := v }

/-- The edge detector of a block that may have none (R99, R75). -/
def edgeDetect (v : Bool) (s : State) : State :=
  if s.cfg.hasEdgeNotify then edgeStep v s else s

end Sys2Proof.Machine
end

