-- ==== Sys2Proof/Machine/Operands.lean ====
section
/-! DEFINITION. Operands and values: the gain codes and pulse counts (30_encoding.md R63), the raw word
and its widening (R64, 40_protocol_engine.md R87, R94), and the zero extensions of R71. -/

namespace Sys2Proof.Machine

/-- `HX711_MINIMUM` (R10). -/
def hx711Minimum : Int := -8388608

/-- `HX711_MAXIMUM` (R10). -/
def hx711Maximum : Int := 8388607

/-- The number of data pulses of a frame (R10, R61). -/
def dataPulses : Nat := 24

/-- The GAIN code of a mode (R63). -/
def gainCode : GainMode → BitVec 2
  | .a128 => 0#2
  | .b32 => 1#2
  | .a64 => 2#2

/-- The mode of a GAIN code; code 3 is reserved (R63). -/
def gainOfCode (g : BitVec 2) : Option GainMode :=
  match g with
  | 0#2 => some .a128
  | 1#2 => some .b32
  | 2#2 => some .a64
  | _ => none

/-- The control pulses `N = GAIN + 1` (R63, R82). -/
def pulseCount (g : BitVec 2) : Nat := g.toNat + 1

/-- The mode the chip takes from the pulses it saw after the 24th: 1 → A128, 2 → B32, 3 → A64 (R39). -/
def gainOfPulses (n : Nat) : Option GainMode :=
  match n with
  | 1 => some .a128
  | 2 => some .b32
  | 3 => some .a64
  | _ => none

/-- `clamp(lo, hi, v) = max(lo, min(hi, v))` (R14). -/
def clamp (lo hi v : Int) : Int := max lo (min hi v)

/-- `sext_24(raw)`: bits 31 to 24 are ones when bit 23 is set, else zeros (R64, R87). -/
def sext24 (raw : Raw24) : Word32 :=
  if raw.getLsbD 23 then 0xFF000000#32 ||| raw.setWidth 32 else raw.setWidth 32

/-- `widen`: sign extension, then saturation, as two steps (R87). -/
def widen (raw : Raw24) : Int := clamp hx711Minimum hx711Maximum (sext24 raw).toInt

/-- The 32-bit pattern of an i32 value. -/
def pattern (v : Int) : Word32 := BitVec.ofInt 32 v

/-- `SHIFT[22:0] ++ b` (R25, R94). -/
def shiftIn (raw : Raw24) (b : Bool) : Raw24 := raw.extractLsb' 0 23 ++ BitVec.ofBool b

/-- `zext_1(b)` as 32 bits (R71). -/
def zextBit (b : Bool) : Word32 := if b then 1#32 else 0#32

/-- `zext_2(g)` as 32 bits (R71). -/
def zextGain (g : BitVec 2) : Word32 := g.setWidth 32

end Sys2Proof.Machine
end

