-- ==== Sys2Proof/Machine/Ops.lean ====
section
/-! DEFINITION. The operations every meaning is built from: the command channel (20_memory.md R49, R53),
the draws, the chip's side of the data line (10_state.md R35 to R40), the pin primitives
(00_scope.md R15), the one exception of the block, PinFault (60_exceptions.md R136), handler entry and
return (R142, R144), and reset (70_reset_and_hazards.md R157 to R159).  The block has no memory (R48). -/

namespace Sys2Proof.Machine

/-! ### Time -/

/-- `Delay(t)` changes no state: the model has no time (R15, R150). -/
def delay (_us : Nat) (s : State) : State := s

/-! ### The block's registers -/

/-- CLK is written (R21). -/
def setClk (b : Bool) (s : State) : State := { s with block.clk := b }

/-- GAIN is written (R22). -/
def setGain (g : BitVec 2) (s : State) : State := { s with block.gain := g }

/-- STEP is written, both of its parts (R24). -/
def setStep (p : Phase) (c : BitVec 5) (s : State) : State :=
  { s with block.phase := p, block.cnt := c }

/-- SHIFT is written (R25). -/
def setShift (r : Raw24) (s : State) : State := { s with block.shift := r }

/-- RESULT is written (R26). -/
def setResult (r : Word32) (s : State) : State := { s with block.result := r }

/-- LISTEN is written (R29). -/
def setListen (b : Bool) (s : State) : State := { s with block.listen := b }

/-! ### The command channel -/

/-- The host presents a command word; the answer to it is not there yet (R49). -/
def present (w : Byte) (s : State) : State :=
  { s with chan.cmd := some w, chan.response := none }

/-- The block accepts the presented word (R53). -/
def acceptCommand (s : State) : State :=
  { s with chan.cmd := none, chan.response := none }

/-- `respond(status, value)` (R15, R70). -/
def respond (c : Cause) (v : Word32) (s : State) : State :=
  { s with chan.response := some { status := causeCode c, value := v } }

/-- `respond(OK, value)`. -/
def respondOk (v : Word32) (s : State) : State := respond .ok v s

/-- The response of every illegal word, with no other effect (R73, R135). -/
def respondIllegal (s : State) : State := respond .illegalCommand 0#32 s

/-! ### The chip -/

/-- The chip changes DIN to level `v`: no change is no step; otherwise the edge detector steps with
it (R99), and a falling edge brings SYNC back (R40). -/
def driveDin (v : Bool) (s : State) : State :=
  if s.chip.din = v then s
  else
    let s' := edgeDetect v s
    { s' with chip.din := v, chip.sync := s'.chip.sync || !v }

/-- A powered-down chip forces DIN high for the remainder of the READ (R38; assumption log 11). -/
def dinForcedHigh (s : State) : Bool := busy s && (s.chip.source == .poweredDown)

/-- The chip latches a conversion, made under NEXT_GAIN (R36, R39). -/
def latch (w : Raw24) (s : State) : State :=
  { s with chip.conv := w, chip.convMode := s.chip.nextGain }

/-- The chip latches a conversion whose word is a draw (R36). -/
def latchDraw (s : State) : State := spendDraw (latch (Config.drawConv s.draws) s)

/-- The chip drives DIN of its own accord (R35).  DEDUCED from R36 (assumption log 37): outside a READ
the chip pulls DIN low because it has latched a conversion, so such a fall latches one, of a word that
is a draw; during a READ DIN moves for the data bits and latches nothing. -/
def chipDrive (v : Bool) (s : State) : State :=
  if dinForcedHigh s then s
  else if !busy s && s.chip.din && !v then driveDin v (latchDraw s)
  else driveDin v s

/-- The chip latches this conversion, made under NEXT_GAIN, and pulls DIN low (R36, R39).  DESIGN
CHOICE (assumption log 38): where DIN is low already the new word takes the old one's place, and there
is no edge, so that neither PENDING nor SYNC changes. -/
def chipReady (w : Raw24) (s : State) : State :=
  if dinForcedHigh s then s
  else driveDin false (latch w s)

/-- The source of the data bits is set (R37, R38). -/
def setSource (c : ReadSource) (s : State) : State := { s with chip.source := c }

/-- What a power-down does to the chip's state: SYNC is 0, CONV and NEXT_GAIN are draws (R154). -/
def loseState (s : State) : State :=
  { s with
    chip.sync := false
    chip.conv := Config.drawConv s.draws
    chip.nextGain := Config.drawGain s.draws
    draws := s.draws + 1 }

/-- The chip powers down: DIN is forced high, SYNC is 0, and CONV and NEXT_GAIN are draws
(R38, R40, R154). -/
def powerDown (s : State) : State := loseState (driveDin true (setSource .poweredDown s))

/-- The clock high time of the present pulse, in µs. -/
def highTime (s : State) : Nat := s.cfg.tBitUs + s.stretch

/-- The stretched pulse is over. -/
def endStretch (s : State) : State := { s with stretch := 0 }

/-- The high phase of a pulse: the chip powers down when it lasts longer than T_PD_US (R38).  DESIGN
CHOICE (assumption log 10): the stretch is used up here, so that a pulse which a PinFault then leaves
high is counted from T_BIT_US alone when it is stretched again. -/
def holdHigh (s : State) : State :=
  let s' := delay s.cfg.tBitUs (endStretch s)
  if s.cfg.tPdUs < highTime s then powerDown s' else s'

/-- Extra high time for the present or next pulse. -/
def addStretch (us : Nat) (s : State) : State := { s with stretch := s.stretch + us }

/-- Something stretches the high time of the present pulse, if CLK is high, or of the next one.  DESIGN
CHOICE (assumption log 10): a CLK that a failed write left high powers the chip down at such an event
only, and not by a stretch that was pending before. -/
def stretchClock (us : Nat) (s : State) : State :=
  let s' := addStretch us s
  if s'.block.clk && decide (s'.cfg.tPdUs < highTime s') then powerDown s' else s'

/-- READ starts: the read is valid when DIN is 0 and SYNC is 1 (R37 (a), (b)), and the chip begins to
count pulses. -/
def chipBeginFrame (s : State) : State :=
  { s with
    chip.source := if !s.chip.din && s.chip.sync then .word s.chip.conv else .draws
    chip.pulses := 0 }

/-- In the high phase of data pulse `i = CNT` the chip puts its bit on DIN: `CONV[23 − i]` in a valid
read, 1 after a power-down, a draw otherwise (R37, R38, R106; assumption log 9). -/
def chipShiftOut (s : State) : State :=
  match s.chip.source with
  | .word w => driveDin (w.getLsbD (23 - s.block.cnt.toNat)) s
  | .draws => driveDin (Config.drawBit s.draws) (spendDraw s)
  | .poweredDown => driveDin true s

/-- The chip has seen one more whole pulse (R39). -/
def chipCountPulse (s : State) : State :=
  { s with chip.pulses := s.chip.pulses + 1 }

/-- NEXT_GAIN is set (R39). -/
def setNextGain (m : GainMode) (s : State) : State := { s with chip.nextGain := m }

/-- The chip sets NEXT_GAIN from the pulses it saw after the 24th (R39).  After a power-down NEXT_GAIN
stays the draw it is (R38; assumption log 12). -/
def takeGain (s : State) : State :=
  if s.chip.source = .poweredDown then s
  else
    match gainOfPulses (s.chip.pulses - dataPulses) with
    | some m => setNextGain m s
    | none => spendDraw (setNextGain (Config.drawGain s.draws) s)

/-- READ completes: the chip sets NEXT_GAIN (R39), and the conversion it had is consumed (R54).  DEDUCED
(assumption log 39): CONV is from here on the next conversion, made under that NEXT_GAIN (R91), of a
word that is a draw (R36). -/
def chipEndFrame (s : State) : State := latchDraw (takeGain s)

/-! ### PinFault and the pin primitives -/

/-- PinFault, the block's one exception (R136): FAULT is set, the pin and STEP are recorded, and no
response is given. -/
def pinFault (p : Pin) (s : State) : State :=
  { s with
    block.fault := true
    block.faultInfo := some { pin := p, phase := s.block.phase, cnt := s.block.cnt } }

/-- The next pin primitive fails (assumption log 4). -/
def pinFails (s : State) : Bool := s.pins.headD false

/-- A pin primitive has been tried. -/
def popPin (s : State) : State := { s with pins := s.pins.tail }

/-- `PinWrite(CLK, b) ; CLK <- b` (R15, R85).  A failing write leaves the level a draw (R136).  The
error is the state PinFault leaves. -/
def pinWriteClk (b : Bool) (s : State) : Except State State :=
  if pinFails s then
    .error (pinFault .clk (spendDraw (setClk (Config.drawBit s.draws) (popPin s))))
  else .ok (setClk b (popPin s))

/-- `PinRead(DIN)` (R15, R35). -/
def pinReadDin (s : State) : Except State (Bool × State) :=
  if pinFails s then .error (pinFault .din (popPin s)) else .ok (s.chip.din, popPin s)

/-! ### Handler entry and return -/

/-- Dispatch is enabled (R142). -/
def dispatchEnabled (s : State) : Bool := irq s && !s.host.inCs && !s.host.inHandler

/-- Handler dispatch, the host's trap entry (R142): the foreground's continuation stays where it is,
the block is not changed, and the handler starts. -/
def dispatchHandler (s : State) : State :=
  { s with host.inHandler := true, host.hd := .start }

/-- Handler return (R144): the foreground goes on exactly where it was. -/
def returnFromHandler (s : State) : State :=
  { s with host.inHandler := false, host.hd := .idle }

/-! ### Reset -/

/-- Reset while BUSY cuts the READ: SYNC becomes 0 and NEXT_GAIN a draw (R158). -/
def chipCutFrame (s : State) : State :=
  if busy s then
    { s with
      chip.sync := false
      chip.nextGain := Config.drawGain s.draws
      draws := s.draws + 1 }
  else s

/-- `RST`: every block register takes its reset value in one step, CLK is driven low, no response is
given, and the driver is constructed again (R156 to R159).  A word still held on CMD is not dropped
(R53; assumption log 15), and the host goes on with the next statement of its program
(assumption log 16). -/
def resetMachine (s : State) : State :=
  let s' := chipCutFrame s
  { s' with
    block := Block.resetWith s.chip.din s.block.faultInfo
    chan.response := none
    host := HostState.resetWith s.host.pc
    stretch := 0 }

end Sys2Proof.Machine
end

