-- ==== Sys2Proof/Machine/EdgeNotify.lean ====
section
/-! DEFINITION. The edge-notify commands LISTEN, UNLISTEN, CLRINT and ISLISTENING
(41_edge_notify.md R102 to R105).  In a block without the unit each of them is an illegal word
(30_encoding.md R75). -/

namespace Sys2Proof.Machine

/-- An edge-notify command: its effect where the unit is present, illegal where it is not (R75). -/
def withUnit (s t : State) : Host.Outcome State Fault Refusal :=
  if s.cfg.hasEdgeNotify then .next t else .next (respondIllegal s)

/-- LISTEN (R102): PENDING is not changed. -/
def execListen (s : State) : Host.Outcome State Fault Refusal :=
  withUnit s (respondOk 0#32 (setListen true s))

/-- UNLISTEN (R103): PENDING is not changed. -/
def execUnlisten (s : State) : Host.Outcome State Fault Refusal :=
  withUnit s (respondOk 0#32 (setListen false s))

/-- CLRINT (R104): it reads no pin. -/
def execClrint (s : State) : Host.Outcome State Fault Refusal :=
  withUnit s (respondOk 0#32 (setPending false s))

/-- ISLISTENING (R105): it reports LISTEN, not PENDING. -/
def execIslistening (s : State) : Host.Outcome State Fault Refusal :=
  withUnit s (respondOk (zextBit s.block.listen) s)

end Sys2Proof.Machine
end

