-- ==== Sys2Proof/Machine/Protocol.lean ====
section
/-! DEFINITION. The protocol engine: RDY, READ, SETGAIN and GETGAIN, and READ's micro-steps
(40_protocol_engine.md R80 to R98). -/

namespace Sys2Proof.Machine

/-! ### The two pulses -/

/-- DATA_PULSE (R85): raise CLK, hold, sample DIN once, lower CLK, hold.  The chip puts its bit on DIN
while CLK is high.  The error is the state a PinFault leaves. -/
def dataPulse (s : State) : Except State (Bool × State) :=
  match pinWriteClk true s with
  | .error e => .error e
  | .ok s₁ =>
    match pinReadDin (chipShiftOut (holdHigh s₁)) with
    | .error e => .error e
    | .ok (b, s₂) =>
      match pinWriteClk false s₂ with
      | .error e => .error e
      | .ok s₃ => .ok (b, chipCountPulse (delay s₃.cfg.tBitUs s₃))

/-- CTRL_PULSE (R86): the same pulse without a DIN sample. -/
def ctrlPulse (s : State) : Except State State :=
  match pinWriteClk true s with
  | .error e => .error e
  | .ok s₁ =>
    match pinWriteClk false (holdHigh s₁) with
    | .error e => .error e
    | .ok s₂ => .ok (chipCountPulse (delay s₂.cfg.tBitUs s₂))

/-! ### The sequencer (R84) -/

/-- `SHIFT <- SHIFT[22:0] ++ b` (R94). -/
def takeBit (b : Bool) (s : State) : State :=
  setShift (shiftIn s.block.shift b) s

/-- STEP after a data pulse: `(READING, c + 1)`, or `(GAINPULSING, 0)` after the 24th (R84). -/
def afterData (s : State) : State :=
  if s.block.cnt.toNat + 1 < dataPulses then setStep .reading (s.block.cnt + 1#5) s
  else setStep .gainPulsing 0#5 s

/-- STEP after a control pulse: `(GAINPULSING, k + 1)` (R84). -/
def afterCtrl (s : State) : State := setStep .gainPulsing (s.block.cnt + 1#5) s

/-- READ completion (R88): the result is widened, the block is IDLE, and the response is given. -/
def completeRead (s : State) : State :=
  let r := pattern (widen s.block.shift)
  respondOk r (chipEndFrame (setStep .idle 0#5 (setResult r s)))

/-- One micro-step in READING. -/
def dataStep (s : State) : Host.Outcome State Fault Refusal :=
  if s.block.cnt.toNat < dataPulses then
    match dataPulse s with
    | .error e => .next e
    | .ok (b, s') => .next (afterData (takeBit b s'))
  else .fault .noStep

/-- One micro-step in GAINPULSING: a control pulse while pulses are owed, then completion. -/
def ctrlStep (s : State) : Host.Outcome State Fault Refusal :=
  if s.block.cnt.toNat < pulseCount s.block.gain then
    match ctrlPulse s with
    | .error e => .next e
    | .ok s' => .next (afterCtrl s')
  else if s.block.cnt.toNat = pulseCount s.block.gain then .next (completeRead s)
  else .fault .noStep

/-- The sequencer's step, chosen by STEP; none is enabled in IDLE (R84). -/
def sequencerStep (s : State) : Host.Outcome State Fault Refusal :=
  match s.block.phase with
  | .idle => .next s
  | .reading => dataStep s
  | .gainPulsing => ctrlStep s

/-! ### READ as one sequence (R82) -/

/-- `n` data pulses, each shifted in; the error is the state a PinFault leaves. -/
def dataPulseLoop : Nat → State → Except State State
  | 0, s => .ok s
  | n + 1, s =>
    match dataPulse s with
    | .error e => .error e
    | .ok (b, s') => dataPulseLoop n (afterData (takeBit b s'))

/-- `n` control pulses. -/
def ctrlPulseLoop : Nat → State → Except State State
  | 0, s => .ok s
  | n + 1, s =>
    match ctrlPulse s with
    | .error e => .error e
    | .ok s' => ctrlPulseLoop n (afterCtrl s')

/-- READ accepted (R81): `SHIFT <- 0 ; CNT <- 0 ; PHASE <- READING`. -/
def beginRead (s : State) : State :=
  chipBeginFrame (setStep .reading 0#5 (setShift 0#24 s))

/-- READ written out whole (R82).  The error is the state a PinFault leaves. -/
def readSequence (s : State) : Except State State :=
  match dataPulseLoop dataPulses (beginRead s) with
  | .error e => .error e
  | .ok s₁ =>
    match ctrlPulseLoop (pulseCount s.block.gain) s₁ with
    | .error e => .error e
    | .ok s₂ => .ok (completeRead s₂)

/-! ### The commands -/

/-- RDY (R80): 1 when DIN reads low, else 0. -/
def execRdy (s : State) : Host.Outcome State Fault Refusal :=
  match pinReadDin s with
  | .error e => .next e
  | .ok (d, s') => .next (respondOk (zextBit (!d)) s')

/-- READ, the acceptance step (R81).  It does not test readiness (R83); the sequencer runs on from
here by itself (R84). -/
def execRead (s : State) : Host.Outcome State Fault Refusal :=
  .next (beginRead s)

/-- SETGAIN g (R89).  The reserved code 3 is an illegal word: GAIN keeps its value (R74). -/
def execSetgain (g : BitVec 2) (s : State) : Host.Outcome State Fault Refusal :=
  if g = 3#2 then .next (respondIllegal s)
  else .next (respondOk 0#32 (setGain g s))

/-- GETGAIN (R90). -/
def execGetgain (s : State) : Host.Outcome State Fault Refusal :=
  .next (respondOk (zextGain s.block.gain) s)

end Sys2Proof.Machine
end

