-- ==== Sys2Proof/Machine/Dispatch.lean ====
section
/-! DEFINITION. The dispatch: one arm per command of spec/opcode_table.json. -/

namespace Sys2Proof.Machine

/-- What the block does when it accepts the command `i` in the state `s`. -/
def exec (i : Instr) (s : State) : Host.Outcome State Fault Refusal :=
  match i with
  | .rdy => Sys2Proof.Machine.execRdy s
  | .read => Sys2Proof.Machine.execRead s
  | .setgain g => Sys2Proof.Machine.execSetgain g s
  | .getgain => Sys2Proof.Machine.execGetgain s
  | .listen => Sys2Proof.Machine.execListen s
  | .unlisten => Sys2Proof.Machine.execUnlisten s
  | .clrint => Sys2Proof.Machine.execClrint s
  | .islistening => Sys2Proof.Machine.execIslistening s

end Sys2Proof.Machine
end

