-- ==== Sys2Proof/WellFormed.lean ====
section
/-! DEFINITION. Which commands have a legal word (30_encoding.md R66, R67, R74, R75). -/

namespace Sys2Proof

/-- A command is well formed when some legal word encodes it.  The one check is SETGAIN's:
code 3 is reserved and illegal (R67, R74). -/
def Instr.wellFormed : Instr → Bool
  | .rdy => true
  | .read => true
  | .setgain g => g != 3#2
  | .getgain => true
  | .listen => true
  | .unlisten => true
  | .clrint => true
  | .islistening => true

/-- The commands of the optional edge-notify unit (41_edge_notify.md R102 to R105). -/
def Instr.needsEdgeNotify : Instr → Bool
  | .rdy => false
  | .read => false
  | .setgain _ => false
  | .getgain => false
  | .listen => true
  | .unlisten => true
  | .clrint => true
  | .islistening => true

/-- A command is legal in a block with or without the edge-notify unit: well formed, and of the
edge-notify family only where the unit is present (R75). -/
def Instr.legal (hasEdgeNotify : Bool) (i : Instr) : Bool :=
  i.wellFormed && (!i.needsEdgeNotify || hasEdgeNotify)

end Sys2Proof
end

