-- ==== Sys2Proof/Decode.lean ====
section
/-! DEFINITION. The command decoder and encoder (30_encoding.md R65 to R69, R73 to R76). -/

namespace Sys2Proof

/-- Why a word is illegal.  Every reason has the same effect, the response `(ILLEGAL_COMMAND, 0)`
(R73); the names keep the three cases of R73 apart. -/
inductive IllegalWord where
  /-- One of the undefined words (R66, R76). -/
  | undefinedWord (w : Byte)
  /-- `0x33`, SETGAIN with the reserved code 3 (R74). -/
  | reservedGain
  /-- An edge-notify word while `HAS_EDGE_NOTIFY = false` (R75). -/
  | edgeNotifyAbsent (w : Byte)
  deriving DecidableEq, Repr

/-- An edge-notify command decodes only where the unit is present (R75). -/
def decodeEdge (hasEdgeNotify : Bool) (w : Byte) (i : Instr) : Except IllegalWord Instr :=
  if hasEdgeNotify then .ok i else .error (.edgeNotifyAbsent w)

/-- The decoder of R68, total on all 256 words. -/
def decode (hasEdgeNotify : Bool) (w : Byte) : Except IllegalWord Instr :=
  match w with
  | 0x10#8 => .ok .rdy
  | 0x20#8 => .ok .read
  | 0x30#8 => .ok (.setgain 0#2)
  | 0x31#8 => .ok (.setgain 1#2)
  | 0x32#8 => .ok (.setgain 2#2)
  | 0x33#8 => .error .reservedGain
  | 0x40#8 => .ok .getgain
  | 0x50#8 => decodeEdge hasEdgeNotify w .listen
  | 0x60#8 => decodeEdge hasEdgeNotify w .unlisten
  | 0x70#8 => decodeEdge hasEdgeNotify w .clrint
  | 0x80#8 => decodeEdge hasEdgeNotify w .islistening
  | _ => .error (.undefinedWord w)

/-- The operation field `OP = w[7:4]` of each command (R65, R66). -/
def Instr.op : Instr → BitVec 4
  | .rdy => 0x1#4
  | .read => 0x2#4
  | .setgain _ => 0x3#4
  | .getgain => 0x4#4
  | .listen => 0x5#4
  | .unlisten => 0x6#4
  | .clrint => 0x7#4
  | .islistening => 0x8#4

/-- The argument field `ARG = w[3:0]`: `00gg` for SETGAIN, 0 for every other command (R65, R67). -/
def Instr.arg : Instr → BitVec 4
  | .rdy => 0#4
  | .read => 0#4
  | .setgain g => 0#2 ++ g
  | .getgain => 0#4
  | .listen => 0#4
  | .unlisten => 0#4
  | .clrint => 0#4
  | .islistening => 0#4

/-- The command word `OP ++ ARG` of a command (R65). -/
def encode (i : Instr) : Byte := i.op ++ i.arg

/-- What the decoder reads from an instruction whose bits are `w`, numbered as
spec/opcode_table.json numbers them: a command is one 8-bit word (R69), so it is the low byte of `w`,
read by a block that has the edge-notify unit (assumption log 5). -/
def decodeTableWord (_nbits w : Nat) : Option Instr :=
  match decode true (BitVec.ofNat 8 w) with
  | .ok i => some i
  | .error _ => none

end Sys2Proof
end

