-- ==== Sys2Proof/Machine/Float32.lean ====
section
/-! DEFINITION. IEEE 754 binary32, as much of it as `read_scaled` uses: conversion of an i32 and
multiplication, both rounding to nearest, ties to even (45_host_facade.md R112, R113;
92_eei_decisions.md D20).  The interchange format itself is IEEE 754's (assumption log 22). -/

namespace Sys2Proof.Machine

/-- Number of binary digits of `n`, for `n` below `2 ^ fuel`. -/
def bitLength : Nat → Nat → Nat
  | 0, _ => 0
  | fuel + 1, n => if n = 0 then 0 else bitLength fuel (n / 2) + 1

/-- `m / 2^k`, rounded to nearest, ties to even. -/
def shiftRightRne (m k : Nat) : Nat :=
  let q := m / 2 ^ k
  let r := m % 2 ^ k
  if 2 ^ k < 2 * r then q + 1
  else if 2 * r = 2 ^ k then q + q % 2
  else q

/-- A binary32 pattern from its three fields. -/
def f32Pack (sign : Bool) (exponent fraction : Nat) : Word32 :=
  BitVec.ofBool sign ++ BitVec.ofNat 8 exponent ++ BitVec.ofNat 23 fraction

/-- A signed infinity. -/
def f32Infinity (sign : Bool) : Word32 := f32Pack sign 255 0

/-- The finite or overflowed binary32 nearest to `(−1)^sign · m · 2^e`, ties to even.  The quantum is
`2^q` with `q ≥ −149`; an overflow gives the infinity of that sign. -/
def f32Round (sign : Bool) (m : Nat) (e : Int) : Word32 :=
  let q : Int := max (e + bitLength 64 m - 24) (-149)
  let f : Nat := if e < q then shiftRightRne m (q - e).toNat else m * 2 ^ (e - q).toNat
  if f < 2 ^ 23 then f32Pack sign 0 f
  else
    let up := decide (f = 2 ^ 24)
    let exponent : Int := q + 150 + (if up then 1 else 0)
    if 255 ≤ exponent then f32Infinity sign
    else f32Pack sign exponent.toNat (if up then 0 else f - 2 ^ 23)

/-- `f32(r)`: an i32 as a binary32 (R112). -/
def f32OfI32 (r : Word32) : Word32 :=
  f32Round (decide (r.toInt < 0)) r.toInt.natAbs 0

/-- The sign bit. -/
def f32Sign (x : Word32) : Bool := x.getLsbD 31

/-- The biased exponent field. -/
def f32Exponent (x : Word32) : Nat := (x.extractLsb' 23 8).toNat

/-- The fraction field. -/
def f32Fraction (x : Word32) : Nat := (x.extractLsb' 0 23).toNat

/-- A NaN. -/
def f32IsNaN (x : Word32) : Bool := f32Exponent x == 255 && f32Fraction x != 0

/-- An infinity. -/
def f32IsInf (x : Word32) : Bool := f32Exponent x == 255 && f32Fraction x == 0

/-- A zero of either sign. -/
def f32IsZero (x : Word32) : Bool := f32Exponent x == 0 && f32Fraction x == 0

/-- The integer significand of a finite number. -/
def f32Significand (x : Word32) : Nat :=
  if f32Exponent x = 0 then f32Fraction x else f32Fraction x + 2 ^ 23

/-- The exponent of the significand's unit, for a finite number. -/
def f32Unit (x : Word32) : Int :=
  if f32Exponent x = 0 then -149 else (f32Exponent x : Int) - 150

/-- A NaN result: a quiet NaN whose sign and payload IEEE 754 leaves open. -/
def f32NaN (x y : Word32) : Word32 := Config.nanPattern x y ||| 0x7FC00000#32

/-- `⊗`: binary32 multiplication (R112). -/
def f32Mul (x y : Word32) : Word32 :=
  let sign := f32Sign x ^^ f32Sign y
  if f32IsNaN x || f32IsNaN y then f32NaN x y
  else if f32IsInf x then (if f32IsZero y then f32NaN x y else f32Infinity sign)
  else if f32IsInf y then (if f32IsZero x then f32NaN x y else f32Infinity sign)
  else f32Round sign (f32Significand x * f32Significand y) (f32Unit x + f32Unit y)

/-- The place of a number in the order of binary32: both zeros at 0, negative numbers below. -/
def f32Rank (x : Word32) : Int :=
  if f32Sign x then -((x.extractLsb' 0 31).toNat : Int) else ((x.extractLsb' 0 31).toNat : Int)

/-- The comparison `x < y`; false where one of them is a NaN. -/
def f32Below (x y : Word32) : Bool :=
  !f32IsNaN x && !f32IsNaN y && decide (f32Rank x < f32Rank y)

end Sys2Proof.Machine
end

