-- ==== Sys2Proof/Machine/Facade.lean ====
section
/-! DEFINITION. The host contract: the procedures of 45_host_facade.md as steps of two contexts, the
foreground and the handler (60_exceptions.md R142 to R147).  A step of a context opens a critical
section and presents a command, takes a response, or touches the host's own state
(assumption log 23). -/

namespace Sys2Proof.Machine

/-! ### Arithmetic -/

/-- `sample − OFFSET` as an exact integer, where it lies in i32 (R110). -/
def offsetCorrect (sample offset : Word32) : Option Word32 :=
  let r := sample.toInt - offset.toInt
  if r < -2147483648 ∨ 2147483647 < r then none else some (pattern r)

/-- `trunc(Σvs / |vs|)`, the default TARE_MEAN (R116). -/
def truncatedMean (vs : List Int) : Int := vs.sum.tdiv vs.length

/-- `round(mean(vs))`, a tie going up. -/
def meanHalfUp (vs : List Int) : Int := (2 * vs.sum + vs.length).fdiv (2 * vs.length)

/-- `round(mean(vs))`, a tie going down. -/
def meanHalfDown (vs : List Int) : Int := -((vs.length - 2 * vs.sum).fdiv (2 * vs.length))

/-- Law 1 of R116: the mean of a constant list is its constant. -/
def constantLaw (vs : List Int) (r : Int) : Bool :=
  match vs with
  | [] => true
  | v :: rest => !rest.all (· == v) || r == v

/-- Law 2 of R116: within 1 of the rounded mean, for one of the two tie rules (assumption log 21). -/
def nearLaw (vs : List Int) (r : Int) : Bool :=
  decide ((r - meanHalfUp vs).natAbs ≤ 1) || decide ((r - meanHalfDown vs).natAbs ≤ 1)

/-- Law 3 of R116: in the range of a sample. -/
def rangeLaw (r : Int) : Bool := decide (hx711Minimum ≤ r) && decide (r ≤ hx711Maximum)

/-- `TARE_MEAN` (R116): the default, or whatever an implementation gives where that obeys the laws. -/
def tareMean (kind : TareMeanKind) (vs : List Int) : Int :=
  match kind with
  | .truncated => truncatedMean vs
  | .anyLawful =>
    let r := Config.tareMeanChoice vs
    if constantLaw vs r && nearLaw vs r && rangeLaw r then r else truncatedMean vs

/-! ### Critical sections and procedure ends -/

/-- The foreground enters a critical section (R147). -/
def enterCs (s : State) : State := { s with host.inCs := true }

/-- The foreground leaves its critical section (R147). -/
def leaveCs (s : State) : State := { s with host.inCs := false }

/-- The foreground is now at this point. -/
def goto (p : FgPoint) (s : State) : State := { s with host.fg := p }

/-- The handler is now at this point. -/
def handlerGoto (p : HdPoint) (s : State) : State := { s with host.hd := p }

/-- A procedure of the foreground returns (R108). -/
def finish (r : HostResult) (s : State) : State :=
  { s with host.fg := .idle, host.result := some r }

/-- The foreground opens a critical section, issues a command, and waits for its response there. -/
def issue (i : Instr) (p : FgPoint) (s : State) : State :=
  goto p (present (encode i) (enterCs s))

/-- The foreground closes its critical section and returns. -/
def leaveWith (r : HostResult) (s : State) : State := finish r (leaveCs s)

/-- The handler issues a command; it is never preempted, so it needs no mark (R147). -/
def handlerIssue (i : Instr) (p : HdPoint) (s : State) : State :=
  handlerGoto p (present (encode i) s)

/-! ### Starting a procedure -/

/-- A procedure of section 4 of 45_host_facade.md exists only with the edge-notify unit. -/
def edgeProcedure (i : Instr) (s : State) : Host.Outcome State Fault Refusal :=
  if s.cfg.hasEdgeNotify then .next (issue i .awaitUnit s) else .refused .noSuchProcedure

/-- `tare(n)` begins (R114, R117): `tare(0)` is refused (R119); LISTEN is asked for where the
edge-notify unit is present. -/
def startTare (n : Nat) (s : State) : Host.Outcome State Fault Refusal :=
  if n = 0 then .refused .tareZero
  else if s.cfg.hasEdgeNotify then .next (issue .islistening (.awaitTareQuery n) s)
  else .next (goto (.tarePoll false n []) s)

/-- The foreground makes a call.  A body that touches only the host's own state is one critical
section and one step.  DEDUCED (assumption log 25): `get_last_reading` runs without the edge-notify unit
too, since R43 and R47 give LAST and its reading to every configuration. -/
def startCall (c : HostCall) (s : State) : Host.Outcome State Fault Refusal :=
  match c with
  | .isReady => .next (issue .rdy .awaitReady s)
  | .read => .next (issue .rdy (.awaitReadRdy false) s)
  | .readScaled => .next (issue .rdy (.awaitReadRdy true) s)
  | .tare n => startTare n s
  | .setScale x => .next (finish .unit { s with host.scale := x })
  | .getScale => .next (finish (.float s.host.scale) s)
  | .setOffset o => .next (finish .unit { s with host.offset := o })
  | .getOffset => .next (finish (.int s.host.offset) s)
  | .setGainMode m => .next (issue (.setgain (gainCode m)) .awaitUnit s)
  | .getGainMode => .next (issue .getgain .awaitGain s)
  | .enableInterrupt => edgeProcedure .listen s
  | .disableInterrupt => edgeProcedure .unlisten s
  | .clearInterrupt => edgeProcedure .clrint s
  | .getLastReading => .next (finish (.last s.host.last) s)
  | .cmd w => .next (goto .awaitRaw (present w (enterCs s)))
  | .waitReady => .next (goto .poll s)
  | .assertReady => .next (issue .rdy .awaitAssert s)

/-! ### Going on -/

/-- RDY answered "ready" (R71). -/
def isReadyValue (r : Response) : Bool := r.value == 1#32

/-- The end of `read()`: the offset is subtracted, LAST is written, and `read_scaled` goes on to its
own critical section (R110, R112).  A difference outside i32 is OffsetOverflow (R139). -/
def endRead (scaled : Bool) (r : Response) (s : State) : Host.Outcome State Fault Refusal :=
  match offsetCorrect r.value s.host.offset with
  | none => .fault (.offsetOverflow r.value s.host.offset)
  | some d =>
    let s' := leaveCs { s with host.last := some d }
    .next (if scaled then goto (.scale d) s' else finish (.int d) s')

/-- A sample of `tare` has come: the settling delay, then the next sample or the mean (R114). -/
def endTareSample (prior : Bool) (left : Nat) (vs : List Word32) (r : Response) (s : State) : State :=
  let vs' := vs ++ [r.value]
  let s' := delay s.cfg.tTareSettleUs (leaveCs s)
  if left ≤ 1 then goto (.tareStore prior vs') s' else goto (.tarePoll prior (left - 1) vs') s'

/-- The foreground takes the response it was waiting for.  At a point that waits for none, nothing. -/
def takeResponse (r : Response) (s : State) : Host.Outcome State Fault Refusal :=
  match s.host.fg with
  | .awaitReady => .next (leaveWith (.bool (isReadyValue r)) s)
  | .awaitAssert => .next (leaveWith (if r.value = 0#32 then .notReady else .unit) s)
  | .awaitPoll =>
    .next (if isReadyValue r then leaveWith .unit s
      else goto .poll (delay s.cfg.tTarePollUs (leaveCs s)))
  | .awaitReadRdy scaled =>
    .next (if r.value = 0#32 then leaveWith .notReady s
      else issue .read (.awaitReadSample scaled) s)
  | .awaitReadSample scaled => endRead scaled r s
  | .awaitTareQuery n =>
    .next (if r.value = 1#32 then issue .unlisten (.awaitTareUnlisten n) s
      else goto (.tarePoll false n []) { leaveCs s with host.tareSaved := false })
  | .awaitTareUnlisten n =>
    .next (goto (.tarePoll true n []) { leaveCs s with host.tareSaved := true })
  | .awaitTarePoll prior left vs =>
    .next (if isReadyValue r then goto (.tareSample prior left vs) (leaveCs s)
      else goto (.tarePoll prior left vs) (delay s.cfg.tTarePollUs (leaveCs s)))
  | .awaitTareSample prior left vs => .next (endTareSample prior left vs r s)
  | .awaitTareRestore => .next (leaveWith .unit s)
  | .awaitUnit => .next (leaveWith .unit s)
  | .awaitGain => .next (leaveWith (.gain (gainOfCode (r.value.setWidth 2))) s)
  | .awaitRaw => .next (leaveWith (.response r) s)
  | .idle => .next s
  | .scale _ => .next s
  | .poll => .next s
  | .tarePoll _ _ _ => .next s
  | .tareSample _ _ _ => .next s
  | .tareStore _ _ => .next s
  | .tareRestore => .next s

/-- The response a waiting context takes; while there is none it waits. -/
def onResponse (s : State) (k : Response → Host.Outcome State Fault Refusal) :
    Host.Outcome State Fault Refusal :=
  match s.chan.response with
  | none => .next s
  | some r => k r

/-- The end of `tare`'s own writing: OFFSET gets the mean, and LISTEN is restored where it was set
(R114, R117). -/
def storeTareMean (prior : Bool) (vs : List Word32) (s : State) : State :=
  let s' := { s with host.offset := pattern (tareMean s.cfg.tareMean (vs.map BitVec.toInt)) }
  if prior then goto .tareRestore s' else finish .unit s'

/-- The foreground's next statement is this one. -/
def setPc (n : Nat) (s : State) : State := { s with host.pc := n }

/-- The foreground passes on to the statement after a call, whose result is not there yet. -/
def passCall (s : State) : State :=
  { s with host.pc := s.host.pc + 1, host.result := none }

/-- What a branch finds in the result of the last procedure; a result of another kind, or none, fails
the test (assumption log 33). -/
def testHolds (t : HostTest) (r : Option HostResult) : Bool :=
  match t with
  | .notReady => r == some .notReady
  | .isTrue => r == some (.bool true)
  | .intIs x => r == some (.int x)
  | .intBelow x => match r with
    | some (.int y) => decide (y.toInt < x.toInt)
    | _ => false
  | .floatIs x => r == some (.float x)
  | .floatBelow x => match r with
    | some (.float y) => f32Below y x
    | _ => false
  | .gainIs m => r == some (.gain (some m))
  | .lastIs l => r == some (.last l)
  | .statusIs b => match r with
    | some (.response a) => a.status == b
    | _ => false
  | .valueIs v => match r with
    | some (.response a) => a.value == v
    | _ => false

/-- The foreground takes the next statement of its program text (R46); after the last one it has
nothing to do (R162). -/
def programStep (s : State) : Host.Outcome State Fault Refusal :=
  match s.cfg.program[s.host.pc]? with
  | none => .next s
  | some (.call c) => startCall c (passCall s)
  | some (.jump n) => .next (setPc n s)
  | some (.branch t n) =>
    .next (setPc (if testHolds t s.host.result then n else s.host.pc + 1) s)

/-- One step of the foreground context. -/
def foregroundStep (s : State) : Host.Outcome State Fault Refusal :=
  match s.host.fg with
  | .idle => programStep s
  | .scale r => .next (finish (.float (f32Mul (f32OfI32 r) s.host.scale)) s)
  | .poll => .next (issue .rdy .awaitPoll s)
  | .tarePoll prior left vs => .next (issue .rdy (.awaitTarePoll prior left vs) s)
  | .tareSample prior left vs => .next (issue .read (.awaitTareSample prior left vs) s)
  | .tareStore prior vs => .next (storeTareMean prior vs s)
  | .tareRestore => .next (issue .listen .awaitTareRestore s)
  | .awaitReady => onResponse s (fun r => takeResponse r s)
  | .awaitAssert => onResponse s (fun r => takeResponse r s)
  | .awaitPoll => onResponse s (fun r => takeResponse r s)
  | .awaitReadRdy _ => onResponse s (fun r => takeResponse r s)
  | .awaitReadSample _ => onResponse s (fun r => takeResponse r s)
  | .awaitTareQuery _ => onResponse s (fun r => takeResponse r s)
  | .awaitTareUnlisten _ => onResponse s (fun r => takeResponse r s)
  | .awaitTarePoll _ _ _ => onResponse s (fun r => takeResponse r s)
  | .awaitTareSample _ _ _ => onResponse s (fun r => takeResponse r s)
  | .awaitTareRestore => onResponse s (fun r => takeResponse r s)
  | .awaitUnit => onResponse s (fun r => takeResponse r s)
  | .awaitGain => onResponse s (fun r => takeResponse r s)
  | .awaitRaw => onResponse s (fun r => takeResponse r s)

/-! ### The handler context (R129) -/

/-- The end of the handler's `read()`: LAST is written, then CLRINT is issued. -/
def handlerEndRead (r : Response) (s : State) : Host.Outcome State Fault Refusal :=
  match offsetCorrect r.value s.host.offset with
  | none => .fault (.offsetOverflow r.value s.host.offset)
  | some d => .next (handlerIssue .clrint .awaitClear { s with host.last := some d })

/-- One step of `handler()`: RDY, READ only if ready, then CLRINT unconditionally; NotReady is
swallowed (R129). -/
def handlerStep (s : State) : Host.Outcome State Fault Refusal :=
  match s.host.hd with
  | .idle => .next (returnFromHandler s)
  | .start => .next (handlerIssue .rdy .awaitRdy s)
  | .awaitRdy =>
    onResponse s (fun r =>
      .next (if r.value = 0#32 then handlerIssue .clrint .awaitClear s
        else handlerIssue .read .awaitSample s))
  | .awaitSample => onResponse s (fun r => handlerEndRead r s)
  | .awaitClear => onResponse s (fun _ => .next (returnFromHandler s))

/-- One step of the host: the running handler, a dispatch that is enabled, or the foreground
(R142, R146).  `fgFirst` lets the foreground go before an enabled dispatch. -/
def hostStep (fgFirst : Bool) (s : State) : Host.Outcome State Fault Refusal :=
  if s.host.inHandler then handlerStep s
  else if dispatchEnabled s && !fgFirst then .next (dispatchHandler s)
  else foregroundStep s

end Sys2Proof.Machine
end

