-- ==== Sys2Proof/Machine/Schedule.lean ====
section
/-! DEFINITION. Which agent moves next (00_scope.md R18; 20_memory.md R53, R56; 60_exceptions.md R146),
up to the command the block accepts; Sys2Proof/Machine/Step.lean runs that command. -/

namespace Sys2Proof.Machine

/-- What the next step comes to: it is done, or the block runs this command from this state. -/
inductive Move where
  | done (o : Host.Outcome State Fault Refusal)
  | run (i : Instr) (s : State)

/-- The block accepts a command only when `PHASE = IDLE` and `FAULT = 0` (R53). -/
def canAccept (s : State) : Bool := s.block.phase == .idle && !s.block.fault

/-- An idle block takes the presented word: a legal command runs, an illegal word is answered and has
no other effect (R68, R73, R146). -/
def acceptWord (w : Byte) (s : State) : Move :=
  match decode s.cfg.hasEdgeNotify w with
  | .ok i => .run i (acceptCommand s)
  | .error _ => .done (.next (respondIllegal (acceptCommand s)))

/-- The block or the host moves.  A faulted block has no step (R28); a READ in progress goes on, and a
word presented meanwhile is held (R53, R84); an idle block takes the word presented; otherwise the
host moves. -/
def agentMove (fgFirst : Bool) (s : State) : Move :=
  if s.block.fault then .done (.fault .stuck)
  else
    match s.block.phase with
    | .idle =>
      match s.chan.cmd with
      | some w => acceptWord w s
      | none => .done (hostStep fgFirst s)
    | .reading => .done (sequencerStep s)
    | .gainPulsing => .done (sequencerStep s)

/-- An entry of the schedule, already taken off it.  A stretched pulse is refused (R163, U22) but on a
platform configured to show the chip's law R38 (assumption log 10). -/
def eventMove (e : Event) (s : State) : Move :=
  match e with
  | .run => agentMove false s
  | .foreground => agentMove true s
  | .drive v => .done (.next (chipDrive v s))
  | .ready w => .done (.next (chipReady w s))
  | .stretch us =>
    .done (if s.cfg.platformStretches then .next (stretchClock us s) else .refused .outsideSpec)
  | .rst => .done (.next (resetMachine s))

/-- The next move: the schedule's first entry, or the block or the host when the schedule is empty.  A
configuration that breaks R164 is refused. -/
def nextMove (s : State) : Move :=
  if s.cfg.legal then
    match s.sched with
    | [] => agentMove false s
    | e :: es => eventMove e { s with sched := es }
  else .done (.refused .badConfiguration)

/-- `s` with the command word `w` on CMD, and nothing between it and the block: no event is
scheduled, the block is IDLE and has no fault. -/
def placeWord (w : Nat) (s : State) : State :=
  { s with
    chan.cmd := some (BitVec.ofNat 8 w)
    block.phase := .idle
    block.cnt := 0#5
    block.fault := false
    sched := [] }

end Sys2Proof.Machine
end

