-- ==== Sys2Proof/Machine/Step.lean ====
section
/-! DEFINITION. One step of the machine. -/

namespace Sys2Proof.Machine

/-- One step: the next move, and the command's meaning where the move is that the block accepts one. -/
def step (s : State) : Host.Outcome State Fault Refusal :=
  match nextMove s with
  | .done o => o
  | .run i s' => exec i s'

/-- `s` with the command word `w` presented, so that the very next step accepts and runs it.  The
block fetches nothing (R51, R60): a command runs because the host presents it (assumption log 28).
The configuration is not changed: an edge-notify word stays illegal where the unit is absent. -/
def State.withFetchWord (s : State) (_nbits w : Nat) : State := placeWord w s

end Sys2Proof.Machine
end

