-- ==== Sys2Proof/Machine/Assembler.lean ====
section
/-! DEFINITION. The assembler and the disassembler of 30_encoding.md R77 to R79.  A program text becomes
a list of host calls: a command word each, or one of the two macros of R78.  Texts are lists of
characters, so that the kernel can evaluate them. -/

namespace Sys2Proof.Machine

/-- The mnemonic of a command (R66). -/
def mnemonic : Instr → List Char
  | .rdy => ['r', 'd', 'y']
  | .read => ['r', 'e', 'a', 'd']
  | .setgain _ => ['s', 'e', 't', 'g', 'a', 'i', 'n']
  | .getgain => ['g', 'e', 't', 'g', 'a', 'i', 'n']
  | .listen => ['l', 'i', 's', 't', 'e', 'n']
  | .unlisten => ['u', 'n', 'l', 'i', 's', 't', 'e', 'n']
  | .clrint => ['c', 'l', 'r', 'i', 'n', 't']
  | .islistening => ['i', 's', 'l', 'i', 's', 't', 'e', 'n', 'i', 'n', 'g']

/-- The name of a mode as SETGAIN's operand (R77). -/
def modeName : GainMode → List Char
  | .a128 => ['a', '1', '2', '8']
  | .b32 => ['b', '3', '2']
  | .a64 => ['a', '6', '4']

/-- The numeric form of SETGAIN's operand (R77). -/
def modeNumber : GainMode → List Char
  | .a128 => ['#', '0']
  | .b32 => ['#', '1']
  | .a64 => ['#', '2']

/-- The three modes. -/
def allModes : List GainMode := [.a128, .b32, .a64]

/-- The commands that take no operand. -/
def plainCommands : List Instr :=
  [.rdy, .read, .getgain, .listen, .unlisten, .clrint, .islistening]

/-- The host-side macros (R78). -/
def macroCalls : List (List Char × HostCall) :=
  [(['w', 'a', 'i', 't', 'r', 'e', 'a', 'd', 'y'], .waitReady),
   (['a', 's', 's', 'e', 'r', 't', '_', 'r', 'e', 'a', 'd', 'y'], .assertReady)]

/-- The hexadecimal digits, in order of value. -/
def hexDigits : List Char :=
  ['0', '1', '2', '3', '4', '5', '6', '7', '8', '9', 'A', 'B', 'C', 'D', 'E', 'F']

/-- One hexadecimal digit, printed. -/
def hexChar (d : BitVec 4) : Char := hexDigits.getD d.toNat '0'

/-- One hexadecimal digit, read; a letter may be small. -/
def hexValue (c : Char) : Option (BitVec 4) :=
  (hexDigits.findIdx? (fun d => d == c || d.toLower == c)).map (BitVec.ofNat 4)

/-- The text `0xNN` of a word (R77, R79). -/
def wordText (w : Byte) : List Char :=
  ['0', 'x', hexChar (w.extractLsb' 4 4), hexChar (w.extractLsb' 0 4)]

/-- A word given as `0xNN`. -/
def parseWord (t : List Char) : Option Byte :=
  match t with
  | ['0', 'x', a, b] =>
    match hexValue a, hexValue b with
    | some x, some y => some (x ++ y)
    | _, _ => none
  | _ => none

/-- SETGAIN's operand, by name or by number (R77). -/
def parseMode (t : List Char) : Option GainMode :=
  allModes.find? (fun m => t == modeName m || t == modeNumber m)

/-- The text before a comment; `;` starts one (R77). -/
def dropComment : List Char → List Char
  | [] => []
  | c :: cs => if c == ';' then [] else c :: dropComment cs

/-- A blank between two words of a line. -/
def isBlank (c : Char) : Bool := c == ' ' || c == '\t' || c == '\r'

/-- The words of a line; `cur` is the word being read, last character first. -/
def splitBlanks : List Char → List Char → List (List Char)
  | [], cur => if cur.isEmpty then [] else [cur.reverse]
  | c :: cs, cur =>
    if isBlank c then (if cur.isEmpty then [] else [cur.reverse]) ++ splitBlanks cs []
    else splitBlanks cs (c :: cur)

/-- A line of one word: a command without operand, or a macro. -/
def parseOne (t : List Char) : Option HostCall :=
  match plainCommands.find? (fun i => t == mnemonic i) with
  | some i => some (.cmd (encode i))
  | none => (macroCalls.find? (fun p => t == p.1)).map (fun p => p.2)

/-- A line of two words: SETGAIN with its operand, or `.byte` with a word. -/
def parseTwo (t x : List Char) : Option HostCall :=
  if t == mnemonic (.setgain 0#2) then
    (parseMode x).map (fun m => .cmd (encode (.setgain (gainCode m))))
  else if t == ['.', 'b', 'y', 't', 'e'] then (parseWord x).map .cmd
  else none

/-- One line of a program: at most one command (R77). -/
def assembleLine (l : List Char) : Option (List HostCall) :=
  match splitBlanks (dropComment l) [] with
  | [] => some []
  | [t] => (parseOne t).map (fun c => [c])
  | [t, x] => (parseTwo t x).map (fun c => [c])
  | _ => none

/-- A program, line by line. -/
def assemble : List (List Char) → Option (List HostCall)
  | [] => some []
  | l :: ls =>
    match assembleLine l, assemble ls with
    | some a, some b => some (a ++ b)
    | _, _ => none

/-- The program text of an assembled program: its calls, one after another (R46). -/
def programText (cs : List HostCall) : List HostStmt := cs.map .call

/-- The text of a legal command (R79). -/
def commandText (i : Instr) : List Char :=
  match i with
  | .setgain g =>
    mnemonic i ++ ' ' :: (match gainOfCode g with
      | some m => modeName m
      | none => [])
  | .rdy => mnemonic i
  | .read => mnemonic i
  | .getgain => mnemonic i
  | .listen => mnemonic i
  | .unlisten => mnemonic i
  | .clrint => mnemonic i
  | .islistening => mnemonic i

/-- Disassembly (R79): every word has a text. -/
def disassemble (hasEdgeNotify : Bool) (w : Byte) : List Char :=
  match decode hasEdgeNotify w with
  | .ok i => commandText i
  | .error _ => ['.', 'b', 'y', 't', 'e', ' '] ++ wordText w

end Sys2Proof.Machine
end

