-- ==== Sys2Proof/Safety.lean ====
section
/-! DEFINITION. What a lawful state is, in the terms the statements use: the invariants the spec
asserts of every reachable state, the states a schedule can run in, and the end of a run. -/

namespace Sys2Proof.Safety

open Sys2Proof.Machine

/-- GAIN never holds the reserved code 3 (10_state.md R22). -/
def gainLegal (s : State) : Bool := s.block.gain != 3#2

/-- STEP is one of the pairs the step table holds (R24, 40_protocol_engine.md R84): CNT is 0 in IDLE,
0 to 23 in READING, and 0 to N in GAINPULSING. -/
def stepLegal (s : State) : Bool :=
  match s.block.phase with
  | .idle => s.block.cnt == 0#5
  | .reading => decide (s.block.cnt.toNat < dataPulses)
  | .gainPulsing => decide (s.block.cnt.toNat ≤ pulseCount s.block.gain)

/-- Between steps CLK is high only in a block that a PinFault stopped during a READ; so CLK is 0
whenever PHASE is IDLE (R21). -/
def clkLegal (s : State) : Bool := !s.block.clk || (s.block.fault && busy s)

/-- RESULT lies in [−2^23, 2^23 − 1] (R26). -/
def resultLegal (s : State) : Bool :=
  decide (hx711Minimum ≤ s.block.result.toInt) && decide (s.block.result.toInt ≤ hx711Maximum)

/-- A faulted block has its fault information recorded (60_exceptions.md R136). -/
def faultLegal (s : State) : Bool := !s.block.fault || s.block.faultInfo.isSome

/-- With the unit, DIN_PREV is the level of DIN between two changes (R31, R99); without it, LISTEN and
PENDING are 0 (R29, R30). -/
def edgeLegal (s : State) : Bool :=
  if s.cfg.hasEdgeNotify then s.block.dinPrev == s.chip.din
  else !s.block.listen && !s.block.pending

/-- The chip has seen exactly the pulses the sequencer has counted (R24, R62, R92). -/
def pulsesLegal (s : State) : Bool :=
  match s.block.phase with
  | .idle => true
  | .reading => s.chip.pulses == s.block.cnt.toNat
  | .gainPulsing => s.chip.pulses == dataPulses + s.block.cnt.toNat

/-- For the remainder of a READ in which the chip powered down, DIN is high and SYNC is 0
(R38, R40). -/
def powerLegal (s : State) : Bool :=
  !dinForcedHigh s || (s.chip.din && !s.chip.sync)

/-- On a platform that keeps R163 no pulse is stretched, and the block never powers the chip down
(R163, R164; 60_exceptions.md R154). -/
def platformLegal (s : State) : Bool :=
  s.cfg.platformStretches || (s.stretch == 0 && s.chip.source != .poweredDown)

/-- Between two READs a chip in sync holds a conversion made under NEXT_GAIN (R39, R91). -/
def modeLegal (s : State) : Bool :=
  busy s || !s.chip.sync || (s.chip.convMode == s.chip.nextGain)

/-- A command in flight has no response (30_encoding.md R70, R88). -/
def answerLegal (s : State) : Bool := !busy s || s.chan.response.isNone

/-- The foreground is inside a critical section. -/
def awaiting (p : FgPoint) : Bool :=
  match p with
  | .idle => false
  | .scale _ => false
  | .poll => false
  | .tarePoll _ _ _ => false
  | .tareSample _ _ _ => false
  | .tareStore _ _ => false
  | .tareRestore => false
  | .awaitReady => true
  | .awaitAssert => true
  | .awaitPoll => true
  | .awaitReadRdy _ => true
  | .awaitReadSample _ => true
  | .awaitTareQuery _ => true
  | .awaitTareUnlisten _ => true
  | .awaitTarePoll _ _ _ => true
  | .awaitTareSample _ _ _ => true
  | .awaitTareRestore => true
  | .awaitUnit => true
  | .awaitGain => true
  | .awaitRaw => true

/-- IN_CS says that the foreground is in a critical section, IN_HANDLER that the handler runs, and the
two never hold together (R44, R142, R147). -/
def contextsLegal (s : State) : Bool :=
  (s.host.inCs == awaiting s.host.fg) &&
  (s.host.inHandler == (s.host.hd != .idle)) &&
  !(s.host.inCs && s.host.inHandler)

/-- The invariant of the block and the chip. -/
def blockInv (s : State) : Bool :=
  gainLegal s && stepLegal s && clkLegal s && resultLegal s && faultLegal s &&
  edgeLegal s && pulsesLegal s && powerLegal s && platformLegal s && modeLegal s && answerLegal s

/-- The invariant of the whole machine. -/
def inv (s : State) : Bool := blockInv s && contextsLegal s

/-- `tare` holds LISTEN suspended at this point (45_host_facade.md R117, R131). -/
def tareSampling (p : FgPoint) : Bool :=
  match p with
  | .tarePoll _ _ _ => true
  | .tareSample _ _ _ => true
  | .tareStore _ _ => true
  | .tareRestore => true
  | .awaitTarePoll _ _ _ => true
  | .awaitTareSample _ _ _ => true
  | .idle => false
  | .scale _ => false
  | .poll => false
  | .awaitReady => false
  | .awaitAssert => false
  | .awaitPoll => false
  | .awaitReadRdy _ => false
  | .awaitReadSample _ => false
  | .awaitTareQuery _ => false
  | .awaitTareUnlisten _ => false
  | .awaitTareRestore => false
  | .awaitUnit => false
  | .awaitGain => false
  | .awaitRaw => false

/-- No command that sets LISTEN is on its way to the block: the word on CMD, if there is one, is RDY or
READ, and no handler runs. -/
def quietChannel (s : State) : Bool :=
  !s.host.inHandler &&
  (s.chan.cmd.isNone || s.chan.cmd == some (encode .rdy) || s.chan.cmd == some (encode .read))

/-- What holds while `tare` has suspended, or is about to suspend, the subscription (R117, R169). -/
def tareLegal (s : State) : Bool :=
  match s.host.fg with
  | .awaitTareQuery _ =>
    s.cfg.hasEdgeNotify && !busy s &&
    ((s.chan.cmd == some (encode .islistening) && s.chan.response.isNone) ||
     (s.chan.cmd.isNone && s.chan.response.all (fun r => r.value == zextBit s.block.listen)))
  | .awaitTareUnlisten _ =>
    s.cfg.hasEdgeNotify && !busy s &&
    ((s.chan.cmd == some (encode .unlisten) && s.chan.response.isNone) ||
     (s.chan.cmd.isNone && !s.block.listen))
  | p => if tareSampling p then !s.block.listen && quietChannel s else true

/-- The invariant under which a `tare` samples with LISTEN = 0. -/
def tareInv (s : State) : Bool := inv s && tareLegal s

/-- Nothing but the block and the host moves, no pin fails, no pulse is stretched, and the
configuration is legal (70_reset_and_hazards.md R164). -/
def undisturbed (s : State) : Bool :=
  s.cfg.legal && s.sched.isEmpty && s.pins.isEmpty && (s.stretch == 0)

/-- The command word `w` is on CMD of a block that can accept it (20_memory.md R53). -/
def presents (s : State) (w : Byte) : Bool :=
  canAccept s && (s.chan.cmd == some w)

/-- The chip has a conversion ready and agrees with the block (R37 (a), (b)). -/
def chipReadyInSync (s : State) : Bool := !s.chip.din && s.chip.sync

/-- The next step is one of the block or the host, not an event of the environment. -/
def agentsTurn (s : State) : Bool :=
  s.cfg.legal &&
  match s.sched with
  | [] => true
  | .run :: _ => true
  | .foreground :: _ => true
  | .drive _ :: _ => false
  | .ready _ :: _ => false
  | .stretch _ :: _ => false
  | .rst :: _ => false

/-- The next step is an event of the environment, this one. -/
def eventTurn (e : Event) (s : State) : Bool := s.cfg.legal && (s.sched.head? == some e)

/-- The state with its first scheduled event taken. -/
def takeEvent (s : State) : State := { s with sched := s.sched.tail }

/-- The next step is that the block accepts this command. -/
def accepts (s : State) (i : Instr) : Bool :=
  agentsTurn s && presents s (encode i) && i.legal s.cfg.hasEdgeNotify

/-- The next step is a micro-step of a READ in progress (R84). -/
def microTurn (s : State) : Bool := agentsTurn s && !s.block.fault && busy s

/-- The next step is one of the host: the block is idle and no word is presented. -/
def hostTurn (s : State) : Bool := agentsTurn s && canAccept s && s.chan.cmd.isNone

/-- The next step is one of the foreground context: no handler runs, and no dispatch is enabled or the
schedule lets the foreground go before it (R142, assumption log 26). -/
def foregroundTurn (s : State) : Bool :=
  hostTurn s && !s.host.inHandler && (!dispatchEnabled s || (s.sched.head? == some .foreground))

/-- None of the next `n` pin primitives fails. -/
def pinsHold (n : Nat) (s : State) : Bool := (s.pins.take n).all (fun b => !b)

/-- Of the pin primitives to come, number `k` is the first that fails, counted from 0. -/
def failsAt (k : Nat) (s : State) : Bool := pinsHold k s && (s.pins[k]?).getD false

/-- The next step is a micro-step that tries three pin primitives, in a data pulse (R85). -/
def dataTurn (s : State) : Bool :=
  microTurn s && (s.block.phase == .reading) && decide (s.block.cnt.toNat < dataPulses)

/-- The next step is a micro-step that tries two pin primitives, in a control pulse (R86). -/
def ctrlTurn (s : State) : Bool :=
  microTurn s && (s.block.phase == .gainPulsing) &&
  decide (s.block.cnt.toNat < pulseCount s.block.gain)

/-- The next step tries a pin primitive that fails: in a data pulse, a control pulse or RDY (R136). -/
def pinFailureTurn (s : State) : Bool :=
  (dataTurn s && !pinsHold 3 s) || (ctrlTurn s && !pinsHold 2 s) ||
  (accepts s .rdy && !pinsHold 1 s)

/-- The call the foreground's next statement makes, if it makes one (R46). -/
def nextCall (s : State) : Option HostCall :=
  match s.cfg.program[s.host.pc]? with
  | some (.call c) => some c
  | some (.jump _) => none
  | some (.branch _ _) => none
  | none => none

/-- The rational value of a finite binary32 (45_host_facade.md R112). -/
def f32Value (x : Word32) : ℚ :=
  (if f32Sign x then -1 else 1) * (f32Significand x : ℚ) * (2 : ℚ) ^ f32Unit x

/-- A finite binary32. -/
def f32Finite (x : Word32) : Bool := decide (f32Exponent x < 255)

/-- The steps a READ takes from the presented word to its response: the acceptance, 24 data pulses,
`N` control pulses, and the completion (R84). -/
def readSteps (gain : BitVec 2) : Nat := dataPulses + pulseCount gain + 2

/-- The run has ended: the host program has reached its last statement with the block IDLE
(70_reset_and_hazards.md R162).  DESIGN CHOICE (assumption log 30): R162 says nothing of the handler;
a run has not ended while one runs, and it has ended although IRQ may be 1 and a dispatch enabled. -/
def ended (s : State) : Bool :=
  decide (s.cfg.program.length ≤ s.host.pc) && (s.host.fg == .idle) && (s.host.hd == .idle) &&
  !s.host.inHandler && !busy s && s.chan.cmd.isNone && !s.block.fault

end Sys2Proof.Safety
end

