-- ==== Sys2Proof/Certificates/Slice0/Obligations.lean ====
section
/-! DEFINITION. The statements made about the machine, from the numbered rules of the spec. -/

open Sys2Proof Sys2Proof.Machine Sys2Proof.Safety

/-! ### Encoding -/

/-- R65, R66, R67, R75: every command legal in a block is what the decoder reads from its word. -/
def Obligations.DecodeInvertsEncode : Prop :=
  ∀ (h : Bool) (i : Instr), i.legal h = true → decode h (encode i) = .ok i

/-- R68, R73, R76: a word decodes to a command exactly when it is the word of a legal command. -/
def Obligations.DecodeAcceptsExactlyTheLegalWords : Prop :=
  ∀ (h : Bool) (w : Byte) (i : Instr),
    decode h w = .ok i ↔ (w = encode i ∧ i.legal h = true)

/-- R66, with words written out from its table: each decodes to its command, and 10 words are
legal with the edge-notify unit, 6 without. -/
def Obligations.OpcodeMapWords : Prop :=
  decode true 0b00010000#8 = .ok .rdy ∧
  decode true 0b00100000#8 = .ok .read ∧
  decode true 0b00110000#8 = .ok (.setgain 0#2) ∧
  decode true 0b00110001#8 = .ok (.setgain 1#2) ∧
  decode true 0b00110010#8 = .ok (.setgain 2#2) ∧
  decode true 0b01000000#8 = .ok .getgain ∧
  decode true 0b01010000#8 = .ok .listen ∧
  decode true 0b01100000#8 = .ok .unlisten ∧
  decode true 0b01110000#8 = .ok .clrint ∧
  decode true 0b10000000#8 = .ok .islistening ∧
  (List.range 256).countP (fun n => (decode true (BitVec.ofNat 8 n)).isOk) = 10 ∧
  (List.range 256).countP (fun n => (decode false (BitVec.ofNat 8 n)).isOk) = 6

/-- R77, R79: every word, legal or not, prints as a line that assembles to that one word again.
The letters of a hexadecimal word are the model's choice (assumption log 35). -/
def Obligations.DisassemblyReassembles : Prop :=
  ∀ (h : Bool) (w : Byte), assembleLine (disassemble h w) = some [.cmd w]

/-! ### Acceptance, faults, configuration -/

/-- R53, R68: when an idle block without fault has a legal word before it and it is its turn, the
step accepts the word and is the command's meaning; nothing else happens around it. -/
def Obligations.StepRunsTheAcceptedCommand : Prop :=
  ∀ (s : State) (w : Byte) (i : Instr),
    agentsTurn s = true → presents s w = true → decode s.cfg.hasEdgeNotify w = .ok i →
    step s = exec i (acceptCommand (takeEvent s))

/-- R73: every illegal word is answered `(ILLEGAL_COMMAND, 0)` and nothing else happens: no
register changes, CLK does not move, no pin is tried, and FAULT is not set. -/
def Obligations.IllegalWordHasNoEffect : Prop :=
  ∀ (s : State) (w : Byte) (x : IllegalWord),
    agentsTurn s = true → presents s w = true → decode s.cfg.hasEdgeNotify w = .error x →
    step s = .next
      { takeEvent s with
        chan := { cmd := none, response := some { status := 0x01#8, value := 0#32 } } }

/-- R53: a presented word is held until PHASE is IDLE and FAULT is 0, and is then accepted; and
no step but a reset ends a READ other than its own completion. -/
def Obligations.CommandsAreSerial : Prop :=
  (∀ (s t : State) (w : Byte),
    step s = .next t → s.chan.cmd = some w → canAccept s = false → eventTurn .rst s = false →
    t.chan.cmd = some w) ∧
  (∀ (s : State) (w : Byte),
    agentsTurn s = true → presents s w = true → ∃ t, step s = .next t ∧ t.chan.cmd = none) ∧
  (∀ (s t : State),
    step s = .next t → busy s = true → busy t = false →
    eventTurn .rst s = true ∨
    (microTurn s = true ∧ s.block.phase = .gainPulsing ∧
      s.block.cnt.toNat = pulseCount s.block.gain))

/-- R28, R136: a step sets FAULT exactly when it tries a pin primitive that fails, in a data
pulse, a control pulse or RDY. While FAULT is 1 the block has no step; only reset clears it, and
it is 0 after reset. That the failing step is a next state, and that the host stops with the
block, is the model's reading of R133 and R136 (assumption logs 14 and 18). -/
def Obligations.FaultIsSticky : Prop :=
  (∀ s t : State,
    step s = .next t → s.block.fault = false → t.block.fault = true → pinFailureTurn s = true) ∧
  (∀ s : State,
    pinFailureTurn s = true → ∃ t, step s = .next t ∧ t.block.fault = true) ∧
  (∀ s : State, s.block.fault = true → agentsTurn s = true → step s = .fault .stuck) ∧
  (∀ (s t : State),
    step s = .next t → s.block.fault = true → t.block.fault = false → eventTurn .rst s = true) ∧
  State.reset.block.fault = false

/-- R164: a configuration that does not satisfy `T_BIT_US < T_PD_US` is refused; with the
defaults 1 < 60 holds. R163: a platform that stretches a clock pulse is refused too. That the
first refusal comes at every step, and that a configuration can admit the second to show the
chip's law, is the model's choice (assumption logs 34 and 10). -/
def Obligations.OutsideTheSpecIsRefused : Prop :=
  (∀ s : State, s.cfg.tPdUs ≤ s.cfg.tBitUs → step s = .refused .badConfiguration) ∧
  (∀ (s : State) (us : Nat), eventTurn (.stretch us) s = true → s.cfg.platformStretches = false →
    step s = .refused .outsideSpec) ∧
  State.reset.cfg.tBitUs = 1 ∧ State.reset.cfg.tPdUs = 60 ∧ State.reset.cfg.legal = true ∧
  State.reset.cfg.platformStretches = false

/-- R46: no step writes the configuration, of which the host program text is a part; jumps and
branches of the program move the foreground's place in it and nothing else, and after its last
statement the foreground does nothing. That the parameters stand in the state, and the statements
a program is made of, are the model's choice (assumption logs 5, 30 and 33). -/
def Obligations.ConfigurationIsNeverWritten : Prop :=
  (∀ s t : State, step s = .next t → t.cfg = s.cfg) ∧
  (∀ (s : State) (n : Nat),
    foregroundTurn s = true → s.host.fg = .idle →
    s.cfg.program[s.host.pc]? = some (.jump n) →
    step s = .next { takeEvent s with host.pc := n }) ∧
  (∀ (s : State) (x : HostTest) (n : Nat),
    foregroundTurn s = true → s.host.fg = .idle →
    s.cfg.program[s.host.pc]? = some (.branch x n) →
    step s = .next
      { takeEvent s with
        host.pc := if testHolds x s.host.result then n else s.host.pc + 1 }) ∧
  (∀ s : State,
    foregroundTurn s = true → s.host.fg = .idle → s.cfg.program.length ≤ s.host.pc →
    step s = .next (takeEvent s))

/-- R27, R99: while the block is idle and no command is presented, no step but a reset changes
anything of it but what the edge detector writes, and that only when DIN changes; a step that is
not the host's changes neither the channel nor the host. A host step is the model's (assumption
log 23). -/
def Obligations.IdleBlockKeepsItsState : Prop :=
  ∀ s t : State, step s = .next t → busy s = false → s.chan.cmd = none →
    eventTurn .rst s = false →
    t.block = { s.block with pending := t.block.pending, dinPrev := t.block.dinPrev } ∧
    (t.chip.din = s.chip.din → t.block = s.block) ∧
    (hostTurn s = false → t.chan = s.chan ∧ t.host = s.host)

/-! ### The commands -/

/-- R80, R136: the word 0x10 is RDY, with or without the edge-notify unit. RDY answers 1 when DIN
reads low and 0 when it reads high; it writes no register, and CLK does not move. When the pin
read fails, PinFault is raised; that this is a next state with FAULT and the record is the
model's reading of R136 (assumption log 14). -/
def Obligations.RdyReportsReadiness : Prop :=
  (∀ h : Bool, decode h 0x10#8 = .ok .rdy) ∧
  (∀ s : State, pinsHold 1 s = true →
    exec .rdy s = .next
      { s with
        pins := s.pins.tail
        chan.response :=
          some { status := 0x00#8, value := if s.chip.din then 0#32 else 1#32 } }) ∧
  (∀ s : State, pinsHold 1 s = false →
    exec .rdy s = .next
      { s with
        pins := s.pins.tail
        block.fault := true
        block.faultInfo := some { pin := .din, phase := s.block.phase, cnt := s.block.cnt } })

/-- R81, R83, R37: READ's acceptance clears SHIFT and CNT and enters READING whatever DIN is; the
chip counts pulses from 0, and the read is valid when DIN is 0 and SYNC is 1. That validity is
fixed at acceptance is the model's reading (assumption log 8). -/
def Obligations.ReadIsAccepted : Prop :=
  ∀ s : State,
    exec .read s = .next
      { s with
        block.shift := 0#24
        block.cnt := 0#5
        block.phase := .reading
        chip.pulses := 0
        chip.source :=
          if s.chip.din = false ∧ s.chip.sync = true then .word s.chip.conv else .draws }

/-- R89: the word `0x30 | g` is SETGAIN g, which writes GAIN and answers `(OK, 0)`; no pin moves. -/
def Obligations.SetgainWritesGain : Prop :=
  ∀ (g : BitVec 2) (s : State), (g = 0#2 ∨ g = 1#2 ∨ g = 2#2) →
    (∀ h : Bool, decode h (0x30#8 ||| g.setWidth 8) = .ok (.setgain g)) ∧
    exec (.setgain g) s = .next
      { s with
        block.gain := g
        chan.response := some { status := 0x00#8, value := 0#32 } }

/-- R73, R74: the word 0x33 is illegal, and GAIN keeps its value. That the meaning of a SETGAIN
with code 3, which no word decodes to, answers the same is the model's reading (assumption log
20). -/
def Obligations.ReservedGainIsIllegal : Prop :=
  (∀ h : Bool, decode h 0x33#8 = .error .reservedGain) ∧
  (∀ s : State, agentsTurn s = true → presents s 0x33#8 = true →
    step s = .next
      { takeEvent s with
        chan := { cmd := none, response := some { status := 0x01#8, value := 0#32 } } }) ∧
  (∀ s : State,
    exec (.setgain 3#2) s = .next
      { s with chan.response := some { status := 0x01#8, value := 0#32 } })

/-- R90: the word 0x40 is GETGAIN, which answers GAIN, zero-extended, and writes nothing. -/
def Obligations.GetgainReturnsGain : Prop :=
  (∀ h : Bool, decode h 0x40#8 = .ok .getgain) ∧
  (∀ s : State,
    exec .getgain s = .next
      { s with
        chan.response := some { status := 0x00#8, value := 0#30 ++ s.block.gain } })

/-- R102: the word 0x50 is LISTEN where the unit is present, and illegal where it is not. LISTEN
sets LISTEN and answers `(OK, 0)`; PENDING is not changed, so IRQ is PENDING. -/
def Obligations.ListenSubscribes : Prop :=
  decode true 0x50#8 = .ok .listen ∧
  decode false 0x50#8 = .error (.edgeNotifyAbsent 0x50#8) ∧
  (∀ s : State, s.cfg.hasEdgeNotify = true →
    ∃ t, exec .listen s = .next t ∧
      t = { s with
            block.listen := true
            chan.response := some { status := 0x00#8, value := 0#32 } } ∧
      irq t = s.block.pending)

/-- R103: the word 0x60 is UNLISTEN where the unit is present, and illegal where it is not.
UNLISTEN clears LISTEN and answers `(OK, 0)`; PENDING is not changed, and IRQ is 0. -/
def Obligations.UnlistenEndsTheSubscription : Prop :=
  decode true 0x60#8 = .ok .unlisten ∧
  decode false 0x60#8 = .error (.edgeNotifyAbsent 0x60#8) ∧
  (∀ s : State, s.cfg.hasEdgeNotify = true →
    ∃ t, exec .unlisten s = .next t ∧
      t = { s with
            block.listen := false
            chan.response := some { status := 0x00#8, value := 0#32 } } ∧
      irq t = false)

/-- R104: the word 0x70 is CLRINT where the unit is present, and illegal where it is not. CLRINT
clears PENDING and answers `(OK, 0)`, with no pin tried; IRQ is 0. -/
def Obligations.ClrintClearsPending : Prop :=
  decode true 0x70#8 = .ok .clrint ∧
  decode false 0x70#8 = .error (.edgeNotifyAbsent 0x70#8) ∧
  (∀ s : State, s.cfg.hasEdgeNotify = true →
    ∃ t, exec .clrint s = .next t ∧
      t = { s with
            block.pending := false
            chan.response := some { status := 0x00#8, value := 0#32 } } ∧
      irq t = false)

/-- R105: the word 0x80 is ISLISTENING where the unit is present, and illegal where it is not.
ISLISTENING answers LISTEN, and writes nothing. -/
def Obligations.IslisteningReportsListen : Prop :=
  decode true 0x80#8 = .ok .islistening ∧
  decode false 0x80#8 = .error (.edgeNotifyAbsent 0x80#8) ∧
  (∀ s : State, s.cfg.hasEdgeNotify = true →
    exec .islistening s = .next
      { s with
        chan.response :=
          some { status := 0x00#8, value := if s.block.listen then 1#32 else 0#32 } })

/-- R75: without the unit the four edge-notify words are illegal, and there is no IRQ. The
registers of the absent unit are the model's reading (assumption log 36). -/
def Obligations.EdgeCommandsNeedTheUnit : Prop :=
  (∀ w : Byte, (w = 0x50#8 ∨ w = 0x60#8 ∨ w = 0x70#8 ∨ w = 0x80#8) →
    decode false w = .error (.edgeNotifyAbsent w)) ∧
  (∀ (s : State) (w : Byte), s.cfg.hasEdgeNotify = false →
    (w = 0x50#8 ∨ w = 0x60#8 ∨ w = 0x70#8 ∨ w = 0x80#8) →
    agentsTurn s = true → presents s w = true →
    step s = .next
      { takeEvent s with
        chan := { cmd := none, response := some { status := 0x01#8, value := 0#32 } } }) ∧
  (∀ s : State, s.cfg.hasEdgeNotify = false → irq s = false)

/-! ### READ's micro-steps -/

/-- R84, R85, R94: one data pulse. CLK ends low, the sampled level of DIN enters SHIFT at bit 0,
STEP goes on as the step table says, and nothing else of the block, the channel or the host
changes but what the edge detector does with the change of DIN. -/
def Obligations.DataPulseShiftsOneBit : Prop :=
  ∀ s : State, microTurn s = true → s.block.phase = .reading → s.block.cnt.toNat < 24 →
    pinsHold 3 s = true →
    ∃ t, step s = .next t ∧
      t.block =
        { s.block with
          clk := false
          shift := s.block.shift.extractLsb' 0 23 ++ BitVec.ofBool t.chip.din
          phase := if s.block.cnt.toNat < 23 then .reading else .gainPulsing
          cnt := if s.block.cnt.toNat < 23 then s.block.cnt + 1#5 else 0#5
          pending := t.block.pending
          dinPrev := t.block.dinPrev } ∧
      t.chan = s.chan ∧ t.host = s.host ∧ t.cfg = s.cfg ∧
      t.sched = s.sched.tail ∧ t.pins = s.pins.drop 3 ∧
      t.chip.pulses = s.chip.pulses + 1

/-- R37, R83, R40, R106: in a valid read whose pulse is not stretched past T_PD_US, data pulse `i
= CNT` samples bit `23 − i` of the conversion, which the chip drives onto DIN; in a READ that is
not valid the pulse samples a draw, the one made in that step (a free value: the clause holds
whatever it is). Nothing else of the chip changes but SYNC, which a falling edge brings back. The
moment at which the chip moves DIN, the word fixed at acceptance, and a SYNC that comes back at a
data bit, are the model's reading (assumption logs 8, 9 and 32). -/
def Obligations.DataPulseSamplesTheChip : Prop :=
  (∀ (s : State) (w : Raw24),
    microTurn s = true → s.block.phase = .reading → s.block.cnt.toNat < 24 →
    pinsHold 3 s = true → s.chip.source = .word w → highTime s ≤ s.cfg.tPdUs →
    ∃ t, step s = .next t ∧
      t.chip =
        { s.chip with
          din := w.getLsbD (23 - s.block.cnt.toNat)
          sync := s.chip.sync || (s.chip.din && !w.getLsbD (23 - s.block.cnt.toNat))
          pulses := s.chip.pulses + 1 } ∧
      t.block.shift.getLsbD 0 = w.getLsbD (23 - s.block.cnt.toNat)) ∧
  (∀ s : State,
    dataTurn s = true → pinsHold 3 s = true → s.chip.source = .draws →
    highTime s ≤ s.cfg.tPdUs →
    ∃ t, step s = .next t ∧
      t.chip =
        { s.chip with
          din := Config.drawBit s.draws
          sync := s.chip.sync || (s.chip.din && !Config.drawBit s.draws)
          pulses := s.chip.pulses + 1 } ∧
      t.block.shift.getLsbD 0 = Config.drawBit s.draws ∧ s.draws < t.draws)

/-- R38, R40, R154: when the high time of a pulse exceeds T_PD_US, of a data pulse or of a
control pulse, the chip powers down: DIN is 1, SYNC is 0, and NEXT_GAIN and CONV are draws (free
values: the clauses hold whatever they are). The sample of that data pulse and, by the third
clause, every later one of the READ is 1. How a pulse comes to be stretched is the model's choice
(assumption logs 10 and 11). -/
def Obligations.PowerDownForcesOnes : Prop :=
  (∀ s : State, dataTurn s = true → pinsHold 3 s = true → s.cfg.tPdUs < highTime s →
    ∃ t, step s = .next t ∧
      t.chip.source = .poweredDown ∧ t.block.shift.getLsbD 0 = true ∧
      t.chip.din = true ∧ t.chip.sync = false ∧
      t.chip.nextGain = Config.drawGain s.draws ∧ t.chip.conv = Config.drawConv s.draws) ∧
  (∀ s : State, ctrlTurn s = true → pinsHold 2 s = true → s.cfg.tPdUs < highTime s →
    ∃ t, step s = .next t ∧
      t.chip.source = .poweredDown ∧ t.block.shift = s.block.shift ∧
      t.block.clk = false ∧ t.block.cnt = s.block.cnt + 1#5 ∧
      t.chip.din = true ∧ t.chip.sync = false ∧
      t.chip.nextGain = Config.drawGain s.draws ∧ t.chip.conv = Config.drawConv s.draws) ∧
  (∀ s : State, dataTurn s = true → pinsHold 3 s = true → s.chip.source = .poweredDown →
    ∃ t, step s = .next t ∧
      t.chip.source = .poweredDown ∧ t.block.shift.getLsbD 0 = true)

/-- R84, R86: one control pulse while pulses are owed. CLK ends low, DIN is neither sampled nor
moved by it, SHIFT keeps its value, and STEP counts the pulse. -/
def Obligations.ControlPulseDropsTheSample : Prop :=
  ∀ s : State, microTurn s = true → s.block.phase = .gainPulsing →
    s.block.cnt.toNat < pulseCount s.block.gain → pinsHold 2 s = true →
    highTime s ≤ s.cfg.tPdUs →
    step s = .next
      { s with
        block.clk := false
        block.cnt := s.block.cnt + 1#5
        chip.pulses := s.chip.pulses + 1
        sched := s.sched.tail
        pins := s.pins.drop 2
        stretch := 0 }

/-- R39, R54, R88: at `(GAINPULSING, GAIN + 1)` the READ completes: RESULT is the widened SHIFT,
STEP is `(IDLE, 0)`, and the response is `(OK, RESULT)`; nothing else changes but the chip's
NEXT_GAIN and its conversion with the mode it was made under. Where the chip has seen the pulses
the block counted, whatever happened between them, NEXT_GAIN is the mode of GAIN, but after a
power-down in this READ, when it keeps its value; the conversion is a draw made in this step (a
free value), under NEXT_GAIN. That these change in this step and DIN does not, and the record of
the mode, are the model's reading (assumption logs 12, 13 and 39). -/
def Obligations.ReadCompletes : Prop :=
  ∀ s : State, microTurn s = true → s.block.phase = .gainPulsing →
    s.block.cnt.toNat = pulseCount s.block.gain →
    ∃ t, step s = .next t ∧
      t.block =
        { s.block with
          result := BitVec.ofInt 32 (widen s.block.shift), phase := .idle, cnt := 0#5 } ∧
      t.chan.cmd = s.chan.cmd ∧
      t.chan.response =
        some { status := 0x00#8, value := BitVec.ofInt 32 (widen s.block.shift) } ∧
      t.chip =
        { s.chip with
          nextGain := t.chip.nextGain, conv := t.chip.conv, convMode := t.chip.nextGain } ∧
      (∃ n, s.draws ≤ n ∧ n < t.draws ∧ t.chip.conv = Config.drawConv n) ∧
      (s.chip.source ≠ .poweredDown → pulsesLegal s = true → gainLegal s = true →
        some t.chip.nextGain = gainOfCode s.block.gain) ∧
      (s.chip.source = .poweredDown → t.chip.nextGain = s.chip.nextGain) ∧
      t.host = s.host ∧ t.cfg = s.cfg ∧ t.pins = s.pins ∧ t.sched = s.sched.tail

/-- R136: PinFault. When the first pin primitive to fail in a step is number `k` of those it
tries (CLK, DIN, CLK in a data pulse; CLK, CLK in a control pulse; DIN in RDY), the step sets
FAULT, records that pin and the STEP, and gives no response; and every step that sets FAULT gives
none. STEP, SHIFT and the other registers keep their values but for three. CLK is a draw made in
the step where a write of it failed (a free value), and 1 where the sample of DIN failed, since
the pulse is then in its high phase. PENDING and DIN_PREV change only with DIN, by the edge
detector, and not at all where the first primitive failed, since the chip has then not moved DIN.
That the failing step is a next state, and the moment at which the chip moves DIN, are the
model's reading (assumption logs 9 and 14). -/
def Obligations.PinFaultStopsTheBlock : Prop :=
  (∀ (s : State) (k : Nat), dataTurn s = true → k < 3 → failsAt k s = true →
    ∃ t, step s = .next t ∧
      t.block =
        { s.block with
          clk := t.block.clk
          pending := t.block.pending
          dinPrev := t.block.dinPrev
          fault := true
          faultInfo :=
            some { pin := if k = 1 then .din else .clk, phase := s.block.phase, cnt := s.block.cnt } } ∧
      (k = 1 → t.block.clk = true) ∧
      (k ≠ 1 → ∃ n, s.draws ≤ n ∧ n < t.draws ∧ t.block.clk = Config.drawBit n) ∧
      (k = 0 → t.chip = s.chip) ∧
      (t.chip.din = s.chip.din →
        t.block.pending = s.block.pending ∧ t.block.dinPrev = s.block.dinPrev) ∧
      t.chan = s.chan ∧ t.host = s.host) ∧
  (∀ (s : State) (k : Nat), ctrlTurn s = true → k < 2 → failsAt k s = true →
    ∃ t, step s = .next t ∧
      t.block =
        { s.block with
          clk := t.block.clk
          dinPrev := t.block.dinPrev
          fault := true
          faultInfo := some { pin := .clk, phase := s.block.phase, cnt := s.block.cnt } } ∧
      (∃ n, s.draws ≤ n ∧ n < t.draws ∧ t.block.clk = Config.drawBit n) ∧
      (k = 0 → t.chip = s.chip) ∧
      (t.chip.din = s.chip.din → t.block.dinPrev = s.block.dinPrev) ∧
      t.chan = s.chan ∧ t.host = s.host) ∧
  (∀ s : State, accepts s .rdy = true → failsAt 0 s = true →
    ∃ t, step s = .next t ∧
      t.block =
        { s.block with
          fault := true
          faultInfo := some { pin := .din, phase := s.block.phase, cnt := s.block.cnt } } ∧
      t.chan = { cmd := none, response := none } ∧ t.chip = s.chip ∧ t.host = s.host) ∧
  (∀ s t : State, step s = .next t → s.block.fault = false → t.block.fault = true →
    answerLegal s = true → t.chan.response = none)

/-- R82, R84: the micro-steps of a READ are READ written out as one sequence. If the sequence
ends well, the steps lead to its end; if a pin primitive fails in it, the steps lead to the state
that leaves. The acceptance as the first step is the model's reading (assumption log 1). -/
def Obligations.MicroStepsRefineTheWholeRead : Prop :=
  ∀ s : State, s.cfg.legal = true → s.sched = [] → presents s 0x20#8 = true →
    (∀ t, readSequence (acceptCommand s) = .ok t →
      Host.Core.run Sys2Proof.core (readSteps s.block.gain) s = .next t) ∧
    (∀ e, readSequence (acceptCommand s) = .error e →
      ∃ k, k < readSteps s.block.gain ∧ Host.Core.run Sys2Proof.core k s = .next e)

/-- R37, R39, R64, R84, R88, R91: a valid READ, undisturbed, returns the widened conversion word,
and leaves the chip with the mode whose pulse count the frame carried, for its next conversion
too. It rests on the model's reading of the chip (assumption logs 8, 9, 12 and 39). -/
def Obligations.ValidReadReturnsTheConversion : Prop :=
  ∀ s : State, undisturbed s = true → presents s 0x20#8 = true →
    chipReadyInSync s = true → gainLegal s = true →
    ∃ t, Host.Core.run Sys2Proof.core (readSteps s.block.gain) s = .next t ∧
      t.chan =
        { cmd := none
          response :=
            some { status := 0x00#8, value := BitVec.ofInt 32 (widen s.chip.conv) } } ∧
      t.block =
        { s.block with
          clk := false
          shift := s.chip.conv
          result := BitVec.ofInt 32 (widen s.chip.conv)
          phase := .idle
          cnt := 0#5
          pending := t.block.pending
          dinPrev := t.block.dinPrev } ∧
      some t.chip.nextGain = gainOfCode s.block.gain ∧
      t.chip.pulses = 24 + pulseCount s.block.gain ∧
      t.chip.convMode = t.chip.nextGain ∧ t.host = s.host

/-- R83, R92: whatever DIN and the chip are at acceptance, an accepted READ whose pins hold, with
no event between its pulses, runs its whole frame, 24 data pulses and exactly `GAIN + 1` control
pulses, and answers OK with the widening of what it shifted in. The pulses are counted by the
chip of the model (assumption log 12). -/
def Obligations.EveryReadRunsItsWholeFrame : Prop :=
  ∀ s : State, s.cfg.legal = true → s.sched = [] → s.pins = [] → presents s 0x20#8 = true →
    ∃ t, Host.Core.run Sys2Proof.core (readSteps s.block.gain) s = .next t ∧
      t.block.phase = .idle ∧ t.block.fault = false ∧
      t.chip.pulses = 24 + (s.block.gain.toNat + 1) ∧
      t.chan.response =
        some { status := 0x00#8, value := BitVec.ofInt 32 (widen t.block.shift) } ∧
      t.block.gain = s.block.gain

/-! ### Arithmetic -/

/-- R93: the laws of widening, for every 24-bit raw word. -/
def Obligations.WideningLaws : Prop :=
  (∀ raw : Raw24,
    -8388608 ≤ widen raw ∧ widen raw ≤ 8388607 ∧
    (widen raw < 0 ↔ raw.getLsbD 23 = true) ∧
    widen raw = (raw.toNat : Int) - (if raw.getLsbD 23 then 16777216 else 0) ∧
    widen raw = (sext24 raw).toInt ∧
    widen raw % 16777216 = (raw.toNat : Int)) ∧
  (∀ a b : Raw24, widen a = widen b → a = b)

/-- R72: bits 31 to 24 of a READ's VALUE equal bit 23, so that the pattern lies in [0xFF800000,
0xFFFFFFFF] or in [0x00000000, 0x007FFFFF]. -/
def Obligations.ReadValueIsSignExtended : Prop :=
  ∀ raw : Raw24,
    (∀ i, 24 ≤ i → i < 32 →
      (BitVec.ofInt 32 (widen raw)).getLsbD i = (BitVec.ofInt 32 (widen raw)).getLsbD 23) ∧
    (0xFF800000 ≤ (BitVec.ofInt 32 (widen raw)).toNat ∨
      (BitVec.ofInt 32 (widen raw)).toNat ≤ 0x007FFFFF) ∧
    -8388608 ≤ (BitVec.ofInt 32 (widen raw)).toInt ∧
    (BitVec.ofInt 32 (widen raw)).toInt ≤ 8388607

/-- R94: shifting a bit in is `(2·SHIFT + b) mod 2^24`, and 24 bits shifted into 0 assemble `Σ
b_i·2^(23−i)` with nothing lost. -/
def Obligations.ShiftAssemblesTheFrame : Prop :=
  (∀ (raw : Raw24) (b : Bool),
    (shiftIn raw b).toNat = (2 * raw.toNat + b.toNat) % 16777216) ∧
  (∀ b : Fin 24 → Bool,
    ((List.ofFn b).foldl shiftIn 0#24).toNat =
      ∑ i : Fin 24, (b i).toNat * 2 ^ (23 - i.val))

/-- R113: the conversion of an i32 to binary32 is exact for every |r| ≤ 2^24: the value of the
pattern is r. The format's layout is presumed from IEEE 754 (assumption log 22). -/
def Obligations.SmallIntegersConvertExactly : Prop :=
  ∀ r : Word32, r.toInt.natAbs ≤ 2 ^ 24 →
    f32Value (f32OfI32 r) = (r.toInt : ℚ) ∧ f32Finite (f32OfI32 r) = true

/-- R113: a NaN SCALE, or an infinite SCALE times a zero, gives a NaN, and an infinite SCALE
times another reading an infinity of the product's sign, as IEEE 754 multiplication does. The
NaN's pattern is a free value; the statement holds whatever it is. The format's layout is
presumed from IEEE 754 (assumption log 22). -/
def Obligations.SpecialScalesFollowIeee : Prop :=
  ∀ r x : Word32,
    (f32IsNaN x = true → f32IsNaN (f32Mul (f32OfI32 r) x) = true) ∧
    (f32IsInf x = true → r = 0#32 → f32IsNaN (f32Mul (f32OfI32 r) x) = true) ∧
    (f32IsInf x = true → r ≠ 0#32 →
      f32Mul (f32OfI32 r) x =
        if (decide (r.toInt < 0) != f32Sign x) then 0xFF800000#32 else 0x7F800000#32)

/-! ### The edge detector and IRQ -/

/-- R100: a falling edge while listening sets PENDING; if it was 1 it stays 1. It is so at every
step in which DIN falls, be it by an event of the chip or by a data bit of a READ (R106), and an
event that makes DIN fall does so. -/
def Obligations.FallingEdgeSetsPending : Prop :=
  (∀ s t : State, step s = .next t →
    s.cfg.hasEdgeNotify = true → s.block.listen = true → s.block.dinPrev = true →
    s.chip.din = true → t.chip.din = false →
    t.block.pending = true ∧ t.block.dinPrev = false) ∧
  (∀ (s : State) (e : Event), (e = .drive false ∨ ∃ w, e = .ready w) →
    eventTurn e s = true → dinForcedHigh s = false →
    s.cfg.hasEdgeNotify = true → s.block.listen = true →
    s.block.dinPrev = true → s.chip.din = true →
    ∃ t, step s = .next t ∧
      t.block = { s.block with pending := true, dinPrev := false } ∧ t.chip.din = false ∧
      t.chan = s.chan ∧ t.host = s.host)

/-- R101: a falling edge while not listening gives `PENDING ∨ Draw()`, the draw being one made in
that step. It is so at every step in which DIN falls, be it by an event of the chip or by a data
bit of a READ (R106), and an event that makes DIN fall does so. The draw is a free value: the
statement holds whatever it is. -/
def Obligations.UnlistenedEdgeIsADraw : Prop :=
  (∀ s t : State, step s = .next t →
    s.cfg.hasEdgeNotify = true → s.block.listen = false → s.block.dinPrev = true →
    s.chip.din = true → t.chip.din = false →
    t.block.dinPrev = false ∧
    ∃ n, s.draws ≤ n ∧ n < t.draws ∧
      t.block.pending = (s.block.pending || Config.drawBit n)) ∧
  (∀ (s : State) (e : Event), (e = .drive false ∨ ∃ w, e = .ready w) →
    eventTurn e s = true → dinForcedHigh s = false →
    s.cfg.hasEdgeNotify = true → s.block.listen = false →
    s.block.dinPrev = true → s.chip.din = true →
    ∃ t, step s = .next t ∧ t.chip.din = false ∧
      t.block = { s.block with pending := t.block.pending, dinPrev := false })

/-- R99, R75: the edge detector acts only on a change of DIN. An event that leaves DIN at its
level is no change. In every step but a reset, DIN_PREV keeps its value when DIN does, and
PENDING too unless the step is CLRINT; a rising edge only updates DIN_PREV; and without the unit
neither register changes at all, by the model's reading of registers that do not exist
(assumption log 36). -/
def Obligations.OnlyFallingEdgesAreSeen : Prop :=
  (∀ s : State, eventTurn (.drive s.chip.din) s = true → step s = .next (takeEvent s)) ∧
  (∀ s t : State, step s = .next t → eventTurn .rst s = false → t.chip.din = s.chip.din →
    t.block.dinPrev = s.block.dinPrev ∧
    (t.block.pending = s.block.pending ∨ accepts s .clrint = true)) ∧
  (∀ s t : State, step s = .next t → s.cfg.hasEdgeNotify = true →
    s.chip.din = false → t.chip.din = true →
    t.block.dinPrev = true ∧ t.block.pending = s.block.pending) ∧
  (∀ s t : State, step s = .next t → eventTurn .rst s = false → s.cfg.hasEdgeNotify = false →
    t.block.dinPrev = s.block.dinPrev ∧ t.block.pending = s.block.pending) ∧
  (∀ s : State, eventTurn (.drive true) s = true → s.cfg.hasEdgeNotify = true →
    dinForcedHigh s = false → s.chip.din = false →
    ∃ t, step s = .next t ∧ t.block = { s.block with dinPrev := true } ∧ t.chip.din = true)

/-- R107: IRQ rises only at a falling edge of DIN with LISTEN = 1 and PENDING = 0, or at a LISTEN
with PENDING = 1; it falls only at CLRINT, UNLISTEN or reset. -/
def Obligations.IrqLaws : Prop :=
  (∀ s t : State, step s = .next t → irq s = false → irq t = true →
    (s.chip.din = true ∧ t.chip.din = false ∧ s.block.listen = true ∧ s.block.pending = false) ∨
    (accepts s .listen = true ∧ s.block.pending = true)) ∧
  (∀ s t : State, step s = .next t → irq s = true → irq t = false →
    accepts s .clrint = true ∨ accepts s .unlisten = true ∨ eventTurn .rst s = true)

/-- R22, R26, R29, R30: who writes the block's registers. GAIN changes only by SETGAIN, LISTEN
only by LISTEN and UNLISTEN, PENDING is set only at a falling edge of DIN and cleared only by
CLRINT, RESULT changes only when a READ completes; and each of them by reset. -/
def Obligations.RegisterWriters : Prop :=
  ∀ s t : State, step s = .next t → eventTurn .rst s = false →
    (t.block.gain ≠ s.block.gain → accepts s (.setgain t.block.gain) = true) ∧
    (t.block.listen ≠ s.block.listen →
      accepts s (if t.block.listen then .listen else .unlisten) = true) ∧
    (s.block.pending = true → t.block.pending = false → accepts s .clrint = true) ∧
    (s.block.pending = false → t.block.pending = true →
      s.chip.din = true ∧ t.chip.din = false) ∧
    (t.block.result ≠ s.block.result →
      busy s = true ∧ busy t = false ∧
      t.block.result = BitVec.ofInt 32 (widen s.block.shift))

/-! ### Invariants -/

/-- R21, R22, R24, R26, R31, R38, R70, R91, R92, R136, R142, R163: every step keeps the invariant
of the machine. It speaks of the model's own fields too (assumption logs 10, 12, 13, 14, 23, 36
and 39). -/
def Obligations.StepKeepsTheInvariant : Prop :=
  ∀ s t : State, inv s = true → step s = .next t → inv t = true

/-- R157: the reset state meets the invariant. -/
def Obligations.ResetMeetsTheInvariant : Prop :=
  inv State.reset = true

/-- R117, R169: every step keeps the invariant that says `tare` samples with LISTEN = 0, no
handler running, and nothing on its way to the block that would set LISTEN. The points of the
host are the model's choice (assumption log 23). -/
def Obligations.StepKeepsTareSuspended : Prop :=
  ∀ s t : State, tareInv s = true → step s = .next t → tareInv t = true

/-! ### Reset and the chip -/

/-- R157: what every register of the block and the host is after `RST`, and in the reset state.
The DIN level of the reset state, 1, is the model's reading of R35 (assumption log 7), and that
the fault information outlives RST is the model's reading of D15 (assumption log 14). -/
def Obligations.ResetValues : Prop :=
  (∀ s : State, eventTurn .rst s = true →
    ∃ t, step s = .next t ∧
      t.block =
        { clk := false, gain := 0#2, phase := .idle, cnt := 0#5, shift := 0#24,
          result := 0#32, fault := false, listen := false, pending := false,
          dinPrev := s.chip.din, faultInfo := s.block.faultInfo } ∧
      irq t = false ∧
      t.host.offset = 0#32 ∧ t.host.scale = 0x3F800000#32 ∧ t.host.last = none ∧
      t.host.inCs = false ∧ t.host.inHandler = false ∧ t.host.tareSaved = false) ∧
  State.reset.block =
    { clk := false, gain := 0#2, phase := .idle, cnt := 0#5, shift := 0#24,
      result := 0#32, fault := false, listen := false, pending := false,
      dinPrev := State.reset.chip.din, faultInfo := none } ∧
  State.reset.host.offset = 0#32 ∧ State.reset.host.scale = 0x3F800000#32 ∧
  State.reset.host.last = none ∧ State.reset.host.inCs = false ∧
  State.reset.host.inHandler = false ∧ State.reset.host.tareSaved = false

/-- R158, R159: reset while BUSY gives no response, drives CLK low, and leaves SYNC 0 and
NEXT_GAIN a draw (a free value); otherwise reset does not touch the chip. -/
def Obligations.ResetAndTheChip : Prop :=
  ∀ s : State, eventTurn .rst s = true →
    ∃ t, step s = .next t ∧ t.block.clk = false ∧
      (busy s = true → t.chan.response = none ∧
        t.chip = { s.chip with sync := false, nextGain := Config.drawGain s.draws }) ∧
      (busy s = false → t.chip = s.chip)

/-- R38, R40: SYNC becomes 0 only in a step that is a reset while BUSY or in which the chip
powers down, that is, in which CLK is high for longer than T_PD_US: in a pulse whose rising write
holds, or at an event that stretches a pulse left high. In each step in which the chip powers
down it does become 0. It becomes 1 only in a step in which DIN falls, and in every such step;
and it is 1 at power-on. That an edge a data bit makes counts, and the stretched pulse, are the
model's reading (assumption logs 10 and 32). -/
def Obligations.SyncLaws : Prop :=
  (∀ s t : State, step s = .next t → s.chip.sync = true → t.chip.sync = false →
    (eventTurn .rst s = true ∧ busy s = true) ∨
    ((dataTurn s = true ∨ ctrlTurn s = true) ∧ pinsHold 1 s = true ∧
      s.cfg.tPdUs < highTime s) ∨
    (∃ us, eventTurn (.stretch us) s = true ∧ s.block.clk = true ∧
      s.cfg.tPdUs < highTime s + us)) ∧
  (∀ s : State, (dataTurn s = true ∨ ctrlTurn s = true) → pinsHold 1 s = true →
    s.cfg.tPdUs < highTime s →
    ∃ t, step s = .next t ∧ t.chip.sync = false ∧ t.chip.source = .poweredDown) ∧
  (∀ (s : State) (us : Nat), eventTurn (.stretch us) s = true →
    s.cfg.platformStretches = true → s.block.clk = true → s.cfg.tPdUs < highTime s + us →
    ∃ t, step s = .next t ∧ t.chip.sync = false ∧ t.chip.source = .poweredDown) ∧
  (∀ s t : State, step s = .next t → s.chip.sync = false → t.chip.sync = true →
    s.chip.din = true ∧ t.chip.din = false) ∧
  (∀ s t : State, step s = .next t →
    s.chip.din = true → t.chip.din = false → t.chip.sync = true) ∧
  (∀ (s : State) (e : Event), (e = .drive false ∨ ∃ w, e = .ready w) →
    eventTurn e s = true → dinForcedHigh s = false → s.chip.din = true →
    ∃ t, step s = .next t ∧ t.chip.din = false ∧ t.chip.sync = true) ∧
  State.reset.chip.sync = true

/-- R39, R54, R91: an undisturbed READ under a mode consumes the chip's conversion. The
conversion the chip has next is a draw made under that mode (a free value), so that a READ
started without a new ready event returns a sample of that mode too; and a conversion the chip
latches is made under that mode. The record of the mode, the step at which NEXT_GAIN is set and
the way a conversion is consumed are the model's (assumption logs 12, 13 and 39), and so is that
a conversion latched while the last data bit still holds DIN low replaces the chip's word
(assumption log 38). -/
def Obligations.GainTakesEffectOnTheNextConversion : Prop :=
  ∀ (s : State) (m : GainMode) (w : Raw24),
    undisturbed s = true → presents s 0x20#8 = true → s.block.gain = gainCode m →
    ∃ t u, Host.Core.run Sys2Proof.core (readSteps s.block.gain) s = .next t ∧
      t.chip.nextGain = m ∧ t.chip.convMode = m ∧
      (∃ n, s.draws ≤ n ∧ n < t.draws ∧ t.chip.conv = Config.drawConv n) ∧
      step { t with sched := [.ready w] } = .next u ∧
      u.chip.conv = w ∧ u.chip.convMode = m ∧ u.chip.din = false

/-! ### The host contract -/

/-- R110, R111, R112, R138: `read()` and `read_scaled()` of a chip that is not ready return
NotReady; no pin moves, no conversion is consumed, and neither LAST nor OFFSET nor any register
of the block changes. The number of steps is the model's choice (assumption log 23). -/
def Obligations.NotReadyReadChangesNothing : Prop :=
  ∀ (s : State) (c : HostCall), (c = .read ∨ c = .readScaled) →
    undisturbed s = true → foregroundTurn s = true → s.host.fg = .idle →
    nextCall s = some c → s.chip.din = true →
    ∃ t, Host.Core.run Sys2Proof.core 3 s = .next t ∧
      t.host =
        { s.host with
          pc := s.host.pc + 1, inCs := false, fg := .idle, result := some .notReady } ∧
      t.block = s.block ∧ t.chip = s.chip

/-- R110, R129, R139: with the sample there, `read()` subtracts OFFSET exactly; a difference
inside i32 is written to LAST and returned, and one outside i32 stops the run with
OffsetOverflow, in the foreground and in the handler alike. The steps, and the fault as the end
of the run, are the model's reading (assumption logs 23 and 24). -/
def Obligations.ReadSubtractsTheOffset : Prop :=
  (∀ (s : State) (r : Response),
    foregroundTurn s = true → s.host.fg = .awaitReadSample false → s.chan.response = some r →
    -2147483648 ≤ r.value.toInt - s.host.offset.toInt →
    r.value.toInt - s.host.offset.toInt ≤ 2147483647 →
    ∃ d : Word32, d.toInt = r.value.toInt - s.host.offset.toInt ∧
      step s = .next
        { takeEvent s with
          host :=
            { s.host with
              last := some d, inCs := false, fg := .idle, result := some (.int d) } }) ∧
  (∀ (s : State) (r : Response) (scaled : Bool),
    foregroundTurn s = true → s.host.fg = .awaitReadSample scaled → s.chan.response = some r →
    (r.value.toInt - s.host.offset.toInt < -2147483648 ∨
      2147483647 < r.value.toInt - s.host.offset.toInt) →
    step s = .fault (.offsetOverflow r.value s.host.offset)) ∧
  (∀ (s : State) (r : Response),
    hostTurn s = true → s.host.inHandler = true → s.host.hd = .awaitSample →
    s.chan.response = some r →
    (r.value.toInt - s.host.offset.toInt < -2147483648 ∨
      2147483647 < r.value.toInt - s.host.offset.toInt) →
    step s = .fault (.offsetOverflow r.value s.host.offset))

/-- R110, with the block and the chip: `read()` of a ready chip, undisturbed, returns the widened
conversion less OFFSET and stores it in LAST. The number of steps is the model's choice
(assumption log 23), and the chip is that of assumption logs 8 and 9. -/
def Obligations.ReadReturnsTheCorrectedSample : Prop :=
  ∀ s : State,
    undisturbed s = true → foregroundTurn s = true → s.host.fg = .idle →
    nextCall s = some .read → chipReadyInSync s = true → gainLegal s = true →
    -2147483648 ≤ widen s.chip.conv - s.host.offset.toInt →
    widen s.chip.conv - s.host.offset.toInt ≤ 2147483647 →
    ∃ (t : State) (d : Word32),
      Host.Core.run Sys2Proof.core (readSteps s.block.gain + 4) s = .next t ∧
      d.toInt = widen s.chip.conv - s.host.offset.toInt ∧
      t.host =
        { s.host with
          pc := s.host.pc + 1, last := some d, inCs := false, fg := .idle,
          result := some (.int d) }

/-- R112, R113: `read_scaled()` multiplies the offset-corrected reading, as a binary32, by SCALE;
it does so in a critical section of its own, and writes nothing. The product of finite numbers is
the exact one where binary32 has it, and a zero has the sign of the product. The steps, and the
format's layout, are from assumption logs 22 and 23. -/
def Obligations.ReadScaledMultipliesByScale : Prop :=
  (∀ (s : State) (r : Response),
    foregroundTurn s = true → s.host.fg = .awaitReadSample true → s.chan.response = some r →
    -2147483648 ≤ r.value.toInt - s.host.offset.toInt →
    r.value.toInt - s.host.offset.toInt ≤ 2147483647 →
    ∃ d : Word32, d.toInt = r.value.toInt - s.host.offset.toInt ∧
      step s = .next
        { takeEvent s with
          host := { s.host with last := some d, inCs := false, fg := .scale d } }) ∧
  (∀ (s : State) (d : Word32),
    foregroundTurn s = true → s.host.fg = .scale d →
    step s = .next
      { takeEvent s with
        host :=
          { s.host with
            fg := .idle, result := some (.float (f32Mul (f32OfI32 d) s.host.scale)) } }) ∧
  (∀ x y z : Word32,
    f32Finite x = true → f32Finite y = true → f32Finite z = true → f32Value z ≠ 0 →
    f32Value x * f32Value y = f32Value z → f32Mul x y = z) ∧
  (∀ x y : Word32,
    f32Finite x = true → f32Finite y = true → f32Value x * f32Value y = 0 →
    f32Mul x y = if f32Sign x != f32Sign y then 0x80000000#32 else 0#32)

/-- R116: the laws of TARE_MEAN, for the default and for every other lawful mean: a constant list
gives its constant, the result is within 1 of the rounded mean (for one of the two tie rules),
and it is in the range of a sample. -/
def Obligations.TareMeanLaws : Prop :=
  ∀ (k : TareMeanKind) (v : Int) (vs : List Int),
    (∀ x ∈ v :: vs, -8388608 ≤ x ∧ x ≤ 8388607) →
    ((∀ x ∈ vs, x = v) → tareMean k (v :: vs) = v) ∧
    ((tareMean k (v :: vs) - meanHalfUp (v :: vs)).natAbs ≤ 1 ∨
      (tareMean k (v :: vs) - meanHalfDown (v :: vs)).natAbs ≤ 1) ∧
    -8388608 ≤ tareMean k (v :: vs) ∧ tareMean k (v :: vs) ≤ 8388607

/-- R119: `tare(0)` is refused. -/
def Obligations.TareZeroIsRefused : Prop :=
  ∀ s : State,
    foregroundTurn s = true → s.host.fg = .idle → nextCall s = some (.tare 0) →
    step s = .refused .tareZero

/-- R118: while the chip never pulls DIN low, `tare` polls for ever: after any number of polls it
is where it was, and it has not returned. The steps of a poll are the model's choice (assumption
log 23). -/
def Obligations.TareWaitsForEver : Prop :=
  ∀ (s : State) (prior : Bool) (left : Nat) (vs : List Word32),
    undisturbed s = true → foregroundTurn s = true → irq s = false →
    s.host.fg = .tarePoll prior left vs → s.chip.din = true →
    ∀ k : Nat, ∃ t, Host.Core.run Sys2Proof.core (3 * k) s = .next t ∧
      t.host.fg = .tarePoll prior left vs ∧ t.host.result = s.host.result ∧
      t.block = s.block ∧ t.chip = s.chip

/-- R114, R115, R116, R117: `tare`. With the unit and without it, `tare(1)` of a ready chip,
undisturbed, sets OFFSET to its one raw sample under every TARE_MEAN, restores LISTEN for both
prior values, and writes neither LAST nor SCALE. `tare(n)` asks for LISTEN where the unit is
present, suspends it where it was set, takes samples until `n` are there, each added to the list,
and then writes their mean. The steps of the host are the model's choice (assumption logs 21 and
23). -/
def Obligations.TareTakesItsSamples : Prop :=
  (∀ s : State,
    undisturbed s = true → foregroundTurn s = true → s.host.fg = .idle →
    nextCall s = some (.tare 1) → chipReadyInSync s = true → gainLegal s = true →
    ∃ (k : Nat) (t : State),
      Host.Core.run Sys2Proof.core k s = .next t ∧
      t.host.fg = .idle ∧ t.host.result = some .unit ∧ t.host.pc = s.host.pc + 1 ∧
      t.host.offset = BitVec.ofInt 32 (widen s.chip.conv) ∧
      t.block.listen = s.block.listen ∧
      t.host.tareSaved =
        (if s.cfg.hasEdgeNotify then s.block.listen else s.host.tareSaved) ∧
      t.host.last = s.host.last ∧ t.host.scale = s.host.scale) ∧
  (∀ (s : State) (n : Nat),
    foregroundTurn s = true → s.host.fg = .idle → nextCall s = some (.tare n) → n ≠ 0 →
    ∃ t, step s = .next t ∧ t.block = s.block ∧
      t.host.fg = (if s.cfg.hasEdgeNotify then .awaitTareQuery n else .tarePoll false n []) ∧
      t.chan.cmd = (if s.cfg.hasEdgeNotify then some 0x80#8 else none)) ∧
  (∀ (s : State) (n : Nat) (r : Response),
    foregroundTurn s = true → s.chan.response = some r → s.host.fg = .awaitTareQuery n →
    ∃ t, step s = .next t ∧ t.block = s.block ∧
      t.host.fg = (if r.value = 1#32 then .awaitTareUnlisten n else .tarePoll false n []) ∧
      t.chan.cmd = (if r.value = 1#32 then some 0x60#8 else none)) ∧
  (∀ (s : State) (n : Nat) (r : Response),
    foregroundTurn s = true → s.chan.response = some r → s.host.fg = .awaitTareUnlisten n →
    step s = .next
      { takeEvent s with
        host := { s.host with inCs := false, tareSaved := true, fg := .tarePoll true n [] } }) ∧
  (∀ (s : State) (prior : Bool) (left : Nat) (vs : List Word32) (r : Response),
    foregroundTurn s = true → s.chan.response = some r →
    s.host.fg = .awaitTarePoll prior left vs → r.value = 1#32 →
    step s = .next
      { takeEvent s with
        host := { s.host with inCs := false, fg := .tareSample prior left vs } }) ∧
  (∀ (s : State) (prior : Bool) (left : Nat) (vs : List Word32),
    foregroundTurn s = true → s.host.fg = .tareSample prior left vs →
    ∃ t, step s = .next t ∧ t.host.fg = .awaitTareSample prior left vs ∧
      t.chan.cmd = some 0x20#8 ∧ t.block = s.block) ∧
  (∀ (s : State) (prior : Bool) (left : Nat) (vs : List Word32) (r : Response),
    foregroundTurn s = true → s.chan.response = some r →
    s.host.fg = .awaitTareSample prior left vs →
    step s = .next
      { takeEvent s with
        host :=
          { s.host with
            inCs := false
            fg := if 1 < left then .tarePoll prior (left - 1) (vs ++ [r.value])
              else .tareStore prior (vs ++ [r.value]) } }) ∧
  (∀ (s : State) (prior : Bool) (vs : List Word32),
    foregroundTurn s = true → s.host.fg = .tareStore prior vs →
    step s = .next
      { takeEvent s with
        host :=
          { s.host with
            offset := BitVec.ofInt 32 (tareMean s.cfg.tareMean (vs.map BitVec.toInt))
            fg := if prior then .tareRestore else .idle
            result := if prior then s.host.result else some .unit } })

/-- R78, R109, R120 to R128, R130: the accessors read and write OFFSET, SCALE and LAST at once,
and touch nothing else; the calls whose body is one command, a raw command word among them, open
a critical section and present the word, and, when the response is there, close the section and
return what it says; `waitready` polls until RDY answers 1. Without the edge-notify unit the
three interrupt procedures are refused. The steps are the model's choice (assumption log 23), and
that `get_last_reading` runs without the unit, while those three are refused, is its reading
(assumption log 25). -/
def Obligations.AccessorsAndCommandCalls : Prop :=
  (∀ (s : State) (c : HostCall),
    foregroundTurn s = true → s.host.fg = .idle → nextCall s = some c →
    (∀ x, c = .setScale x →
      step s = .next
        { takeEvent s with
          host := { s.host with pc := s.host.pc + 1, scale := x, result := some .unit } }) ∧
    (c = .getScale →
      step s = .next
        { takeEvent s with
          host := { s.host with pc := s.host.pc + 1, result := some (.float s.host.scale) } }) ∧
    (∀ o, c = .setOffset o →
      step s = .next
        { takeEvent s with
          host := { s.host with pc := s.host.pc + 1, offset := o, result := some .unit } }) ∧
    (c = .getOffset →
      step s = .next
        { takeEvent s with
          host := { s.host with pc := s.host.pc + 1, result := some (.int s.host.offset) } }) ∧
    (c = .getLastReading →
      step s = .next
        { takeEvent s with
          host := { s.host with pc := s.host.pc + 1, result := some (.last s.host.last) } })) ∧
  (∀ (s : State) (c : HostCall) (w : Byte) (p : FgPoint),
    foregroundTurn s = true → s.host.fg = .idle → nextCall s = some c →
    ((c = .isReady ∧ w = 0x10#8 ∧ p = .awaitReady) ∨
      (c = .assertReady ∧ w = 0x10#8 ∧ p = .awaitAssert) ∨
      (c = .cmd w ∧ p = .awaitRaw) ∨
      (∃ m, c = .setGainMode m ∧ w = 0x30#8 ||| (gainCode m).setWidth 8 ∧ p = .awaitUnit) ∨
      (c = .getGainMode ∧ w = 0x40#8 ∧ p = .awaitGain) ∨
      (s.cfg.hasEdgeNotify = true ∧ c = .enableInterrupt ∧ w = 0x50#8 ∧ p = .awaitUnit) ∨
      (s.cfg.hasEdgeNotify = true ∧ c = .disableInterrupt ∧ w = 0x60#8 ∧ p = .awaitUnit) ∨
      (s.cfg.hasEdgeNotify = true ∧ c = .clearInterrupt ∧ w = 0x70#8 ∧ p = .awaitUnit)) →
    step s = .next
      { takeEvent s with
        chan := { cmd := some w, response := none }
        host := { s.host with pc := s.host.pc + 1, inCs := true, fg := p, result := none } }) ∧
  (∀ (s : State) (c : HostCall),
    foregroundTurn s = true → s.host.fg = .idle → nextCall s = some c →
    s.cfg.hasEdgeNotify = false →
    (c = .enableInterrupt ∨ c = .disableInterrupt ∨ c = .clearInterrupt) →
    step s = .refused .noSuchProcedure) ∧
  (∀ s : State,
    foregroundTurn s = true → s.host.fg = .idle → nextCall s = some .waitReady →
    step s = .next
      { takeEvent s with
        host := { s.host with pc := s.host.pc + 1, fg := .poll, result := none } }) ∧
  (∀ s : State,
    foregroundTurn s = true → s.host.fg = .poll →
    step s = .next
      { takeEvent s with
        chan := { cmd := some 0x10#8, response := none }
        host := { s.host with inCs := true, fg := .awaitPoll } }) ∧
  (∀ (s : State) (r : Response),
    foregroundTurn s = true → s.chan.response = some r → s.host.fg = .awaitPoll →
    r.value ≠ 1#32 →
    step s = .next
      { takeEvent s with host := { s.host with inCs := false, fg := .poll } }) ∧
  (∀ (s : State) (r : Response) (x : HostResult),
    foregroundTurn s = true → s.chan.response = some r →
    ((s.host.fg = .awaitReady ∧ x = .bool (decide (r.value = 1#32))) ∨
      (s.host.fg = .awaitAssert ∧ x = if r.value = 0#32 then .notReady else .unit) ∨
      (s.host.fg = .awaitPoll ∧ r.value = 1#32 ∧ x = .unit) ∨
      (s.host.fg = .awaitRaw ∧ x = .response r) ∨
      (s.host.fg = .awaitUnit ∧ x = .unit) ∨
      (s.host.fg = .awaitGain ∧ ∃ m, r.value = (gainCode m).setWidth 32 ∧ x = .gain (some m))) →
    step s = .next
      { takeEvent s with
        host := { s.host with inCs := false, fg := .idle, result := some x } })

/-! ### The handler -/

/-- R142: when IRQ is 1, the foreground is in no critical section and no handler runs, the host
enters the handler: the foreground's continuation stays as it is and the block does not change.
That the handler goes first unless the schedule says otherwise is the model's choice (assumption
log 26). -/
def Obligations.DispatchEntersTheHandler : Prop :=
  ∀ s : State, hostTurn s = true → s.sched.head? ≠ some .foreground →
    irq s = true → s.host.inCs = false → s.host.inHandler = false →
    step s = .next
      { takeEvent s with host := { s.host with inHandler := true, hd := .start } }

/-- R142, R145, R147: no handler is dispatched inside a critical section of the foreground, nor
while one runs (by the third clause a running handler never comes to its start again), and the
foreground does not move while the handler runs, but for a reset. The steps of a critical section
are the model's choice (assumption log 23). -/
def Obligations.ContextsDoNotInterleave : Prop :=
  ∀ s t : State, step s = .next t →
    (s.host.inCs = true → s.host.inHandler = false → t.host.inHandler = false) ∧
    (s.host.inHandler = true → eventTurn .rst s = false →
      t.host.fg = s.host.fg ∧ t.host.pc = s.host.pc ∧ t.host.inCs = s.host.inCs ∧
      t.host.result = s.host.result) ∧
    (s.host.inHandler = true → t.host.hd = .start → s.host.hd = .start)

/-- R129, R142, R144: an interrupt of a ready chip, undisturbed: the handler stores the offset-
corrected sample in LAST, clears PENDING, and returns; the foreground is where it was. The number
of steps is the model's choice (assumption log 23). -/
def Obligations.HandlerReadsAndClears : Prop :=
  ∀ s : State,
    undisturbed s = true → hostTurn s = true → dispatchEnabled s = true →
    chipReadyInSync s = true → gainLegal s = true →
    -2147483648 ≤ widen s.chip.conv - s.host.offset.toInt →
    widen s.chip.conv - s.host.offset.toInt ≤ 2147483647 →
    ∃ (t : State) (d : Word32),
      Host.Core.run Sys2Proof.core (readSteps s.block.gain + 7) s = .next t ∧
      d.toInt = widen s.chip.conv - s.host.offset.toInt ∧
      t.host = { s.host with last := some d, hd := .idle } ∧
      t.block.pending = false ∧ t.block.listen = true ∧ irq t = false

/-- R129, R138: an interrupt of a chip that is not ready: NotReady is swallowed, no pulse is
driven, LAST keeps its value, and PENDING is cleared all the same. The number of steps is the
model's choice (assumption log 23). -/
def Obligations.HandlerSwallowsNotReady : Prop :=
  ∀ s : State,
    undisturbed s = true → hostTurn s = true → dispatchEnabled s = true → s.chip.din = true →
    ∃ t, Host.Core.run Sys2Proof.core 6 s = .next t ∧
      t.host = { s.host with hd := .idle } ∧
      t.block = { s.block with pending := false } ∧ t.chip = s.chip
end

