-- ==== Sys2Proof/Laws/State.lean ====
section
/-! SUPPORT. For each plain update of the state, what it makes of each of the nine parts of the state:
every lemma is true by rfl, so that no proof unfolds a record update. -/

namespace Sys2Proof.Machine

@[simp] theorem delay_cfg (us : Nat) (s : State) : (delay us s).cfg = s.cfg := rfl
@[simp] theorem delay_block (us : Nat) (s : State) : (delay us s).block = s.block := rfl
@[simp] theorem delay_chan (us : Nat) (s : State) : (delay us s).chan = s.chan := rfl
@[simp] theorem delay_chip (us : Nat) (s : State) : (delay us s).chip = s.chip := rfl
@[simp] theorem delay_host (us : Nat) (s : State) : (delay us s).host = s.host := rfl
@[simp] theorem delay_sched (us : Nat) (s : State) : (delay us s).sched = s.sched := rfl
@[simp] theorem delay_pins (us : Nat) (s : State) : (delay us s).pins = s.pins := rfl
@[simp] theorem delay_stretch (us : Nat) (s : State) : (delay us s).stretch = s.stretch := rfl
@[simp] theorem delay_draws (us : Nat) (s : State) : (delay us s).draws = s.draws := rfl

@[simp] theorem present_cfg (w : Byte) (s : State) : (present w s).cfg = s.cfg := rfl
@[simp] theorem present_block (w : Byte) (s : State) : (present w s).block = s.block := rfl
@[simp] theorem present_chan (w : Byte) (s : State) : (present w s).chan = { cmd := some w, response := none } := rfl
@[simp] theorem present_chip (w : Byte) (s : State) : (present w s).chip = s.chip := rfl
@[simp] theorem present_host (w : Byte) (s : State) : (present w s).host = s.host := rfl
@[simp] theorem present_sched (w : Byte) (s : State) : (present w s).sched = s.sched := rfl
@[simp] theorem present_pins (w : Byte) (s : State) : (present w s).pins = s.pins := rfl
@[simp] theorem present_stretch (w : Byte) (s : State) : (present w s).stretch = s.stretch := rfl
@[simp] theorem present_draws (w : Byte) (s : State) : (present w s).draws = s.draws := rfl

@[simp] theorem acceptCommand_cfg (s : State) : (acceptCommand s).cfg = s.cfg := rfl
@[simp] theorem acceptCommand_block (s : State) : (acceptCommand s).block = s.block := rfl
@[simp] theorem acceptCommand_chan (s : State) : (acceptCommand s).chan = { cmd := none, response := none } := rfl
@[simp] theorem acceptCommand_chip (s : State) : (acceptCommand s).chip = s.chip := rfl
@[simp] theorem acceptCommand_host (s : State) : (acceptCommand s).host = s.host := rfl
@[simp] theorem acceptCommand_sched (s : State) : (acceptCommand s).sched = s.sched := rfl
@[simp] theorem acceptCommand_pins (s : State) : (acceptCommand s).pins = s.pins := rfl
@[simp] theorem acceptCommand_stretch (s : State) : (acceptCommand s).stretch = s.stretch := rfl
@[simp] theorem acceptCommand_draws (s : State) : (acceptCommand s).draws = s.draws := rfl

@[simp] theorem respond_cfg (c : Cause) (v : Word32) (s : State) : (respond c v s).cfg = s.cfg := rfl
@[simp] theorem respond_block (c : Cause) (v : Word32) (s : State) : (respond c v s).block = s.block := rfl
@[simp] theorem respond_chan (c : Cause) (v : Word32) (s : State) : (respond c v s).chan = { s.chan with response := some { status := causeCode c, value := v } } := rfl
@[simp] theorem respond_chip (c : Cause) (v : Word32) (s : State) : (respond c v s).chip = s.chip := rfl
@[simp] theorem respond_host (c : Cause) (v : Word32) (s : State) : (respond c v s).host = s.host := rfl
@[simp] theorem respond_sched (c : Cause) (v : Word32) (s : State) : (respond c v s).sched = s.sched := rfl
@[simp] theorem respond_pins (c : Cause) (v : Word32) (s : State) : (respond c v s).pins = s.pins := rfl
@[simp] theorem respond_stretch (c : Cause) (v : Word32) (s : State) : (respond c v s).stretch = s.stretch := rfl
@[simp] theorem respond_draws (c : Cause) (v : Word32) (s : State) : (respond c v s).draws = s.draws := rfl

@[simp] theorem respondOk_cfg (v : Word32) (s : State) : (respondOk v s).cfg = s.cfg := rfl
@[simp] theorem respondOk_block (v : Word32) (s : State) : (respondOk v s).block = s.block := rfl
@[simp] theorem respondOk_chan (v : Word32) (s : State) : (respondOk v s).chan = { s.chan with response := some { status := 0x00#8, value := v } } := rfl
@[simp] theorem respondOk_chip (v : Word32) (s : State) : (respondOk v s).chip = s.chip := rfl
@[simp] theorem respondOk_host (v : Word32) (s : State) : (respondOk v s).host = s.host := rfl
@[simp] theorem respondOk_sched (v : Word32) (s : State) : (respondOk v s).sched = s.sched := rfl
@[simp] theorem respondOk_pins (v : Word32) (s : State) : (respondOk v s).pins = s.pins := rfl
@[simp] theorem respondOk_stretch (v : Word32) (s : State) : (respondOk v s).stretch = s.stretch := rfl
@[simp] theorem respondOk_draws (v : Word32) (s : State) : (respondOk v s).draws = s.draws := rfl

@[simp] theorem respondIllegal_cfg (s : State) : (respondIllegal s).cfg = s.cfg := rfl
@[simp] theorem respondIllegal_block (s : State) : (respondIllegal s).block = s.block := rfl
@[simp] theorem respondIllegal_chan (s : State) : (respondIllegal s).chan = { s.chan with response := some { status := 0x01#8, value := 0#32 } } := rfl
@[simp] theorem respondIllegal_chip (s : State) : (respondIllegal s).chip = s.chip := rfl
@[simp] theorem respondIllegal_host (s : State) : (respondIllegal s).host = s.host := rfl
@[simp] theorem respondIllegal_sched (s : State) : (respondIllegal s).sched = s.sched := rfl
@[simp] theorem respondIllegal_pins (s : State) : (respondIllegal s).pins = s.pins := rfl
@[simp] theorem respondIllegal_stretch (s : State) : (respondIllegal s).stretch = s.stretch := rfl
@[simp] theorem respondIllegal_draws (s : State) : (respondIllegal s).draws = s.draws := rfl

@[simp] theorem chipCountPulse_cfg (s : State) : (chipCountPulse s).cfg = s.cfg := rfl
@[simp] theorem chipCountPulse_block (s : State) : (chipCountPulse s).block = s.block := rfl
@[simp] theorem chipCountPulse_chan (s : State) : (chipCountPulse s).chan = s.chan := rfl
@[simp] theorem chipCountPulse_chip (s : State) : (chipCountPulse s).chip = { s.chip with pulses := s.chip.pulses + 1 } := rfl
@[simp] theorem chipCountPulse_host (s : State) : (chipCountPulse s).host = s.host := rfl
@[simp] theorem chipCountPulse_sched (s : State) : (chipCountPulse s).sched = s.sched := rfl
@[simp] theorem chipCountPulse_pins (s : State) : (chipCountPulse s).pins = s.pins := rfl
@[simp] theorem chipCountPulse_stretch (s : State) : (chipCountPulse s).stretch = s.stretch := rfl
@[simp] theorem chipCountPulse_draws (s : State) : (chipCountPulse s).draws = s.draws := rfl

@[simp] theorem chipBeginFrame_cfg (s : State) : (chipBeginFrame s).cfg = s.cfg := rfl
@[simp] theorem chipBeginFrame_block (s : State) : (chipBeginFrame s).block = s.block := rfl
@[simp] theorem chipBeginFrame_chan (s : State) : (chipBeginFrame s).chan = s.chan := rfl
@[simp] theorem chipBeginFrame_chip (s : State) : (chipBeginFrame s).chip = { s.chip with source := if !s.chip.din && s.chip.sync then .word s.chip.conv else .draws, pulses := 0 } := rfl
@[simp] theorem chipBeginFrame_host (s : State) : (chipBeginFrame s).host = s.host := rfl
@[simp] theorem chipBeginFrame_sched (s : State) : (chipBeginFrame s).sched = s.sched := rfl
@[simp] theorem chipBeginFrame_pins (s : State) : (chipBeginFrame s).pins = s.pins := rfl
@[simp] theorem chipBeginFrame_stretch (s : State) : (chipBeginFrame s).stretch = s.stretch := rfl
@[simp] theorem chipBeginFrame_draws (s : State) : (chipBeginFrame s).draws = s.draws := rfl

@[simp] theorem beginRead_cfg (s : State) : (beginRead s).cfg = s.cfg := rfl
@[simp] theorem beginRead_block (s : State) : (beginRead s).block = { s.block with shift := 0#24, cnt := 0#5, phase := .reading } := rfl
@[simp] theorem beginRead_chan (s : State) : (beginRead s).chan = s.chan := rfl
@[simp] theorem beginRead_chip (s : State) : (beginRead s).chip = { s.chip with source := if !s.chip.din && s.chip.sync then .word s.chip.conv else .draws, pulses := 0 } := rfl
@[simp] theorem beginRead_host (s : State) : (beginRead s).host = s.host := rfl
@[simp] theorem beginRead_sched (s : State) : (beginRead s).sched = s.sched := rfl
@[simp] theorem beginRead_pins (s : State) : (beginRead s).pins = s.pins := rfl
@[simp] theorem beginRead_stretch (s : State) : (beginRead s).stretch = s.stretch := rfl
@[simp] theorem beginRead_draws (s : State) : (beginRead s).draws = s.draws := rfl

@[simp] theorem popPin_cfg (s : State) : (popPin s).cfg = s.cfg := rfl
@[simp] theorem popPin_block (s : State) : (popPin s).block = s.block := rfl
@[simp] theorem popPin_chan (s : State) : (popPin s).chan = s.chan := rfl
@[simp] theorem popPin_chip (s : State) : (popPin s).chip = s.chip := rfl
@[simp] theorem popPin_host (s : State) : (popPin s).host = s.host := rfl
@[simp] theorem popPin_sched (s : State) : (popPin s).sched = s.sched := rfl
@[simp] theorem popPin_pins (s : State) : (popPin s).pins = s.pins.tail := rfl
@[simp] theorem popPin_stretch (s : State) : (popPin s).stretch = s.stretch := rfl
@[simp] theorem popPin_draws (s : State) : (popPin s).draws = s.draws := rfl

@[simp] theorem pinFault_cfg (p : Pin) (s : State) : (pinFault p s).cfg = s.cfg := rfl
@[simp] theorem pinFault_block (p : Pin) (s : State) : (pinFault p s).block = { s.block with fault := true, faultInfo := some { pin := p, phase := s.block.phase, cnt := s.block.cnt } } := rfl
@[simp] theorem pinFault_chan (p : Pin) (s : State) : (pinFault p s).chan = s.chan := rfl
@[simp] theorem pinFault_chip (p : Pin) (s : State) : (pinFault p s).chip = s.chip := rfl
@[simp] theorem pinFault_host (p : Pin) (s : State) : (pinFault p s).host = s.host := rfl
@[simp] theorem pinFault_sched (p : Pin) (s : State) : (pinFault p s).sched = s.sched := rfl
@[simp] theorem pinFault_pins (p : Pin) (s : State) : (pinFault p s).pins = s.pins := rfl
@[simp] theorem pinFault_stretch (p : Pin) (s : State) : (pinFault p s).stretch = s.stretch := rfl
@[simp] theorem pinFault_draws (p : Pin) (s : State) : (pinFault p s).draws = s.draws := rfl

@[simp] theorem setPending_cfg (b : Bool) (s : State) : (setPending b s).cfg = s.cfg := rfl
@[simp] theorem setPending_block (b : Bool) (s : State) : (setPending b s).block = { s.block with pending := b } := rfl
@[simp] theorem setPending_chan (b : Bool) (s : State) : (setPending b s).chan = s.chan := rfl
@[simp] theorem setPending_chip (b : Bool) (s : State) : (setPending b s).chip = s.chip := rfl
@[simp] theorem setPending_host (b : Bool) (s : State) : (setPending b s).host = s.host := rfl
@[simp] theorem setPending_sched (b : Bool) (s : State) : (setPending b s).sched = s.sched := rfl
@[simp] theorem setPending_pins (b : Bool) (s : State) : (setPending b s).pins = s.pins := rfl
@[simp] theorem setPending_stretch (b : Bool) (s : State) : (setPending b s).stretch = s.stretch := rfl
@[simp] theorem setPending_draws (b : Bool) (s : State) : (setPending b s).draws = s.draws := rfl

@[simp] theorem spendDraw_cfg (s : State) : (spendDraw s).cfg = s.cfg := rfl
@[simp] theorem spendDraw_block (s : State) : (spendDraw s).block = s.block := rfl
@[simp] theorem spendDraw_chan (s : State) : (spendDraw s).chan = s.chan := rfl
@[simp] theorem spendDraw_chip (s : State) : (spendDraw s).chip = s.chip := rfl
@[simp] theorem spendDraw_host (s : State) : (spendDraw s).host = s.host := rfl
@[simp] theorem spendDraw_sched (s : State) : (spendDraw s).sched = s.sched := rfl
@[simp] theorem spendDraw_pins (s : State) : (spendDraw s).pins = s.pins := rfl
@[simp] theorem spendDraw_stretch (s : State) : (spendDraw s).stretch = s.stretch := rfl
@[simp] theorem spendDraw_draws (s : State) : (spendDraw s).draws = s.draws + 1 := rfl

@[simp] theorem setClk_cfg (b : Bool) (s : State) : (setClk b s).cfg = s.cfg := rfl
@[simp] theorem setClk_block (b : Bool) (s : State) : (setClk b s).block = { s.block with clk := b } := rfl
@[simp] theorem setClk_chan (b : Bool) (s : State) : (setClk b s).chan = s.chan := rfl
@[simp] theorem setClk_chip (b : Bool) (s : State) : (setClk b s).chip = s.chip := rfl
@[simp] theorem setClk_host (b : Bool) (s : State) : (setClk b s).host = s.host := rfl
@[simp] theorem setClk_sched (b : Bool) (s : State) : (setClk b s).sched = s.sched := rfl
@[simp] theorem setClk_pins (b : Bool) (s : State) : (setClk b s).pins = s.pins := rfl
@[simp] theorem setClk_stretch (b : Bool) (s : State) : (setClk b s).stretch = s.stretch := rfl
@[simp] theorem setClk_draws (b : Bool) (s : State) : (setClk b s).draws = s.draws := rfl

@[simp] theorem setGain_cfg (g : BitVec 2) (s : State) : (setGain g s).cfg = s.cfg := rfl
@[simp] theorem setGain_block (g : BitVec 2) (s : State) : (setGain g s).block = { s.block with gain := g } := rfl
@[simp] theorem setGain_chan (g : BitVec 2) (s : State) : (setGain g s).chan = s.chan := rfl
@[simp] theorem setGain_chip (g : BitVec 2) (s : State) : (setGain g s).chip = s.chip := rfl
@[simp] theorem setGain_host (g : BitVec 2) (s : State) : (setGain g s).host = s.host := rfl
@[simp] theorem setGain_sched (g : BitVec 2) (s : State) : (setGain g s).sched = s.sched := rfl
@[simp] theorem setGain_pins (g : BitVec 2) (s : State) : (setGain g s).pins = s.pins := rfl
@[simp] theorem setGain_stretch (g : BitVec 2) (s : State) : (setGain g s).stretch = s.stretch := rfl
@[simp] theorem setGain_draws (g : BitVec 2) (s : State) : (setGain g s).draws = s.draws := rfl

@[simp] theorem setStep_cfg (p : Phase) (c : BitVec 5) (s : State) : (setStep p c s).cfg = s.cfg := rfl
@[simp] theorem setStep_block (p : Phase) (c : BitVec 5) (s : State) : (setStep p c s).block = { s.block with phase := p, cnt := c } := rfl
@[simp] theorem setStep_chan (p : Phase) (c : BitVec 5) (s : State) : (setStep p c s).chan = s.chan := rfl
@[simp] theorem setStep_chip (p : Phase) (c : BitVec 5) (s : State) : (setStep p c s).chip = s.chip := rfl
@[simp] theorem setStep_host (p : Phase) (c : BitVec 5) (s : State) : (setStep p c s).host = s.host := rfl
@[simp] theorem setStep_sched (p : Phase) (c : BitVec 5) (s : State) : (setStep p c s).sched = s.sched := rfl
@[simp] theorem setStep_pins (p : Phase) (c : BitVec 5) (s : State) : (setStep p c s).pins = s.pins := rfl
@[simp] theorem setStep_stretch (p : Phase) (c : BitVec 5) (s : State) : (setStep p c s).stretch = s.stretch := rfl
@[simp] theorem setStep_draws (p : Phase) (c : BitVec 5) (s : State) : (setStep p c s).draws = s.draws := rfl

@[simp] theorem setShift_cfg (r : Raw24) (s : State) : (setShift r s).cfg = s.cfg := rfl
@[simp] theorem setShift_block (r : Raw24) (s : State) : (setShift r s).block = { s.block with shift := r } := rfl
@[simp] theorem setShift_chan (r : Raw24) (s : State) : (setShift r s).chan = s.chan := rfl
@[simp] theorem setShift_chip (r : Raw24) (s : State) : (setShift r s).chip = s.chip := rfl
@[simp] theorem setShift_host (r : Raw24) (s : State) : (setShift r s).host = s.host := rfl
@[simp] theorem setShift_sched (r : Raw24) (s : State) : (setShift r s).sched = s.sched := rfl
@[simp] theorem setShift_pins (r : Raw24) (s : State) : (setShift r s).pins = s.pins := rfl
@[simp] theorem setShift_stretch (r : Raw24) (s : State) : (setShift r s).stretch = s.stretch := rfl
@[simp] theorem setShift_draws (r : Raw24) (s : State) : (setShift r s).draws = s.draws := rfl

@[simp] theorem setResult_cfg (r : Word32) (s : State) : (setResult r s).cfg = s.cfg := rfl
@[simp] theorem setResult_block (r : Word32) (s : State) : (setResult r s).block = { s.block with result := r } := rfl
@[simp] theorem setResult_chan (r : Word32) (s : State) : (setResult r s).chan = s.chan := rfl
@[simp] theorem setResult_chip (r : Word32) (s : State) : (setResult r s).chip = s.chip := rfl
@[simp] theorem setResult_host (r : Word32) (s : State) : (setResult r s).host = s.host := rfl
@[simp] theorem setResult_sched (r : Word32) (s : State) : (setResult r s).sched = s.sched := rfl
@[simp] theorem setResult_pins (r : Word32) (s : State) : (setResult r s).pins = s.pins := rfl
@[simp] theorem setResult_stretch (r : Word32) (s : State) : (setResult r s).stretch = s.stretch := rfl
@[simp] theorem setResult_draws (r : Word32) (s : State) : (setResult r s).draws = s.draws := rfl

@[simp] theorem setListen_cfg (b : Bool) (s : State) : (setListen b s).cfg = s.cfg := rfl
@[simp] theorem setListen_block (b : Bool) (s : State) : (setListen b s).block = { s.block with listen := b } := rfl
@[simp] theorem setListen_chan (b : Bool) (s : State) : (setListen b s).chan = s.chan := rfl
@[simp] theorem setListen_chip (b : Bool) (s : State) : (setListen b s).chip = s.chip := rfl
@[simp] theorem setListen_host (b : Bool) (s : State) : (setListen b s).host = s.host := rfl
@[simp] theorem setListen_sched (b : Bool) (s : State) : (setListen b s).sched = s.sched := rfl
@[simp] theorem setListen_pins (b : Bool) (s : State) : (setListen b s).pins = s.pins := rfl
@[simp] theorem setListen_stretch (b : Bool) (s : State) : (setListen b s).stretch = s.stretch := rfl
@[simp] theorem setListen_draws (b : Bool) (s : State) : (setListen b s).draws = s.draws := rfl

@[simp] theorem endStretch_cfg (s : State) : (endStretch s).cfg = s.cfg := rfl
@[simp] theorem endStretch_block (s : State) : (endStretch s).block = s.block := rfl
@[simp] theorem endStretch_chan (s : State) : (endStretch s).chan = s.chan := rfl
@[simp] theorem endStretch_chip (s : State) : (endStretch s).chip = s.chip := rfl
@[simp] theorem endStretch_host (s : State) : (endStretch s).host = s.host := rfl
@[simp] theorem endStretch_sched (s : State) : (endStretch s).sched = s.sched := rfl
@[simp] theorem endStretch_pins (s : State) : (endStretch s).pins = s.pins := rfl
@[simp] theorem endStretch_stretch (s : State) : (endStretch s).stretch = 0 := rfl
@[simp] theorem endStretch_draws (s : State) : (endStretch s).draws = s.draws := rfl

@[simp] theorem addStretch_cfg (us : Nat) (s : State) : (addStretch us s).cfg = s.cfg := rfl
@[simp] theorem addStretch_block (us : Nat) (s : State) : (addStretch us s).block = s.block := rfl
@[simp] theorem addStretch_chan (us : Nat) (s : State) : (addStretch us s).chan = s.chan := rfl
@[simp] theorem addStretch_chip (us : Nat) (s : State) : (addStretch us s).chip = s.chip := rfl
@[simp] theorem addStretch_host (us : Nat) (s : State) : (addStretch us s).host = s.host := rfl
@[simp] theorem addStretch_sched (us : Nat) (s : State) : (addStretch us s).sched = s.sched := rfl
@[simp] theorem addStretch_pins (us : Nat) (s : State) : (addStretch us s).pins = s.pins := rfl
@[simp] theorem addStretch_stretch (us : Nat) (s : State) : (addStretch us s).stretch = s.stretch + us := rfl
@[simp] theorem addStretch_draws (us : Nat) (s : State) : (addStretch us s).draws = s.draws := rfl

@[simp] theorem setNextGain_cfg (m : GainMode) (s : State) : (setNextGain m s).cfg = s.cfg := rfl
@[simp] theorem setNextGain_block (m : GainMode) (s : State) : (setNextGain m s).block = s.block := rfl
@[simp] theorem setNextGain_chan (m : GainMode) (s : State) : (setNextGain m s).chan = s.chan := rfl
@[simp] theorem setNextGain_chip (m : GainMode) (s : State) : (setNextGain m s).chip = { s.chip with nextGain := m } := rfl
@[simp] theorem setNextGain_host (m : GainMode) (s : State) : (setNextGain m s).host = s.host := rfl
@[simp] theorem setNextGain_sched (m : GainMode) (s : State) : (setNextGain m s).sched = s.sched := rfl
@[simp] theorem setNextGain_pins (m : GainMode) (s : State) : (setNextGain m s).pins = s.pins := rfl
@[simp] theorem setNextGain_stretch (m : GainMode) (s : State) : (setNextGain m s).stretch = s.stretch := rfl
@[simp] theorem setNextGain_draws (m : GainMode) (s : State) : (setNextGain m s).draws = s.draws := rfl

@[simp] theorem setSource_cfg (c : ReadSource) (s : State) : (setSource c s).cfg = s.cfg := rfl
@[simp] theorem setSource_block (c : ReadSource) (s : State) : (setSource c s).block = s.block := rfl
@[simp] theorem setSource_chan (c : ReadSource) (s : State) : (setSource c s).chan = s.chan := rfl
@[simp] theorem setSource_chip (c : ReadSource) (s : State) : (setSource c s).chip = { s.chip with source := c } := rfl
@[simp] theorem setSource_host (c : ReadSource) (s : State) : (setSource c s).host = s.host := rfl
@[simp] theorem setSource_sched (c : ReadSource) (s : State) : (setSource c s).sched = s.sched := rfl
@[simp] theorem setSource_pins (c : ReadSource) (s : State) : (setSource c s).pins = s.pins := rfl
@[simp] theorem setSource_stretch (c : ReadSource) (s : State) : (setSource c s).stretch = s.stretch := rfl
@[simp] theorem setSource_draws (c : ReadSource) (s : State) : (setSource c s).draws = s.draws := rfl

@[simp] theorem latchDraw_cfg (s : State) : (latchDraw s).cfg = s.cfg := rfl
@[simp] theorem latchDraw_block (s : State) : (latchDraw s).block = s.block := rfl
@[simp] theorem latchDraw_chan (s : State) : (latchDraw s).chan = s.chan := rfl
@[simp] theorem latchDraw_chip (s : State) : (latchDraw s).chip = { s.chip with conv := Config.drawConv s.draws, convMode := s.chip.nextGain } := rfl
@[simp] theorem latchDraw_host (s : State) : (latchDraw s).host = s.host := rfl
@[simp] theorem latchDraw_sched (s : State) : (latchDraw s).sched = s.sched := rfl
@[simp] theorem latchDraw_pins (s : State) : (latchDraw s).pins = s.pins := rfl
@[simp] theorem latchDraw_stretch (s : State) : (latchDraw s).stretch = s.stretch := rfl
@[simp] theorem latchDraw_draws (s : State) : (latchDraw s).draws = s.draws + 1 := rfl

@[simp] theorem setPc_cfg (n : Nat) (s : State) : (setPc n s).cfg = s.cfg := rfl
@[simp] theorem setPc_block (n : Nat) (s : State) : (setPc n s).block = s.block := rfl
@[simp] theorem setPc_chan (n : Nat) (s : State) : (setPc n s).chan = s.chan := rfl
@[simp] theorem setPc_chip (n : Nat) (s : State) : (setPc n s).chip = s.chip := rfl
@[simp] theorem setPc_host (n : Nat) (s : State) : (setPc n s).host = { s.host with pc := n } := rfl
@[simp] theorem setPc_sched (n : Nat) (s : State) : (setPc n s).sched = s.sched := rfl
@[simp] theorem setPc_pins (n : Nat) (s : State) : (setPc n s).pins = s.pins := rfl
@[simp] theorem setPc_stretch (n : Nat) (s : State) : (setPc n s).stretch = s.stretch := rfl
@[simp] theorem setPc_draws (n : Nat) (s : State) : (setPc n s).draws = s.draws := rfl

@[simp] theorem passCall_cfg (s : State) : (passCall s).cfg = s.cfg := rfl
@[simp] theorem passCall_block (s : State) : (passCall s).block = s.block := rfl
@[simp] theorem passCall_chan (s : State) : (passCall s).chan = s.chan := rfl
@[simp] theorem passCall_chip (s : State) : (passCall s).chip = s.chip := rfl
@[simp] theorem passCall_host (s : State) : (passCall s).host = { s.host with pc := s.host.pc + 1, result := none } := rfl
@[simp] theorem passCall_sched (s : State) : (passCall s).sched = s.sched := rfl
@[simp] theorem passCall_pins (s : State) : (passCall s).pins = s.pins := rfl
@[simp] theorem passCall_stretch (s : State) : (passCall s).stretch = s.stretch := rfl
@[simp] theorem passCall_draws (s : State) : (passCall s).draws = s.draws := rfl

@[simp] theorem latch_cfg (w : Raw24) (s : State) : (latch w s).cfg = s.cfg := rfl
@[simp] theorem latch_block (w : Raw24) (s : State) : (latch w s).block = s.block := rfl
@[simp] theorem latch_chan (w : Raw24) (s : State) : (latch w s).chan = s.chan := rfl
@[simp] theorem latch_chip (w : Raw24) (s : State) : (latch w s).chip = { s.chip with conv := w, convMode := s.chip.nextGain } := rfl
@[simp] theorem latch_host (w : Raw24) (s : State) : (latch w s).host = s.host := rfl
@[simp] theorem latch_sched (w : Raw24) (s : State) : (latch w s).sched = s.sched := rfl
@[simp] theorem latch_pins (w : Raw24) (s : State) : (latch w s).pins = s.pins := rfl
@[simp] theorem latch_stretch (w : Raw24) (s : State) : (latch w s).stretch = s.stretch := rfl
@[simp] theorem latch_draws (w : Raw24) (s : State) : (latch w s).draws = s.draws := rfl

@[simp] theorem loseState_cfg (s : State) : (loseState s).cfg = s.cfg := rfl
@[simp] theorem loseState_block (s : State) : (loseState s).block = s.block := rfl
@[simp] theorem loseState_chan (s : State) : (loseState s).chan = s.chan := rfl
@[simp] theorem loseState_chip (s : State) : (loseState s).chip = { s.chip with sync := false, conv := Config.drawConv s.draws, nextGain := Config.drawGain s.draws } := rfl
@[simp] theorem loseState_host (s : State) : (loseState s).host = s.host := rfl
@[simp] theorem loseState_sched (s : State) : (loseState s).sched = s.sched := rfl
@[simp] theorem loseState_pins (s : State) : (loseState s).pins = s.pins := rfl
@[simp] theorem loseState_stretch (s : State) : (loseState s).stretch = s.stretch := rfl
@[simp] theorem loseState_draws (s : State) : (loseState s).draws = s.draws + 1 := rfl

@[simp] theorem afterCtrl_cfg (s : State) : (afterCtrl s).cfg = s.cfg := rfl
@[simp] theorem afterCtrl_block (s : State) : (afterCtrl s).block = { s.block with phase := .gainPulsing, cnt := s.block.cnt + 1#5 } := rfl
@[simp] theorem afterCtrl_chan (s : State) : (afterCtrl s).chan = s.chan := rfl
@[simp] theorem afterCtrl_chip (s : State) : (afterCtrl s).chip = s.chip := rfl
@[simp] theorem afterCtrl_host (s : State) : (afterCtrl s).host = s.host := rfl
@[simp] theorem afterCtrl_sched (s : State) : (afterCtrl s).sched = s.sched := rfl
@[simp] theorem afterCtrl_pins (s : State) : (afterCtrl s).pins = s.pins := rfl
@[simp] theorem afterCtrl_stretch (s : State) : (afterCtrl s).stretch = s.stretch := rfl
@[simp] theorem afterCtrl_draws (s : State) : (afterCtrl s).draws = s.draws := rfl

@[simp] theorem takeBit_cfg (b : Bool) (s : State) : (takeBit b s).cfg = s.cfg := rfl
@[simp] theorem takeBit_block (b : Bool) (s : State) : (takeBit b s).block = { s.block with shift := shiftIn s.block.shift b } := rfl
@[simp] theorem takeBit_chan (b : Bool) (s : State) : (takeBit b s).chan = s.chan := rfl
@[simp] theorem takeBit_chip (b : Bool) (s : State) : (takeBit b s).chip = s.chip := rfl
@[simp] theorem takeBit_host (b : Bool) (s : State) : (takeBit b s).host = s.host := rfl
@[simp] theorem takeBit_sched (b : Bool) (s : State) : (takeBit b s).sched = s.sched := rfl
@[simp] theorem takeBit_pins (b : Bool) (s : State) : (takeBit b s).pins = s.pins := rfl
@[simp] theorem takeBit_stretch (b : Bool) (s : State) : (takeBit b s).stretch = s.stretch := rfl
@[simp] theorem takeBit_draws (b : Bool) (s : State) : (takeBit b s).draws = s.draws := rfl

@[simp] theorem dispatchHandler_cfg (s : State) : (dispatchHandler s).cfg = s.cfg := rfl
@[simp] theorem dispatchHandler_block (s : State) : (dispatchHandler s).block = s.block := rfl
@[simp] theorem dispatchHandler_chan (s : State) : (dispatchHandler s).chan = s.chan := rfl
@[simp] theorem dispatchHandler_chip (s : State) : (dispatchHandler s).chip = s.chip := rfl
@[simp] theorem dispatchHandler_host (s : State) : (dispatchHandler s).host = { s.host with inHandler := true, hd := .start } := rfl
@[simp] theorem dispatchHandler_sched (s : State) : (dispatchHandler s).sched = s.sched := rfl
@[simp] theorem dispatchHandler_pins (s : State) : (dispatchHandler s).pins = s.pins := rfl
@[simp] theorem dispatchHandler_stretch (s : State) : (dispatchHandler s).stretch = s.stretch := rfl
@[simp] theorem dispatchHandler_draws (s : State) : (dispatchHandler s).draws = s.draws := rfl

@[simp] theorem returnFromHandler_cfg (s : State) : (returnFromHandler s).cfg = s.cfg := rfl
@[simp] theorem returnFromHandler_block (s : State) : (returnFromHandler s).block = s.block := rfl
@[simp] theorem returnFromHandler_chan (s : State) : (returnFromHandler s).chan = s.chan := rfl
@[simp] theorem returnFromHandler_chip (s : State) : (returnFromHandler s).chip = s.chip := rfl
@[simp] theorem returnFromHandler_host (s : State) : (returnFromHandler s).host = { s.host with inHandler := false, hd := .idle } := rfl
@[simp] theorem returnFromHandler_sched (s : State) : (returnFromHandler s).sched = s.sched := rfl
@[simp] theorem returnFromHandler_pins (s : State) : (returnFromHandler s).pins = s.pins := rfl
@[simp] theorem returnFromHandler_stretch (s : State) : (returnFromHandler s).stretch = s.stretch := rfl
@[simp] theorem returnFromHandler_draws (s : State) : (returnFromHandler s).draws = s.draws := rfl

@[simp] theorem enterCs_cfg (s : State) : (enterCs s).cfg = s.cfg := rfl
@[simp] theorem enterCs_block (s : State) : (enterCs s).block = s.block := rfl
@[simp] theorem enterCs_chan (s : State) : (enterCs s).chan = s.chan := rfl
@[simp] theorem enterCs_chip (s : State) : (enterCs s).chip = s.chip := rfl
@[simp] theorem enterCs_host (s : State) : (enterCs s).host = { s.host with inCs := true } := rfl
@[simp] theorem enterCs_sched (s : State) : (enterCs s).sched = s.sched := rfl
@[simp] theorem enterCs_pins (s : State) : (enterCs s).pins = s.pins := rfl
@[simp] theorem enterCs_stretch (s : State) : (enterCs s).stretch = s.stretch := rfl
@[simp] theorem enterCs_draws (s : State) : (enterCs s).draws = s.draws := rfl

@[simp] theorem leaveCs_cfg (s : State) : (leaveCs s).cfg = s.cfg := rfl
@[simp] theorem leaveCs_block (s : State) : (leaveCs s).block = s.block := rfl
@[simp] theorem leaveCs_chan (s : State) : (leaveCs s).chan = s.chan := rfl
@[simp] theorem leaveCs_chip (s : State) : (leaveCs s).chip = s.chip := rfl
@[simp] theorem leaveCs_host (s : State) : (leaveCs s).host = { s.host with inCs := false } := rfl
@[simp] theorem leaveCs_sched (s : State) : (leaveCs s).sched = s.sched := rfl
@[simp] theorem leaveCs_pins (s : State) : (leaveCs s).pins = s.pins := rfl
@[simp] theorem leaveCs_stretch (s : State) : (leaveCs s).stretch = s.stretch := rfl
@[simp] theorem leaveCs_draws (s : State) : (leaveCs s).draws = s.draws := rfl

@[simp] theorem goto_cfg (p : FgPoint) (s : State) : (goto p s).cfg = s.cfg := rfl
@[simp] theorem goto_block (p : FgPoint) (s : State) : (goto p s).block = s.block := rfl
@[simp] theorem goto_chan (p : FgPoint) (s : State) : (goto p s).chan = s.chan := rfl
@[simp] theorem goto_chip (p : FgPoint) (s : State) : (goto p s).chip = s.chip := rfl
@[simp] theorem goto_host (p : FgPoint) (s : State) : (goto p s).host = { s.host with fg := p } := rfl
@[simp] theorem goto_sched (p : FgPoint) (s : State) : (goto p s).sched = s.sched := rfl
@[simp] theorem goto_pins (p : FgPoint) (s : State) : (goto p s).pins = s.pins := rfl
@[simp] theorem goto_stretch (p : FgPoint) (s : State) : (goto p s).stretch = s.stretch := rfl
@[simp] theorem goto_draws (p : FgPoint) (s : State) : (goto p s).draws = s.draws := rfl

@[simp] theorem handlerGoto_cfg (p : HdPoint) (s : State) : (handlerGoto p s).cfg = s.cfg := rfl
@[simp] theorem handlerGoto_block (p : HdPoint) (s : State) : (handlerGoto p s).block = s.block := rfl
@[simp] theorem handlerGoto_chan (p : HdPoint) (s : State) : (handlerGoto p s).chan = s.chan := rfl
@[simp] theorem handlerGoto_chip (p : HdPoint) (s : State) : (handlerGoto p s).chip = s.chip := rfl
@[simp] theorem handlerGoto_host (p : HdPoint) (s : State) : (handlerGoto p s).host = { s.host with hd := p } := rfl
@[simp] theorem handlerGoto_sched (p : HdPoint) (s : State) : (handlerGoto p s).sched = s.sched := rfl
@[simp] theorem handlerGoto_pins (p : HdPoint) (s : State) : (handlerGoto p s).pins = s.pins := rfl
@[simp] theorem handlerGoto_stretch (p : HdPoint) (s : State) : (handlerGoto p s).stretch = s.stretch := rfl
@[simp] theorem handlerGoto_draws (p : HdPoint) (s : State) : (handlerGoto p s).draws = s.draws := rfl

@[simp] theorem finish_cfg (r : HostResult) (s : State) : (finish r s).cfg = s.cfg := rfl
@[simp] theorem finish_block (r : HostResult) (s : State) : (finish r s).block = s.block := rfl
@[simp] theorem finish_chan (r : HostResult) (s : State) : (finish r s).chan = s.chan := rfl
@[simp] theorem finish_chip (r : HostResult) (s : State) : (finish r s).chip = s.chip := rfl
@[simp] theorem finish_host (r : HostResult) (s : State) : (finish r s).host = { s.host with fg := .idle, result := some r } := rfl
@[simp] theorem finish_sched (r : HostResult) (s : State) : (finish r s).sched = s.sched := rfl
@[simp] theorem finish_pins (r : HostResult) (s : State) : (finish r s).pins = s.pins := rfl
@[simp] theorem finish_stretch (r : HostResult) (s : State) : (finish r s).stretch = s.stretch := rfl
@[simp] theorem finish_draws (r : HostResult) (s : State) : (finish r s).draws = s.draws := rfl

@[simp] theorem leaveWith_cfg (r : HostResult) (s : State) : (leaveWith r s).cfg = s.cfg := rfl
@[simp] theorem leaveWith_block (r : HostResult) (s : State) : (leaveWith r s).block = s.block := rfl
@[simp] theorem leaveWith_chan (r : HostResult) (s : State) : (leaveWith r s).chan = s.chan := rfl
@[simp] theorem leaveWith_chip (r : HostResult) (s : State) : (leaveWith r s).chip = s.chip := rfl
@[simp] theorem leaveWith_host (r : HostResult) (s : State) : (leaveWith r s).host = { s.host with inCs := false, fg := .idle, result := some r } := rfl
@[simp] theorem leaveWith_sched (r : HostResult) (s : State) : (leaveWith r s).sched = s.sched := rfl
@[simp] theorem leaveWith_pins (r : HostResult) (s : State) : (leaveWith r s).pins = s.pins := rfl
@[simp] theorem leaveWith_stretch (r : HostResult) (s : State) : (leaveWith r s).stretch = s.stretch := rfl
@[simp] theorem leaveWith_draws (r : HostResult) (s : State) : (leaveWith r s).draws = s.draws := rfl

@[simp] theorem issue_cfg (i : Instr) (p : FgPoint) (s : State) : (issue i p s).cfg = s.cfg := rfl
@[simp] theorem issue_block (i : Instr) (p : FgPoint) (s : State) : (issue i p s).block = s.block := rfl
@[simp] theorem issue_chan (i : Instr) (p : FgPoint) (s : State) : (issue i p s).chan = { cmd := some (encode i), response := none } := rfl
@[simp] theorem issue_chip (i : Instr) (p : FgPoint) (s : State) : (issue i p s).chip = s.chip := rfl
@[simp] theorem issue_host (i : Instr) (p : FgPoint) (s : State) : (issue i p s).host = { s.host with inCs := true, fg := p } := rfl
@[simp] theorem issue_sched (i : Instr) (p : FgPoint) (s : State) : (issue i p s).sched = s.sched := rfl
@[simp] theorem issue_pins (i : Instr) (p : FgPoint) (s : State) : (issue i p s).pins = s.pins := rfl
@[simp] theorem issue_stretch (i : Instr) (p : FgPoint) (s : State) : (issue i p s).stretch = s.stretch := rfl
@[simp] theorem issue_draws (i : Instr) (p : FgPoint) (s : State) : (issue i p s).draws = s.draws := rfl

@[simp] theorem handlerIssue_cfg (i : Instr) (p : HdPoint) (s : State) : (handlerIssue i p s).cfg = s.cfg := rfl
@[simp] theorem handlerIssue_block (i : Instr) (p : HdPoint) (s : State) : (handlerIssue i p s).block = s.block := rfl
@[simp] theorem handlerIssue_chan (i : Instr) (p : HdPoint) (s : State) : (handlerIssue i p s).chan = { cmd := some (encode i), response := none } := rfl
@[simp] theorem handlerIssue_chip (i : Instr) (p : HdPoint) (s : State) : (handlerIssue i p s).chip = s.chip := rfl
@[simp] theorem handlerIssue_host (i : Instr) (p : HdPoint) (s : State) : (handlerIssue i p s).host = { s.host with hd := p } := rfl
@[simp] theorem handlerIssue_sched (i : Instr) (p : HdPoint) (s : State) : (handlerIssue i p s).sched = s.sched := rfl
@[simp] theorem handlerIssue_pins (i : Instr) (p : HdPoint) (s : State) : (handlerIssue i p s).pins = s.pins := rfl
@[simp] theorem handlerIssue_stretch (i : Instr) (p : HdPoint) (s : State) : (handlerIssue i p s).stretch = s.stretch := rfl
@[simp] theorem handlerIssue_draws (i : Instr) (p : HdPoint) (s : State) : (handlerIssue i p s).draws = s.draws := rfl

@[simp] theorem placeWord_cfg (w : Nat) (s : State) : (placeWord w s).cfg = s.cfg := rfl
@[simp] theorem placeWord_block (w : Nat) (s : State) : (placeWord w s).block = { s.block with phase := .idle, cnt := 0#5, fault := false } := rfl
@[simp] theorem placeWord_chan (w : Nat) (s : State) : (placeWord w s).chan = { s.chan with cmd := some (BitVec.ofNat 8 w) } := rfl
@[simp] theorem placeWord_chip (w : Nat) (s : State) : (placeWord w s).chip = s.chip := rfl
@[simp] theorem placeWord_host (w : Nat) (s : State) : (placeWord w s).host = s.host := rfl
@[simp] theorem placeWord_sched (w : Nat) (s : State) : (placeWord w s).sched = [] := rfl
@[simp] theorem placeWord_pins (w : Nat) (s : State) : (placeWord w s).pins = s.pins := rfl
@[simp] theorem placeWord_stretch (w : Nat) (s : State) : (placeWord w s).stretch = s.stretch := rfl
@[simp] theorem placeWord_draws (w : Nat) (s : State) : (placeWord w s).draws = s.draws := rfl

end Sys2Proof.Machine
end

