-- ==== Sys2Proof/Laws/Ops.lean ====
section
/-! SUPPORT. Frames of the operations on the chip's side and on the edge detector: what each of them
leaves as it was. -/

namespace Sys2Proof.Machine

@[simp] theorem fallingEdge_cfg (s : State) : (fallingEdge s).cfg = s.cfg := by
  unfold fallingEdge; split <;> rfl
@[simp] theorem fallingEdge_chan (s : State) : (fallingEdge s).chan = s.chan := by
  unfold fallingEdge; split <;> rfl
@[simp] theorem fallingEdge_host (s : State) : (fallingEdge s).host = s.host := by
  unfold fallingEdge; split <;> rfl
@[simp] theorem fallingEdge_sched (s : State) : (fallingEdge s).sched = s.sched := by
  unfold fallingEdge; split <;> rfl
@[simp] theorem fallingEdge_pins (s : State) : (fallingEdge s).pins = s.pins := by
  unfold fallingEdge; split <;> rfl
@[simp] theorem fallingEdge_stretch (s : State) : (fallingEdge s).stretch = s.stretch := by
  unfold fallingEdge; split <;> rfl
@[simp] theorem fallingEdge_block_clk (s : State) : (fallingEdge s).block.clk = s.block.clk := by
  unfold fallingEdge; split <;> rfl
@[simp] theorem fallingEdge_block_gain (s : State) : (fallingEdge s).block.gain = s.block.gain := by
  unfold fallingEdge; split <;> rfl
@[simp] theorem fallingEdge_block_phase (s : State) : (fallingEdge s).block.phase = s.block.phase := by
  unfold fallingEdge; split <;> rfl
@[simp] theorem fallingEdge_block_cnt (s : State) : (fallingEdge s).block.cnt = s.block.cnt := by
  unfold fallingEdge; split <;> rfl
@[simp] theorem fallingEdge_block_shift (s : State) : (fallingEdge s).block.shift = s.block.shift := by
  unfold fallingEdge; split <;> rfl
@[simp] theorem fallingEdge_block_result (s : State) : (fallingEdge s).block.result = s.block.result := by
  unfold fallingEdge; split <;> rfl
@[simp] theorem fallingEdge_block_fault (s : State) : (fallingEdge s).block.fault = s.block.fault := by
  unfold fallingEdge; split <;> rfl
@[simp] theorem fallingEdge_block_listen (s : State) : (fallingEdge s).block.listen = s.block.listen := by
  unfold fallingEdge; split <;> rfl
@[simp] theorem fallingEdge_block_faultInfo (s : State) : (fallingEdge s).block.faultInfo = s.block.faultInfo := by
  unfold fallingEdge; split <;> rfl
@[simp] theorem fallingEdge_chip (s : State) : (fallingEdge s).chip = s.chip := by
  unfold fallingEdge; split <;> rfl
@[simp] theorem fallingEdge_block_dinPrev (s : State) : (fallingEdge s).block.dinPrev = s.block.dinPrev := by
  unfold fallingEdge; split <;> rfl

@[simp] theorem edgeStep_cfg (v : Bool) (s : State) : (edgeStep v s).cfg = s.cfg := by
  unfold edgeStep; dsimp only; split <;> simp
@[simp] theorem edgeStep_chan (v : Bool) (s : State) : (edgeStep v s).chan = s.chan := by
  unfold edgeStep; dsimp only; split <;> simp
@[simp] theorem edgeStep_host (v : Bool) (s : State) : (edgeStep v s).host = s.host := by
  unfold edgeStep; dsimp only; split <;> simp
@[simp] theorem edgeStep_sched (v : Bool) (s : State) : (edgeStep v s).sched = s.sched := by
  unfold edgeStep; dsimp only; split <;> simp
@[simp] theorem edgeStep_pins (v : Bool) (s : State) : (edgeStep v s).pins = s.pins := by
  unfold edgeStep; dsimp only; split <;> simp
@[simp] theorem edgeStep_stretch (v : Bool) (s : State) : (edgeStep v s).stretch = s.stretch := by
  unfold edgeStep; dsimp only; split <;> simp
@[simp] theorem edgeStep_block_clk (v : Bool) (s : State) : (edgeStep v s).block.clk = s.block.clk := by
  unfold edgeStep; dsimp only; split <;> simp
@[simp] theorem edgeStep_block_gain (v : Bool) (s : State) : (edgeStep v s).block.gain = s.block.gain := by
  unfold edgeStep; dsimp only; split <;> simp
@[simp] theorem edgeStep_block_phase (v : Bool) (s : State) : (edgeStep v s).block.phase = s.block.phase := by
  unfold edgeStep; dsimp only; split <;> simp
@[simp] theorem edgeStep_block_cnt (v : Bool) (s : State) : (edgeStep v s).block.cnt = s.block.cnt := by
  unfold edgeStep; dsimp only; split <;> simp
@[simp] theorem edgeStep_block_shift (v : Bool) (s : State) : (edgeStep v s).block.shift = s.block.shift := by
  unfold edgeStep; dsimp only; split <;> simp
@[simp] theorem edgeStep_block_result (v : Bool) (s : State) : (edgeStep v s).block.result = s.block.result := by
  unfold edgeStep; dsimp only; split <;> simp
@[simp] theorem edgeStep_block_fault (v : Bool) (s : State) : (edgeStep v s).block.fault = s.block.fault := by
  unfold edgeStep; dsimp only; split <;> simp
@[simp] theorem edgeStep_block_listen (v : Bool) (s : State) : (edgeStep v s).block.listen = s.block.listen := by
  unfold edgeStep; dsimp only; split <;> simp
@[simp] theorem edgeStep_block_faultInfo (v : Bool) (s : State) : (edgeStep v s).block.faultInfo = s.block.faultInfo := by
  unfold edgeStep; dsimp only; split <;> simp
@[simp] theorem edgeStep_chip (v : Bool) (s : State) : (edgeStep v s).chip = s.chip := by
  unfold edgeStep; dsimp only; split <;> simp

@[simp] theorem edgeDetect_cfg (v : Bool) (s : State) : (edgeDetect v s).cfg = s.cfg := by
  unfold edgeDetect; split <;> simp
@[simp] theorem edgeDetect_chan (v : Bool) (s : State) : (edgeDetect v s).chan = s.chan := by
  unfold edgeDetect; split <;> simp
@[simp] theorem edgeDetect_host (v : Bool) (s : State) : (edgeDetect v s).host = s.host := by
  unfold edgeDetect; split <;> simp
@[simp] theorem edgeDetect_sched (v : Bool) (s : State) : (edgeDetect v s).sched = s.sched := by
  unfold edgeDetect; split <;> simp
@[simp] theorem edgeDetect_pins (v : Bool) (s : State) : (edgeDetect v s).pins = s.pins := by
  unfold edgeDetect; split <;> simp
@[simp] theorem edgeDetect_stretch (v : Bool) (s : State) : (edgeDetect v s).stretch = s.stretch := by
  unfold edgeDetect; split <;> simp
@[simp] theorem edgeDetect_block_clk (v : Bool) (s : State) : (edgeDetect v s).block.clk = s.block.clk := by
  unfold edgeDetect; split <;> simp
@[simp] theorem edgeDetect_block_gain (v : Bool) (s : State) : (edgeDetect v s).block.gain = s.block.gain := by
  unfold edgeDetect; split <;> simp
@[simp] theorem edgeDetect_block_phase (v : Bool) (s : State) : (edgeDetect v s).block.phase = s.block.phase := by
  unfold edgeDetect; split <;> simp
@[simp] theorem edgeDetect_block_cnt (v : Bool) (s : State) : (edgeDetect v s).block.cnt = s.block.cnt := by
  unfold edgeDetect; split <;> simp
@[simp] theorem edgeDetect_block_shift (v : Bool) (s : State) : (edgeDetect v s).block.shift = s.block.shift := by
  unfold edgeDetect; split <;> simp
@[simp] theorem edgeDetect_block_result (v : Bool) (s : State) : (edgeDetect v s).block.result = s.block.result := by
  unfold edgeDetect; split <;> simp
@[simp] theorem edgeDetect_block_fault (v : Bool) (s : State) : (edgeDetect v s).block.fault = s.block.fault := by
  unfold edgeDetect; split <;> simp
@[simp] theorem edgeDetect_block_listen (v : Bool) (s : State) : (edgeDetect v s).block.listen = s.block.listen := by
  unfold edgeDetect; split <;> simp
@[simp] theorem edgeDetect_block_faultInfo (v : Bool) (s : State) : (edgeDetect v s).block.faultInfo = s.block.faultInfo := by
  unfold edgeDetect; split <;> simp
@[simp] theorem edgeDetect_chip (v : Bool) (s : State) : (edgeDetect v s).chip = s.chip := by
  unfold edgeDetect; split <;> simp

@[simp] theorem driveDin_cfg (v : Bool) (s : State) : (driveDin v s).cfg = s.cfg := by
  unfold driveDin; split <;> simp
@[simp] theorem driveDin_chan (v : Bool) (s : State) : (driveDin v s).chan = s.chan := by
  unfold driveDin; split <;> simp
@[simp] theorem driveDin_host (v : Bool) (s : State) : (driveDin v s).host = s.host := by
  unfold driveDin; split <;> simp
@[simp] theorem driveDin_sched (v : Bool) (s : State) : (driveDin v s).sched = s.sched := by
  unfold driveDin; split <;> simp
@[simp] theorem driveDin_pins (v : Bool) (s : State) : (driveDin v s).pins = s.pins := by
  unfold driveDin; split <;> simp
@[simp] theorem driveDin_stretch (v : Bool) (s : State) : (driveDin v s).stretch = s.stretch := by
  unfold driveDin; split <;> simp
@[simp] theorem driveDin_block_clk (v : Bool) (s : State) : (driveDin v s).block.clk = s.block.clk := by
  unfold driveDin; split <;> simp
@[simp] theorem driveDin_block_gain (v : Bool) (s : State) : (driveDin v s).block.gain = s.block.gain := by
  unfold driveDin; split <;> simp
@[simp] theorem driveDin_block_phase (v : Bool) (s : State) : (driveDin v s).block.phase = s.block.phase := by
  unfold driveDin; split <;> simp
@[simp] theorem driveDin_block_cnt (v : Bool) (s : State) : (driveDin v s).block.cnt = s.block.cnt := by
  unfold driveDin; split <;> simp
@[simp] theorem driveDin_block_shift (v : Bool) (s : State) : (driveDin v s).block.shift = s.block.shift := by
  unfold driveDin; split <;> simp
@[simp] theorem driveDin_block_result (v : Bool) (s : State) : (driveDin v s).block.result = s.block.result := by
  unfold driveDin; split <;> simp
@[simp] theorem driveDin_block_fault (v : Bool) (s : State) : (driveDin v s).block.fault = s.block.fault := by
  unfold driveDin; split <;> simp
@[simp] theorem driveDin_block_listen (v : Bool) (s : State) : (driveDin v s).block.listen = s.block.listen := by
  unfold driveDin; split <;> simp
@[simp] theorem driveDin_block_faultInfo (v : Bool) (s : State) : (driveDin v s).block.faultInfo = s.block.faultInfo := by
  unfold driveDin; split <;> simp
@[simp] theorem driveDin_chip_conv (v : Bool) (s : State) : (driveDin v s).chip.conv = s.chip.conv := by
  unfold driveDin; split <;> simp
@[simp] theorem driveDin_chip_convMode (v : Bool) (s : State) : (driveDin v s).chip.convMode = s.chip.convMode := by
  unfold driveDin; split <;> simp
@[simp] theorem driveDin_chip_nextGain (v : Bool) (s : State) : (driveDin v s).chip.nextGain = s.chip.nextGain := by
  unfold driveDin; split <;> simp
@[simp] theorem driveDin_chip_source (v : Bool) (s : State) : (driveDin v s).chip.source = s.chip.source := by
  unfold driveDin; split <;> simp
@[simp] theorem driveDin_chip_pulses (v : Bool) (s : State) : (driveDin v s).chip.pulses = s.chip.pulses := by
  unfold driveDin; split <;> simp

@[simp] theorem chipDrive_cfg (v : Bool) (s : State) : (chipDrive v s).cfg = s.cfg := by
  unfold chipDrive; repeat' split
  all_goals simp
@[simp] theorem chipDrive_chan (v : Bool) (s : State) : (chipDrive v s).chan = s.chan := by
  unfold chipDrive; repeat' split
  all_goals simp
@[simp] theorem chipDrive_host (v : Bool) (s : State) : (chipDrive v s).host = s.host := by
  unfold chipDrive; repeat' split
  all_goals simp
@[simp] theorem chipDrive_sched (v : Bool) (s : State) : (chipDrive v s).sched = s.sched := by
  unfold chipDrive; repeat' split
  all_goals simp
@[simp] theorem chipDrive_pins (v : Bool) (s : State) : (chipDrive v s).pins = s.pins := by
  unfold chipDrive; repeat' split
  all_goals simp
@[simp] theorem chipDrive_stretch (v : Bool) (s : State) : (chipDrive v s).stretch = s.stretch := by
  unfold chipDrive; repeat' split
  all_goals simp
@[simp] theorem chipDrive_block_clk (v : Bool) (s : State) : (chipDrive v s).block.clk = s.block.clk := by
  unfold chipDrive; repeat' split
  all_goals simp
@[simp] theorem chipDrive_block_gain (v : Bool) (s : State) : (chipDrive v s).block.gain = s.block.gain := by
  unfold chipDrive; repeat' split
  all_goals simp
@[simp] theorem chipDrive_block_phase (v : Bool) (s : State) : (chipDrive v s).block.phase = s.block.phase := by
  unfold chipDrive; repeat' split
  all_goals simp
@[simp] theorem chipDrive_block_cnt (v : Bool) (s : State) : (chipDrive v s).block.cnt = s.block.cnt := by
  unfold chipDrive; repeat' split
  all_goals simp
@[simp] theorem chipDrive_block_shift (v : Bool) (s : State) : (chipDrive v s).block.shift = s.block.shift := by
  unfold chipDrive; repeat' split
  all_goals simp
@[simp] theorem chipDrive_block_result (v : Bool) (s : State) : (chipDrive v s).block.result = s.block.result := by
  unfold chipDrive; repeat' split
  all_goals simp
@[simp] theorem chipDrive_block_fault (v : Bool) (s : State) : (chipDrive v s).block.fault = s.block.fault := by
  unfold chipDrive; repeat' split
  all_goals simp
@[simp] theorem chipDrive_block_listen (v : Bool) (s : State) : (chipDrive v s).block.listen = s.block.listen := by
  unfold chipDrive; repeat' split
  all_goals simp
@[simp] theorem chipDrive_block_faultInfo (v : Bool) (s : State) : (chipDrive v s).block.faultInfo = s.block.faultInfo := by
  unfold chipDrive; repeat' split
  all_goals simp
@[simp] theorem chipDrive_chip_nextGain (v : Bool) (s : State) : (chipDrive v s).chip.nextGain = s.chip.nextGain := by
  unfold chipDrive; repeat' split
  all_goals simp
@[simp] theorem chipDrive_chip_source (v : Bool) (s : State) : (chipDrive v s).chip.source = s.chip.source := by
  unfold chipDrive; repeat' split
  all_goals simp
@[simp] theorem chipDrive_chip_pulses (v : Bool) (s : State) : (chipDrive v s).chip.pulses = s.chip.pulses := by
  unfold chipDrive; repeat' split
  all_goals simp

@[simp] theorem chipReady_cfg (w : Raw24) (s : State) : (chipReady w s).cfg = s.cfg := by
  unfold chipReady; split <;> simp
@[simp] theorem chipReady_chan (w : Raw24) (s : State) : (chipReady w s).chan = s.chan := by
  unfold chipReady; split <;> simp
@[simp] theorem chipReady_host (w : Raw24) (s : State) : (chipReady w s).host = s.host := by
  unfold chipReady; split <;> simp
@[simp] theorem chipReady_sched (w : Raw24) (s : State) : (chipReady w s).sched = s.sched := by
  unfold chipReady; split <;> simp
@[simp] theorem chipReady_pins (w : Raw24) (s : State) : (chipReady w s).pins = s.pins := by
  unfold chipReady; split <;> simp
@[simp] theorem chipReady_stretch (w : Raw24) (s : State) : (chipReady w s).stretch = s.stretch := by
  unfold chipReady; split <;> simp
@[simp] theorem chipReady_block_clk (w : Raw24) (s : State) : (chipReady w s).block.clk = s.block.clk := by
  unfold chipReady; split <;> simp
@[simp] theorem chipReady_block_gain (w : Raw24) (s : State) : (chipReady w s).block.gain = s.block.gain := by
  unfold chipReady; split <;> simp
@[simp] theorem chipReady_block_phase (w : Raw24) (s : State) : (chipReady w s).block.phase = s.block.phase := by
  unfold chipReady; split <;> simp
@[simp] theorem chipReady_block_cnt (w : Raw24) (s : State) : (chipReady w s).block.cnt = s.block.cnt := by
  unfold chipReady; split <;> simp
@[simp] theorem chipReady_block_shift (w : Raw24) (s : State) : (chipReady w s).block.shift = s.block.shift := by
  unfold chipReady; split <;> simp
@[simp] theorem chipReady_block_result (w : Raw24) (s : State) : (chipReady w s).block.result = s.block.result := by
  unfold chipReady; split <;> simp
@[simp] theorem chipReady_block_fault (w : Raw24) (s : State) : (chipReady w s).block.fault = s.block.fault := by
  unfold chipReady; split <;> simp
@[simp] theorem chipReady_block_listen (w : Raw24) (s : State) : (chipReady w s).block.listen = s.block.listen := by
  unfold chipReady; split <;> simp
@[simp] theorem chipReady_block_faultInfo (w : Raw24) (s : State) : (chipReady w s).block.faultInfo = s.block.faultInfo := by
  unfold chipReady; split <;> simp
@[simp] theorem chipReady_chip_nextGain (w : Raw24) (s : State) : (chipReady w s).chip.nextGain = s.chip.nextGain := by
  unfold chipReady; split <;> simp
@[simp] theorem chipReady_chip_source (w : Raw24) (s : State) : (chipReady w s).chip.source = s.chip.source := by
  unfold chipReady; split <;> simp
@[simp] theorem chipReady_chip_pulses (w : Raw24) (s : State) : (chipReady w s).chip.pulses = s.chip.pulses := by
  unfold chipReady; split <;> simp

@[simp] theorem powerDown_cfg (s : State) : (powerDown s).cfg = s.cfg := by
  simp [powerDown]
@[simp] theorem powerDown_chan (s : State) : (powerDown s).chan = s.chan := by
  simp [powerDown]
@[simp] theorem powerDown_host (s : State) : (powerDown s).host = s.host := by
  simp [powerDown]
@[simp] theorem powerDown_sched (s : State) : (powerDown s).sched = s.sched := by
  simp [powerDown]
@[simp] theorem powerDown_pins (s : State) : (powerDown s).pins = s.pins := by
  simp [powerDown]
@[simp] theorem powerDown_stretch (s : State) : (powerDown s).stretch = s.stretch := by
  simp [powerDown]
@[simp] theorem powerDown_block_clk (s : State) : (powerDown s).block.clk = s.block.clk := by
  simp [powerDown]
@[simp] theorem powerDown_block_gain (s : State) : (powerDown s).block.gain = s.block.gain := by
  simp [powerDown]
@[simp] theorem powerDown_block_phase (s : State) : (powerDown s).block.phase = s.block.phase := by
  simp [powerDown]
@[simp] theorem powerDown_block_cnt (s : State) : (powerDown s).block.cnt = s.block.cnt := by
  simp [powerDown]
@[simp] theorem powerDown_block_shift (s : State) : (powerDown s).block.shift = s.block.shift := by
  simp [powerDown]
@[simp] theorem powerDown_block_result (s : State) : (powerDown s).block.result = s.block.result := by
  simp [powerDown]
@[simp] theorem powerDown_block_fault (s : State) : (powerDown s).block.fault = s.block.fault := by
  simp [powerDown]
@[simp] theorem powerDown_block_listen (s : State) : (powerDown s).block.listen = s.block.listen := by
  simp [powerDown]
@[simp] theorem powerDown_block_faultInfo (s : State) : (powerDown s).block.faultInfo = s.block.faultInfo := by
  simp [powerDown]
@[simp] theorem powerDown_chip_convMode (s : State) : (powerDown s).chip.convMode = s.chip.convMode := by
  simp [powerDown]
@[simp] theorem powerDown_chip_pulses (s : State) : (powerDown s).chip.pulses = s.chip.pulses := by
  simp [powerDown]

@[simp] theorem holdHigh_cfg (s : State) : (holdHigh s).cfg = s.cfg := by
  unfold holdHigh; dsimp only; split <;> simp
@[simp] theorem holdHigh_chan (s : State) : (holdHigh s).chan = s.chan := by
  unfold holdHigh; dsimp only; split <;> simp
@[simp] theorem holdHigh_host (s : State) : (holdHigh s).host = s.host := by
  unfold holdHigh; dsimp only; split <;> simp
@[simp] theorem holdHigh_sched (s : State) : (holdHigh s).sched = s.sched := by
  unfold holdHigh; dsimp only; split <;> simp
@[simp] theorem holdHigh_pins (s : State) : (holdHigh s).pins = s.pins := by
  unfold holdHigh; dsimp only; split <;> simp
@[simp] theorem holdHigh_block_clk (s : State) : (holdHigh s).block.clk = s.block.clk := by
  unfold holdHigh; dsimp only; split <;> simp
@[simp] theorem holdHigh_block_gain (s : State) : (holdHigh s).block.gain = s.block.gain := by
  unfold holdHigh; dsimp only; split <;> simp
@[simp] theorem holdHigh_block_phase (s : State) : (holdHigh s).block.phase = s.block.phase := by
  unfold holdHigh; dsimp only; split <;> simp
@[simp] theorem holdHigh_block_cnt (s : State) : (holdHigh s).block.cnt = s.block.cnt := by
  unfold holdHigh; dsimp only; split <;> simp
@[simp] theorem holdHigh_block_shift (s : State) : (holdHigh s).block.shift = s.block.shift := by
  unfold holdHigh; dsimp only; split <;> simp
@[simp] theorem holdHigh_block_result (s : State) : (holdHigh s).block.result = s.block.result := by
  unfold holdHigh; dsimp only; split <;> simp
@[simp] theorem holdHigh_block_fault (s : State) : (holdHigh s).block.fault = s.block.fault := by
  unfold holdHigh; dsimp only; split <;> simp
@[simp] theorem holdHigh_block_listen (s : State) : (holdHigh s).block.listen = s.block.listen := by
  unfold holdHigh; dsimp only; split <;> simp
@[simp] theorem holdHigh_block_faultInfo (s : State) : (holdHigh s).block.faultInfo = s.block.faultInfo := by
  unfold holdHigh; dsimp only; split <;> simp
@[simp] theorem holdHigh_chip_convMode (s : State) : (holdHigh s).chip.convMode = s.chip.convMode := by
  unfold holdHigh; dsimp only; split <;> simp
@[simp] theorem holdHigh_chip_pulses (s : State) : (holdHigh s).chip.pulses = s.chip.pulses := by
  unfold holdHigh; dsimp only; split <;> simp

@[simp] theorem stretchClock_cfg (us : Nat) (s : State) : (stretchClock us s).cfg = s.cfg := by
  unfold stretchClock; dsimp only; split <;> simp
@[simp] theorem stretchClock_chan (us : Nat) (s : State) : (stretchClock us s).chan = s.chan := by
  unfold stretchClock; dsimp only; split <;> simp
@[simp] theorem stretchClock_host (us : Nat) (s : State) : (stretchClock us s).host = s.host := by
  unfold stretchClock; dsimp only; split <;> simp
@[simp] theorem stretchClock_sched (us : Nat) (s : State) : (stretchClock us s).sched = s.sched := by
  unfold stretchClock; dsimp only; split <;> simp
@[simp] theorem stretchClock_pins (us : Nat) (s : State) : (stretchClock us s).pins = s.pins := by
  unfold stretchClock; dsimp only; split <;> simp
@[simp] theorem stretchClock_block_clk (us : Nat) (s : State) : (stretchClock us s).block.clk = s.block.clk := by
  unfold stretchClock; dsimp only; split <;> simp
@[simp] theorem stretchClock_block_gain (us : Nat) (s : State) : (stretchClock us s).block.gain = s.block.gain := by
  unfold stretchClock; dsimp only; split <;> simp
@[simp] theorem stretchClock_block_phase (us : Nat) (s : State) : (stretchClock us s).block.phase = s.block.phase := by
  unfold stretchClock; dsimp only; split <;> simp
@[simp] theorem stretchClock_block_cnt (us : Nat) (s : State) : (stretchClock us s).block.cnt = s.block.cnt := by
  unfold stretchClock; dsimp only; split <;> simp
@[simp] theorem stretchClock_block_shift (us : Nat) (s : State) : (stretchClock us s).block.shift = s.block.shift := by
  unfold stretchClock; dsimp only; split <;> simp
@[simp] theorem stretchClock_block_result (us : Nat) (s : State) : (stretchClock us s).block.result = s.block.result := by
  unfold stretchClock; dsimp only; split <;> simp
@[simp] theorem stretchClock_block_fault (us : Nat) (s : State) : (stretchClock us s).block.fault = s.block.fault := by
  unfold stretchClock; dsimp only; split <;> simp
@[simp] theorem stretchClock_block_listen (us : Nat) (s : State) : (stretchClock us s).block.listen = s.block.listen := by
  unfold stretchClock; dsimp only; split <;> simp
@[simp] theorem stretchClock_block_faultInfo (us : Nat) (s : State) : (stretchClock us s).block.faultInfo = s.block.faultInfo := by
  unfold stretchClock; dsimp only; split <;> simp
@[simp] theorem stretchClock_chip_convMode (us : Nat) (s : State) : (stretchClock us s).chip.convMode = s.chip.convMode := by
  unfold stretchClock; dsimp only; split <;> simp
@[simp] theorem stretchClock_chip_pulses (us : Nat) (s : State) : (stretchClock us s).chip.pulses = s.chip.pulses := by
  unfold stretchClock; dsimp only; split <;> simp

@[simp] theorem chipShiftOut_cfg (s : State) : (chipShiftOut s).cfg = s.cfg := by
  unfold chipShiftOut; split <;> simp
@[simp] theorem chipShiftOut_chan (s : State) : (chipShiftOut s).chan = s.chan := by
  unfold chipShiftOut; split <;> simp
@[simp] theorem chipShiftOut_host (s : State) : (chipShiftOut s).host = s.host := by
  unfold chipShiftOut; split <;> simp
@[simp] theorem chipShiftOut_sched (s : State) : (chipShiftOut s).sched = s.sched := by
  unfold chipShiftOut; split <;> simp
@[simp] theorem chipShiftOut_pins (s : State) : (chipShiftOut s).pins = s.pins := by
  unfold chipShiftOut; split <;> simp
@[simp] theorem chipShiftOut_stretch (s : State) : (chipShiftOut s).stretch = s.stretch := by
  unfold chipShiftOut; split <;> simp
@[simp] theorem chipShiftOut_block_clk (s : State) : (chipShiftOut s).block.clk = s.block.clk := by
  unfold chipShiftOut; split <;> simp
@[simp] theorem chipShiftOut_block_gain (s : State) : (chipShiftOut s).block.gain = s.block.gain := by
  unfold chipShiftOut; split <;> simp
@[simp] theorem chipShiftOut_block_phase (s : State) : (chipShiftOut s).block.phase = s.block.phase := by
  unfold chipShiftOut; split <;> simp
@[simp] theorem chipShiftOut_block_cnt (s : State) : (chipShiftOut s).block.cnt = s.block.cnt := by
  unfold chipShiftOut; split <;> simp
@[simp] theorem chipShiftOut_block_shift (s : State) : (chipShiftOut s).block.shift = s.block.shift := by
  unfold chipShiftOut; split <;> simp
@[simp] theorem chipShiftOut_block_result (s : State) : (chipShiftOut s).block.result = s.block.result := by
  unfold chipShiftOut; split <;> simp
@[simp] theorem chipShiftOut_block_fault (s : State) : (chipShiftOut s).block.fault = s.block.fault := by
  unfold chipShiftOut; split <;> simp
@[simp] theorem chipShiftOut_block_listen (s : State) : (chipShiftOut s).block.listen = s.block.listen := by
  unfold chipShiftOut; split <;> simp
@[simp] theorem chipShiftOut_block_faultInfo (s : State) : (chipShiftOut s).block.faultInfo = s.block.faultInfo := by
  unfold chipShiftOut; split <;> simp
@[simp] theorem chipShiftOut_chip_conv (s : State) : (chipShiftOut s).chip.conv = s.chip.conv := by
  unfold chipShiftOut; split <;> simp
@[simp] theorem chipShiftOut_chip_convMode (s : State) : (chipShiftOut s).chip.convMode = s.chip.convMode := by
  unfold chipShiftOut; split <;> simp
@[simp] theorem chipShiftOut_chip_nextGain (s : State) : (chipShiftOut s).chip.nextGain = s.chip.nextGain := by
  unfold chipShiftOut; split <;> simp
@[simp] theorem chipShiftOut_chip_source (s : State) : (chipShiftOut s).chip.source = s.chip.source := by
  unfold chipShiftOut; split <;> simp
@[simp] theorem chipShiftOut_chip_pulses (s : State) : (chipShiftOut s).chip.pulses = s.chip.pulses := by
  unfold chipShiftOut; split <;> simp

@[simp] theorem takeGain_cfg (s : State) : (takeGain s).cfg = s.cfg := by
  unfold takeGain; split; · rfl
  split <;> rfl
@[simp] theorem takeGain_chan (s : State) : (takeGain s).chan = s.chan := by
  unfold takeGain; split; · rfl
  split <;> rfl
@[simp] theorem takeGain_host (s : State) : (takeGain s).host = s.host := by
  unfold takeGain; split; · rfl
  split <;> rfl
@[simp] theorem takeGain_sched (s : State) : (takeGain s).sched = s.sched := by
  unfold takeGain; split; · rfl
  split <;> rfl
@[simp] theorem takeGain_pins (s : State) : (takeGain s).pins = s.pins := by
  unfold takeGain; split; · rfl
  split <;> rfl
@[simp] theorem takeGain_stretch (s : State) : (takeGain s).stretch = s.stretch := by
  unfold takeGain; split; · rfl
  split <;> rfl
@[simp] theorem takeGain_block (s : State) : (takeGain s).block = s.block := by
  unfold takeGain; split; · rfl
  split <;> rfl
@[simp] theorem takeGain_chip_din (s : State) : (takeGain s).chip.din = s.chip.din := by
  unfold takeGain; split; · rfl
  split <;> rfl
@[simp] theorem takeGain_chip_conv (s : State) : (takeGain s).chip.conv = s.chip.conv := by
  unfold takeGain; split; · rfl
  split <;> rfl
@[simp] theorem takeGain_chip_convMode (s : State) : (takeGain s).chip.convMode = s.chip.convMode := by
  unfold takeGain; split; · rfl
  split <;> rfl
@[simp] theorem takeGain_chip_sync (s : State) : (takeGain s).chip.sync = s.chip.sync := by
  unfold takeGain; split; · rfl
  split <;> rfl
@[simp] theorem takeGain_chip_source (s : State) : (takeGain s).chip.source = s.chip.source := by
  unfold takeGain; split; · rfl
  split <;> rfl
@[simp] theorem takeGain_chip_pulses (s : State) : (takeGain s).chip.pulses = s.chip.pulses := by
  unfold takeGain; split; · rfl
  split <;> rfl

@[simp] theorem chipEndFrame_cfg (s : State) : (chipEndFrame s).cfg = s.cfg := by
  simp [chipEndFrame]
@[simp] theorem chipEndFrame_chan (s : State) : (chipEndFrame s).chan = s.chan := by
  simp [chipEndFrame]
@[simp] theorem chipEndFrame_host (s : State) : (chipEndFrame s).host = s.host := by
  simp [chipEndFrame]
@[simp] theorem chipEndFrame_sched (s : State) : (chipEndFrame s).sched = s.sched := by
  simp [chipEndFrame]
@[simp] theorem chipEndFrame_pins (s : State) : (chipEndFrame s).pins = s.pins := by
  simp [chipEndFrame]
@[simp] theorem chipEndFrame_stretch (s : State) : (chipEndFrame s).stretch = s.stretch := by
  simp [chipEndFrame]
@[simp] theorem chipEndFrame_block (s : State) : (chipEndFrame s).block = s.block := by
  simp [chipEndFrame]
@[simp] theorem chipEndFrame_chip_din (s : State) : (chipEndFrame s).chip.din = s.chip.din := by
  simp [chipEndFrame]
@[simp] theorem chipEndFrame_chip_sync (s : State) : (chipEndFrame s).chip.sync = s.chip.sync := by
  simp [chipEndFrame]
@[simp] theorem chipEndFrame_chip_source (s : State) : (chipEndFrame s).chip.source = s.chip.source := by
  simp [chipEndFrame]
@[simp] theorem chipEndFrame_chip_pulses (s : State) : (chipEndFrame s).chip.pulses = s.chip.pulses := by
  simp [chipEndFrame]
@[simp] theorem chipEndFrame_chip_nextGain (s : State) :
    (chipEndFrame s).chip.nextGain = (takeGain s).chip.nextGain := by
  simp [chipEndFrame]
@[simp] theorem chipEndFrame_chip_convMode (s : State) :
    (chipEndFrame s).chip.convMode = (takeGain s).chip.nextGain := by
  simp [chipEndFrame]

/-- Taking the gain makes at most one draw. -/
theorem takeGain_draws (s : State) :
    (takeGain s).draws = s.draws ∨ (takeGain s).draws = s.draws + 1 := by
  unfold takeGain; split
  · exact .inl rfl
  · split
    · exact .inl rfl
    · exact .inr rfl

/-- After a READ the conversion is a draw made in that step (R36, R54). -/
theorem chipEndFrame_conv (s : State) :
    ∃ n, s.draws ≤ n ∧ n < (chipEndFrame s).draws ∧
      (chipEndFrame s).chip.conv = Config.drawConv n := by
  refine ⟨(takeGain s).draws, ?_, ?_, ?_⟩
  · rcases takeGain_draws s with h | h <;> omega
  · simp [chipEndFrame]
  · simp [chipEndFrame]

@[simp] theorem chipCutFrame_cfg (s : State) : (chipCutFrame s).cfg = s.cfg := by
  unfold chipCutFrame; split <;> rfl
@[simp] theorem chipCutFrame_chan (s : State) : (chipCutFrame s).chan = s.chan := by
  unfold chipCutFrame; split <;> rfl
@[simp] theorem chipCutFrame_host (s : State) : (chipCutFrame s).host = s.host := by
  unfold chipCutFrame; split <;> rfl
@[simp] theorem chipCutFrame_sched (s : State) : (chipCutFrame s).sched = s.sched := by
  unfold chipCutFrame; split <;> rfl
@[simp] theorem chipCutFrame_pins (s : State) : (chipCutFrame s).pins = s.pins := by
  unfold chipCutFrame; split <;> rfl
@[simp] theorem chipCutFrame_stretch (s : State) : (chipCutFrame s).stretch = s.stretch := by
  unfold chipCutFrame; split <;> rfl
@[simp] theorem chipCutFrame_block (s : State) : (chipCutFrame s).block = s.block := by
  unfold chipCutFrame; split <;> rfl
@[simp] theorem chipCutFrame_chip_din (s : State) : (chipCutFrame s).chip.din = s.chip.din := by
  unfold chipCutFrame; split <;> rfl
@[simp] theorem chipCutFrame_chip_conv (s : State) : (chipCutFrame s).chip.conv = s.chip.conv := by
  unfold chipCutFrame; split <;> rfl
@[simp] theorem chipCutFrame_chip_convMode (s : State) : (chipCutFrame s).chip.convMode = s.chip.convMode := by
  unfold chipCutFrame; split <;> rfl
@[simp] theorem chipCutFrame_chip_source (s : State) : (chipCutFrame s).chip.source = s.chip.source := by
  unfold chipCutFrame; split <;> rfl
@[simp] theorem chipCutFrame_chip_pulses (s : State) : (chipCutFrame s).chip.pulses = s.chip.pulses := by
  unfold chipCutFrame; split <;> rfl

/-- After the chip has driven DIN, DIN is at that level. -/
@[simp] theorem driveDin_din (v : Bool) (s : State) : (driveDin v s).chip.din = v := by
  unfold driveDin; split <;> simp_all

@[simp] theorem powerDown_din (s : State) : (powerDown s).chip.din = true := by
  simp [powerDown]

@[simp] theorem powerDown_sync (s : State) : (powerDown s).chip.sync = false := rfl

@[simp] theorem powerDown_source (s : State) : (powerDown s).chip.source = .poweredDown := by
  simp [powerDown]

@[simp] theorem holdHigh_stretch (s : State) : (holdHigh s).stretch = 0 := by
  unfold holdHigh; dsimp only; split <;> simp

@[simp] theorem stretchClock_stretch (us : Nat) (s : State) :
    (stretchClock us s).stretch = s.stretch + us := by
  unfold stretchClock; dsimp only; split <;> simp

/-- A pulse that is not stretched past T_PD_US does nothing but end its own stretch. -/
theorem holdHigh_short (s : State) (h : highTime s ≤ s.cfg.tPdUs) :
    holdHigh s = endStretch s := by
  simp [holdHigh, delay, Nat.not_lt.mpr h]

/-- Driving DIN to the level it has is no step of the edge detector (R99). -/
theorem driveDin_same (s : State) : driveDin s.chip.din s = s := by
  simp [driveDin]

/-- A falling edge of DIN brings SYNC back, and a rising edge keeps it (R40). -/
theorem driveDin_sync (v : Bool) (s : State) :
    (driveDin v s).chip.sync = (s.chip.sync || (s.chip.din && !v)) := by
  unfold driveDin; split <;> cases h : s.chip.din <;> simp_all

/-- With the unit, DIN_PREV follows DIN (R99). -/
theorem driveDin_dinPrev (v : Bool) (s : State) (hu : s.cfg.hasEdgeNotify = true)
    (hp : s.block.dinPrev = s.chip.din) : (driveDin v s).block.dinPrev = v := by
  unfold driveDin; split <;> simp_all [edgeDetect, edgeStep]

/-- Without the unit, the edge detector does nothing (R75). -/
theorem driveDin_noUnit (v : Bool) (s : State) (hu : s.cfg.hasEdgeNotify = false) :
    (driveDin v s).block = s.block := by
  unfold driveDin; split <;> simp_all [edgeDetect]

/-- PENDING is never cleared by the edge detector (R30, R100, R101). -/
theorem driveDin_pending_mono (v : Bool) (s : State) (h : s.block.pending = true) :
    (driveDin v s).block.pending = true := by
  unfold driveDin edgeDetect edgeStep fallingEdge
  dsimp only
  repeat' split
  all_goals simp_all

/-- A pin primitive that does not fail. -/
theorem pinWriteClk_ok (b : Bool) (s : State) (h : pinFails s = false) :
    pinWriteClk b s = .ok (setClk b (popPin s)) := by
  simp [pinWriteClk, h]

theorem pinReadDin_ok (s : State) (h : pinFails s = false) :
    pinReadDin s = .ok (s.chip.din, popPin s) := by
  simp [pinReadDin, h]

/-- With no failure left in the script, no pin primitive fails. -/
theorem pinFails_of_nil (s : State) (h : s.pins = []) : pinFails s = false := by
  simp [pinFails, h]

end Sys2Proof.Machine
end

