-- ==== Sys2Proof/Laws/Pulse.lean ====
section
/-! SUPPORT. What a pulse can do: the frames of DATA_PULSE and CTRL_PULSE, with and without a failing
pin primitive, and the pulses in closed form when no pin fails. -/

namespace Sys2Proof.Machine

/-- What no pulse changes: the configuration, the channel, the host, the schedule, and the registers
the sequencer and the commands own. -/
structure PulseFrame (s t : State) : Prop where
  cfg : t.cfg = s.cfg
  chan : t.chan = s.chan
  host : t.host = s.host
  sched : t.sched = s.sched
  gain : t.block.gain = s.block.gain
  phase : t.block.phase = s.block.phase
  cnt : t.block.cnt = s.block.cnt
  shift : t.block.shift = s.block.shift
  result : t.block.result = s.block.result
  listen : t.block.listen = s.block.listen
  convMode : t.chip.convMode = s.chip.convMode

/-- What the state after a failing pin primitive of a pulse has besides. -/
structure PulseFailed (s e : State) : Prop extends PulseFrame s e where
  fault : e.block.fault = true
  info : ∃ p, e.block.faultInfo = some { pin := p, phase := s.block.phase, cnt := s.block.cnt }
  pulses : e.chip.pulses = s.chip.pulses
  failed : true ∈ s.pins

/-- What the state after a whole pulse has besides. -/
structure PulseDone (s t : State) : Prop extends PulseFrame s t where
  clk : t.block.clk = false
  fault : t.block.fault = s.block.fault
  info : t.block.faultInfo = s.block.faultInfo
  pulses : t.chip.pulses = s.chip.pulses + 1
  stretch : t.stretch = 0

/-- A failing primitive is in the script. -/
theorem mem_pins_of_pinFails (s : State) (h : pinFails s = true) : true ∈ s.pins := by
  unfold pinFails at h
  cases hp : s.pins with
  | nil => simp [hp] at h
  | cons b bs => simp [hp] at h; simp [h]

/-- What a write of CLK can do. -/
theorem pinWriteClk_cases (b : Bool) (s : State) :
    (pinFails s = false ∧ pinWriteClk b s = .ok (setClk b (popPin s))) ∨
    (pinFails s = true ∧ pinWriteClk b s =
      .error (pinFault .clk (spendDraw (setClk (Config.drawBit s.draws) (popPin s))))) := by
  cases h : pinFails s <;> simp [pinWriteClk, h]

/-- What a read of DIN can do. -/
theorem pinReadDin_cases (s : State) :
    (pinFails s = false ∧ pinReadDin s = .ok (s.chip.din, popPin s)) ∨
    (pinFails s = true ∧ pinReadDin s = .error (pinFault .din (popPin s))) := by
  cases h : pinFails s <;> simp [pinReadDin, h]

/-- The state in the middle of a data pulse, before DIN is sampled. -/
def midPulse (s : State) : State :=
  chipShiftOut (holdHigh (setClk true (popPin s)))

/-- The closed form of a whole data pulse. -/
def wholeDataPulse (s : State) : State :=
  chipCountPulse (setClk false (popPin (popPin (midPulse s))))

/-- The closed form of a whole control pulse. -/
def wholeCtrlPulse (s : State) : State :=
  chipCountPulse (setClk false (popPin (holdHigh (setClk true (popPin s)))))

/-- Everything a data pulse can do. -/
theorem dataPulse_cases (s : State) :
    (∃ e, dataPulse s = .error e ∧ PulseFailed s e) ∨
    (dataPulse s = .ok ((wholeDataPulse s).chip.din, wholeDataPulse s)) := by
  rcases pinWriteClk_cases true s with ⟨_, h1⟩ | ⟨hf, h1⟩
  · rcases pinReadDin_cases (midPulse s) with ⟨_, h2⟩ | ⟨hf, h2⟩
    · rcases pinWriteClk_cases false (popPin (midPulse s)) with ⟨_, h3⟩ | ⟨hf, h3⟩
      · right
        unfold dataPulse
        rw [h1]; dsimp only
        rw [show chipShiftOut (holdHigh (setClk true (popPin s))) = midPulse s from rfl, h2]
        dsimp only
        rw [h3]
        rfl
      · left
        refine ⟨_, by
          unfold dataPulse
          rw [h1]; dsimp only
          rw [show chipShiftOut (holdHigh (setClk true (popPin s))) = midPulse s from rfl, h2]
          dsimp only
          rw [h3], ?_⟩
        have hm := mem_pins_of_pinFails _ hf
        refine { cfg := ?_, chan := ?_, host := ?_, sched := ?_, gain := ?_, phase := ?_, cnt := ?_, shift := ?_, result := ?_, listen := ?_, convMode := ?_, fault := ?_, info := ⟨.clk, ?_⟩, pulses := ?_, failed := ?_ }
        all_goals first
          | simp [midPulse]
          | (simp [midPulse] at hm; exact List.mem_of_mem_tail (List.mem_of_mem_tail hm))
    · left
      refine ⟨_, by
        unfold dataPulse
        rw [h1]; dsimp only
        rw [show chipShiftOut (holdHigh (setClk true (popPin s))) = midPulse s from rfl, h2], ?_⟩
      have hm := mem_pins_of_pinFails _ hf
      refine { cfg := ?_, chan := ?_, host := ?_, sched := ?_, gain := ?_, phase := ?_, cnt := ?_, shift := ?_, result := ?_, listen := ?_, convMode := ?_, fault := ?_, info := ⟨.din, ?_⟩, pulses := ?_, failed := ?_ }
      all_goals first
        | simp [midPulse]
        | (simp [midPulse] at hm; exact List.mem_of_mem_tail hm)
  · left
    refine ⟨_, by unfold dataPulse; rw [h1], ?_⟩
    exact { cfg := rfl, chan := rfl, host := rfl, sched := rfl, gain := rfl, phase := rfl, cnt := rfl, shift := rfl, result := rfl, listen := rfl, convMode := rfl, fault := rfl, info := ⟨.clk, rfl⟩, pulses := rfl, failed := mem_pins_of_pinFails _ hf }

/-- Everything a control pulse can do. -/
theorem ctrlPulse_cases (s : State) :
    (∃ e, ctrlPulse s = .error e ∧ PulseFailed s e) ∨
    (ctrlPulse s = .ok (wholeCtrlPulse s)) := by
  rcases pinWriteClk_cases true s with ⟨_, h1⟩ | ⟨hf, h1⟩
  · rcases pinWriteClk_cases false (holdHigh (setClk true (popPin s))) with ⟨_, h2⟩ | ⟨hf, h2⟩
    · right
      unfold ctrlPulse
      rw [h1]; dsimp only
      rw [h2]
      rfl
    · left
      refine ⟨_, by unfold ctrlPulse; rw [h1]; dsimp only; rw [h2], ?_⟩
      have hm := mem_pins_of_pinFails _ hf
      refine { cfg := ?_, chan := ?_, host := ?_, sched := ?_, gain := ?_, phase := ?_, cnt := ?_, shift := ?_, result := ?_, listen := ?_, convMode := ?_, fault := ?_, info := ⟨.clk, ?_⟩, pulses := ?_, failed := ?_ }
      all_goals first
        | simp
        | (simp at hm; exact List.mem_of_mem_tail hm)
  · left
    refine ⟨_, by unfold ctrlPulse; rw [h1], ?_⟩
    exact { cfg := rfl, chan := rfl, host := rfl, sched := rfl, gain := rfl, phase := rfl, cnt := rfl, shift := rfl, result := rfl, listen := rfl, convMode := rfl, fault := rfl, info := ⟨.clk, rfl⟩, pulses := rfl, failed := mem_pins_of_pinFails _ hf }

/-- A whole data pulse keeps what every pulse keeps. -/
theorem wholeDataPulse_done (s : State) : PulseDone s (wholeDataPulse s) := by
  constructor <;> first | constructor | skip
  all_goals simp [wholeDataPulse, midPulse]

/-- A whole control pulse keeps what every pulse keeps. -/
theorem wholeCtrlPulse_done (s : State) : PulseDone s (wholeCtrlPulse s) := by
  constructor <;> first | constructor | skip
  all_goals simp [wholeCtrlPulse]

@[simp] theorem wholeDataPulse_pins (s : State) : (wholeDataPulse s).pins = s.pins.drop 3 := by
  simp [wholeDataPulse, midPulse, ← List.drop_one, List.drop_drop]

@[simp] theorem wholeCtrlPulse_pins (s : State) : (wholeCtrlPulse s).pins = s.pins.drop 2 := by
  simp [wholeCtrlPulse, ← List.drop_one, List.drop_drop]

/-- When the next three pin primitives hold, a data pulse is whole. -/
theorem dataPulse_ok (s : State) (h : ∀ b ∈ s.pins.take 3, b = false) :
    dataPulse s = .ok ((wholeDataPulse s).chip.din, wholeDataPulse s) := by
  have h0 : pinFails s = false := by
    unfold pinFails; cases hp : s.pins with
    | nil => rfl
    | cons b bs => exact h b (by simp [hp])
  have h1 : pinFails (midPulse s) = false := by
    unfold pinFails
    simp only [midPulse, chipShiftOut_pins, holdHigh_pins, setClk_pins, popPin_pins]
    rcases hp : s.pins with _ | ⟨a, _ | ⟨b, bs⟩⟩
    · rfl
    · rfl
    · exact h b (by simp [hp])
  have h2 : pinFails (popPin (midPulse s)) = false := by
    unfold pinFails
    simp only [midPulse, chipShiftOut_pins, holdHigh_pins, setClk_pins, popPin_pins]
    rcases hp : s.pins with _ | ⟨a, _ | ⟨b, _ | ⟨c, bs⟩⟩⟩
    · rfl
    · rfl
    · rfl
    · exact h c (by simp [hp])
  unfold dataPulse
  rw [pinWriteClk_ok _ _ h0]; dsimp only
  rw [show chipShiftOut (holdHigh (setClk true (popPin s))) = midPulse s from rfl,
    pinReadDin_ok _ h1]
  dsimp only
  rw [pinWriteClk_ok _ _ h2]
  rfl

/-- When the next two pin primitives hold, a control pulse is whole. -/
theorem ctrlPulse_ok (s : State) (h : ∀ b ∈ s.pins.take 2, b = false) :
    ctrlPulse s = .ok (wholeCtrlPulse s) := by
  have h0 : pinFails s = false := by
    unfold pinFails; cases hp : s.pins with
    | nil => rfl
    | cons b bs => exact h b (by simp [hp])
  have h1 : pinFails (holdHigh (setClk true (popPin s))) = false := by
    unfold pinFails
    simp only [holdHigh_pins, setClk_pins, popPin_pins]
    rcases hp : s.pins with _ | ⟨a, _ | ⟨b, bs⟩⟩
    · rfl
    · rfl
    · exact h b (by simp [hp])
  unfold ctrlPulse
  rw [pinWriteClk_ok _ _ h0]; dsimp only
  rw [pinWriteClk_ok _ _ h1]
  rfl

end Sys2Proof.Machine
end

