-- ==== Sys2Proof/Laws/Step.lean ====
section
/-! SUPPORT. Everything a step that answers a next state can be, once: an event of the environment, the
acceptance of a command, the answer to an illegal word, a micro-step of a READ, or a step of the host. -/

namespace Sys2Proof.Machine

open Sys2Proof.Safety

/-- With nothing scheduled, taking the next event changes nothing. -/
theorem takeEvent_nil (s : State) (h : s.sched = []) : takeEvent s = s := by
  cases s; simp_all [takeEvent]

/-- The state the agents see when it is their turn. -/
theorem nextMove_agents (s : State) (h : agentsTurn s = true) :
    nextMove s = agentMove (s.sched.head? == some .foreground) (takeEvent s) := by
  unfold agentsTurn at h
  unfold nextMove
  rw [Bool.and_eq_true] at h
  obtain ⟨hc, hs⟩ := h
  rw [hc]
  cases hq : s.sched with
  | nil => rw [takeEvent_nil s hq]; rfl
  | cons e es =>
    rw [hq] at hs
    cases e <;> (simp_all [takeEvent, eventMove]; try rfl)

/-- The first primitive to fail, as the heads of what is left of the script. -/
theorem failsAt_heads (k : Nat) (s : State) (h : failsAt k s = true) :
    (s.pins.drop k).headD false = true ∧ ∀ j < k, (s.pins.drop j).headD false = false := by
  simp only [failsAt, pinsHold, Bool.and_eq_true, List.all_eq_true, Bool.not_eq_true'] at h
  obtain ⟨ha, hk⟩ := h
  refine ⟨by simpa [List.headD_eq_head?_getD, List.head?_drop] using hk, fun j hj => ?_⟩
  rw [List.headD_eq_head?_getD, List.head?_drop]
  cases hq : s.pins[j]? with
  | none => rfl
  | some b =>
    obtain ⟨hlt, rfl⟩ := List.getElem?_eq_some_iff.mp hq
    exact ha _ (List.mem_take_iff_getElem.mpr ⟨j, by omega, rfl⟩)

/-- A data pulse whose first failing primitive is number `k` is a PinFault of that primitive's pin. -/
theorem dataPulse_failsAt (k : Nat) (s : State) (hk : k < 3) (h : failsAt k s = true) :
    ∃ e, dataPulse s = .error e ∧ PulseFailed s e ∧
      e.block.faultInfo =
        some { pin := if k = 1 then .din else .clk, phase := s.block.phase, cnt := s.block.cnt } := by
  obtain ⟨hf, hb⟩ := failsAt_heads k s h
  have p0 : pinFails s = (s.pins.drop 0).headD false := rfl
  have p1 : pinFails (midPulse s) = (s.pins.drop 1).headD false := by
    simp [pinFails, midPulse]
  have p2 : pinFails (popPin (midPulse s)) = (s.pins.drop 2).headD false := by
    simp [pinFails, midPulse, ← List.drop_one, List.drop_drop]
  obtain ⟨e, he, hi⟩ : ∃ e, dataPulse s = .error e ∧ e.block.faultInfo =
      some { pin := if k = 1 then .din else .clk, phase := s.block.phase, cnt := s.block.cnt } := by
    unfold dataPulse
    obtain rfl | rfl | rfl : k = 0 ∨ k = 1 ∨ k = 2 := by omega
    · rw [pinWriteClk, p0, hf, if_pos rfl]
      exact ⟨_, rfl, rfl⟩
    · rw [pinWriteClk_ok _ _ (p0.trans (hb 0 (by decide)))]
      dsimp only
      rw [← midPulse, pinReadDin, p1, hf, if_pos rfl]
      exact ⟨_, rfl, by simp [midPulse, pinFault]⟩
    · rw [pinWriteClk_ok _ _ (p0.trans (hb 0 (by decide)))]
      dsimp only
      rw [← midPulse, pinReadDin_ok _ (p1.trans (hb 1 (by decide)))]
      dsimp only
      rw [pinWriteClk, p2, hf, if_pos rfl]
      exact ⟨_, rfl, by simp [midPulse, pinFault]⟩
  rcases dataPulse_cases s with ⟨e', he', hp⟩ | hok
  · cases he.symm.trans he'
    exact ⟨e, he, hp, hi⟩
  · cases he.symm.trans hok

/-- A control pulse whose first failing primitive is one of its two is a PinFault of CLK. -/
theorem ctrlPulse_failsAt (k : Nat) (s : State) (hk : k < 2) (h : failsAt k s = true) :
    ∃ e, ctrlPulse s = .error e ∧ PulseFailed s e ∧
      e.block.faultInfo = some { pin := .clk, phase := s.block.phase, cnt := s.block.cnt } := by
  obtain ⟨hf, hb⟩ := failsAt_heads k s h
  have p0 : pinFails s = (s.pins.drop 0).headD false := rfl
  have p1 : pinFails (holdHigh (setClk true (popPin s))) = (s.pins.drop 1).headD false := by
    simp [pinFails]
  obtain ⟨e, he, hi⟩ : ∃ e, ctrlPulse s = .error e ∧ e.block.faultInfo =
      some { pin := .clk, phase := s.block.phase, cnt := s.block.cnt } := by
    unfold ctrlPulse
    obtain rfl | rfl : k = 0 ∨ k = 1 := by omega
    · rw [pinWriteClk, p0, hf, if_pos rfl]
      exact ⟨_, rfl, rfl⟩
    · rw [pinWriteClk_ok _ _ (p0.trans (hb 0 (by decide)))]
      dsimp only
      rw [pinWriteClk, p1, hf, if_pos rfl]
      exact ⟨_, rfl, by simp [pinFault]⟩
  rcases ctrlPulse_cases s with ⟨e', he', hp⟩ | hok
  · cases he.symm.trans he'
    exact ⟨e, he, hp, hi⟩
  · cases he.symm.trans hok

/-- The kinds of a step that answers a next state. -/
inductive StepCase (s t : State) : Prop where
  | drive (v : Bool) (turn : eventTurn (.drive v) s = true) (eq : t = chipDrive v (takeEvent s))
  | ready (w : Raw24) (turn : eventTurn (.ready w) s = true) (eq : t = chipReady w (takeEvent s))
  | stretch (us : Nat) (turn : eventTurn (.stretch us) s = true)
      (allowed : s.cfg.platformStretches = true) (eq : t = stretchClock us (takeEvent s))
  | rst (turn : eventTurn .rst s = true) (eq : t = resetMachine (takeEvent s))
  | command (i : Instr) (acc : accepts s i = true)
      (eq : exec i (acceptCommand (takeEvent s)) = .next t)
  | illegal (turn : agentsTurn s = true) (acc : canAccept s = true)
      (eq : t = respondIllegal (acceptCommand (takeEvent s)))
  | data (turn : microTurn s = true) (phase : s.block.phase = .reading)
      (eq : dataStep (takeEvent s) = .next t)
  | ctrl (turn : microTurn s = true) (phase : s.block.phase = .gainPulsing)
      (eq : ctrlStep (takeEvent s) = .next t)
  | host (turn : hostTurn s = true)
      (eq : hostStep (s.sched.head? == some .foreground) (takeEvent s) = .next t)

/-- The decoder reads only the words of legal commands. -/
theorem decode_sound (h : Bool) (w : Byte) (i : Instr) (hd : decode h w = .ok i) :
    w = encode i ∧ i.legal h = true := by
  unfold decode at hd
  split at hd
  all_goals first
    | (cases hd; exact ⟨by decide, by cases h <;> rfl⟩)
    | (cases h <;> simp [decodeEdge] at hd; subst hd; exact ⟨by decide, rfl⟩)
    | (simp at hd)

/-- The kinds of an agents' step that answers a next state. -/
theorem step_cases_agents (s t : State) (ha : agentsTurn s = true) (h : step s = .next t) :
    StepCase s t := by
  unfold step at h
  rw [nextMove_agents s ha] at h
  unfold agentMove at h
  have hb : (takeEvent s).block = s.block := rfl
  have hch : (takeEvent s).chan = s.chan := rfl
  rw [hb, hch] at h
  cases hf : s.block.fault with
  | true => simp [hf] at h
  | false =>
    simp only [hf, Bool.false_eq_true, if_false] at h
    cases hp : s.block.phase with
    | idle =>
      have hcan : canAccept s = true := by simp [canAccept, hp, hf]
      simp only [hp] at h
      cases hc : s.chan.cmd with
      | none =>
        simp only [hc] at h
        exact .host (by simp [hostTurn, ha, hcan, hc]) h
      | some w =>
        simp only [hc, acceptWord] at h
        cases hd : decode (takeEvent s).cfg.hasEdgeNotify w with
        | error x =>
          simp only [hd] at h
          cases h
          exact .illegal ha hcan rfl
        | ok i =>
          simp only [hd] at h
          obtain ⟨hw, hl⟩ := decode_sound _ _ _ hd
          have hl' : i.legal s.cfg.hasEdgeNotify = true := hl
          exact .command i (by simp [accepts, ha, presents, hcan, hc, hw, hl']) h
    | reading =>
      simp only [hp, sequencerStep, hb] at h
      exact .data (by simp [microTurn, ha, hf, busy, hp]) hp h
    | gainPulsing =>
      simp only [hp, sequencerStep, hb] at h
      exact .ctrl (by simp [microTurn, ha, hf, busy, hp]) hp h

/-- Everything a step that answers a next state can be. -/
theorem step_cases (s t : State) (h : step s = .next t) : StepCase s t := by
  have h' := h
  unfold step nextMove at h
  cases hc : s.cfg.legal with
  | false => simp [hc] at h
  | true =>
    simp only [hc, if_true] at h
    cases hq : s.sched with
    | nil => exact step_cases_agents s t (by simp [agentsTurn, hc, hq]) h'
    | cons e es =>
      have ht : ({ s with sched := es } : State) = takeEvent s := by simp [takeEvent, hq]
      have hv : ∀ e', e = e' → eventTurn e' s = true := by
        rintro e' rfl; simp [eventTurn, hc, hq]
      rw [hq] at h
      simp only [ht] at h
      cases e with
      | run => exact step_cases_agents s t (by simp [agentsTurn, hc, hq]) h'
      | foreground => exact step_cases_agents s t (by simp [agentsTurn, hc, hq]) h'
      | drive v => cases h; exact .drive v (hv _ rfl) rfl
      | ready w => cases h; exact .ready w (hv _ rfl) rfl
      | stretch us =>
        simp only [eventMove] at h
        split at h
        · rename_i ha; cases h; exact .stretch us (hv _ rfl) ha rfl
        · cases h
      | rst => cases h; exact .rst (hv _ rfl) rfl

@[simp] theorem takeEvent_cfg (s : State) : (takeEvent s).cfg = s.cfg := rfl
@[simp] theorem takeEvent_block (s : State) : (takeEvent s).block = s.block := rfl
@[simp] theorem takeEvent_chan (s : State) : (takeEvent s).chan = s.chan := rfl
@[simp] theorem takeEvent_chip (s : State) : (takeEvent s).chip = s.chip := rfl
@[simp] theorem takeEvent_host (s : State) : (takeEvent s).host = s.host := rfl
@[simp] theorem takeEvent_sched (s : State) : (takeEvent s).sched = s.sched.tail := rfl
@[simp] theorem takeEvent_pins (s : State) : (takeEvent s).pins = s.pins := rfl
@[simp] theorem takeEvent_stretch (s : State) : (takeEvent s).stretch = s.stretch := rfl
@[simp] theorem takeEvent_draws (s : State) : (takeEvent s).draws = s.draws := rfl

/-- In the foreground's turn a step is one of the foreground. -/
theorem step_foreground (s : State) (h : foregroundTurn s = true) :
    step s = foregroundStep (takeEvent s) := by
  simp only [foregroundTurn, hostTurn, canAccept, Bool.and_eq_true, Bool.not_eq_true',
    beq_iff_eq, Option.isNone_iff_eq_none] at h
  obtain ⟨⟨⟨⟨ha, hp, hf⟩, hc⟩, hh⟩, hd⟩ := h
  have hdd : dispatchEnabled (takeEvent s) = dispatchEnabled s := rfl
  simp only [step, nextMove_agents s ha, agentMove, hostStep, takeEvent_block, takeEvent_chan,
    takeEvent_host, hdd, hp, hf, hc, hh]
  cases hq : dispatchEnabled s <;> simp_all

end Sys2Proof.Machine
end

