-- ==== Sys2Proof/Laws/Agents.lean ====
section
/-! SUPPORT. What each agent's step keeps: the host's, the sequencer's, and a command's meaning. -/

namespace Sys2Proof.Machine

open Sys2Proof.Safety

/-- What no step of the host changes: everything but its own state and the word it presents. -/
structure HostFrame (s t : State) : Prop where
  cfg : t.cfg = s.cfg
  block : t.block = s.block
  chip : t.chip = s.chip
  sched : t.sched = s.sched
  pins : t.pins = s.pins
  stretch : t.stretch = s.stretch
  draws : t.draws = s.draws

theorem startCall_frame (c : HostCall) (s t : State) (h : startCall c s = .next t) :
    HostFrame s t := by
  unfold startCall startTare edgeProcedure at h
  repeat' split at h
  all_goals first
    | (cases h; exact ⟨rfl, rfl, rfl, rfl, rfl, rfl, rfl⟩)
    | cases h

theorem takeResponse_frame (r : Response) (s t : State) (h : takeResponse r s = .next t) :
    HostFrame s t := by
  unfold takeResponse endRead endTareSample at h
  dsimp only at h
  repeat' split at h
  all_goals first
    | (cases h; exact ⟨rfl, rfl, rfl, rfl, rfl, rfl, rfl⟩)
    | cases h

theorem onResponse_frame (s t : State) (k : Response → Host.Outcome State Fault Refusal)
    (hk : ∀ r, k r = .next t → HostFrame s t) (h : onResponse s k = .next t) : HostFrame s t := by
  unfold onResponse at h
  split at h
  · cases h; exact ⟨rfl, rfl, rfl, rfl, rfl, rfl, rfl⟩
  · exact hk _ h

theorem programStep_frame (s t : State) (h : programStep s = .next t) : HostFrame s t := by
  unfold programStep at h
  split at h
  · cases h; exact ⟨rfl, rfl, rfl, rfl, rfl, rfl, rfl⟩
  · obtain ⟨a, b, c, d, e, f, g⟩ := startCall_frame _ _ _ h
    exact ⟨a, b, c, d, e, f, g⟩
  · cases h; exact ⟨rfl, rfl, rfl, rfl, rfl, rfl, rfl⟩
  · cases h; exact ⟨rfl, rfl, rfl, rfl, rfl, rfl, rfl⟩

theorem foregroundStep_frame (s t : State) (h : foregroundStep s = .next t) : HostFrame s t := by
  unfold foregroundStep storeTareMean at h
  dsimp only at h
  repeat' split at h
  all_goals first
    | (cases h; exact ⟨rfl, rfl, rfl, rfl, rfl, rfl, rfl⟩)
    | exact onResponse_frame s t _ (fun r => takeResponse_frame r s t) h
    | exact programStep_frame s t h

theorem handlerStep_frame (s t : State) (h : handlerStep s = .next t) : HostFrame s t := by
  unfold handlerStep at h
  split at h
  · cases h; exact ⟨rfl, rfl, rfl, rfl, rfl, rfl, rfl⟩
  · cases h; exact ⟨rfl, rfl, rfl, rfl, rfl, rfl, rfl⟩
  · refine onResponse_frame s t _ (fun r hr => ?_) h
    split at hr <;> (cases hr; exact ⟨rfl, rfl, rfl, rfl, rfl, rfl, rfl⟩)
  · refine onResponse_frame s t _ (fun r hr => ?_) h
    unfold handlerEndRead at hr
    split at hr
    · cases hr
    · cases hr; exact ⟨rfl, rfl, rfl, rfl, rfl, rfl, rfl⟩
  · refine onResponse_frame s t _ (fun r hr => ?_) h
    cases hr; exact ⟨rfl, rfl, rfl, rfl, rfl, rfl, rfl⟩

/-- Everything a step of the host keeps. -/
theorem hostStep_frame (f : Bool) (s t : State) (h : hostStep f s = .next t) : HostFrame s t := by
  unfold hostStep at h
  repeat' split at h
  · exact handlerStep_frame s t h
  · cases h; exact ⟨rfl, rfl, rfl, rfl, rfl, rfl, rfl⟩
  · exact foregroundStep_frame s t h

/-- Everything an accepted command can do: one of the seven short ones has ended, or a READ has
begun. -/
theorem exec_cases (i : Instr) (s t : State) (h : exec i s = .next t) :
    (i = .rdy ∧ pinFails s = true ∧ t = pinFault .din (popPin s)) ∨
    (i = .rdy ∧ pinFails s = false ∧ t = respondOk (zextBit (!s.chip.din)) (popPin s)) ∨
    (i = .read ∧ t = beginRead s) ∨
    (t = respondIllegal s) ∨
    (∃ g, i = .setgain g ∧ g ≠ 3#2 ∧ t = respondOk 0#32 (setGain g s)) ∨
    (i = .getgain ∧ t = respondOk (zextGain s.block.gain) s) ∨
    (s.cfg.hasEdgeNotify = true ∧
      ((i = .listen ∧ t = respondOk 0#32 (setListen true s)) ∨
       (i = .unlisten ∧ t = respondOk 0#32 (setListen false s)) ∨
       (i = .clrint ∧ t = respondOk 0#32 (setPending false s)) ∨
       (i = .islistening ∧ t = respondOk (zextBit s.block.listen) s))) := by
  cases i with
  | rdy =>
    simp only [exec, execRdy] at h
    rcases pinReadDin_cases s with ⟨hp, he⟩ | ⟨hp, he⟩ <;> rw [he] at h <;> cases h <;> simp [hp]
  | read => cases h; simp
  | setgain g =>
    simp only [exec, execSetgain] at h
    split at h <;> cases h <;> simp_all
  | getgain => cases h; simp
  | listen => simp only [exec, execListen, withUnit] at h; split at h <;> cases h <;> simp_all
  | unlisten => simp only [exec, execUnlisten, withUnit] at h; split at h <;> cases h <;> simp_all
  | clrint => simp only [exec, execClrint, withUnit] at h; split at h <;> cases h <;> simp_all
  | islistening =>
    simp only [exec, execIslistening, withUnit] at h; split at h <;> cases h <;> simp_all

/-- Everything a micro-step in READING can do. -/
theorem dataStep_cases (s t : State) (h : dataStep s = .next t) :
    s.block.cnt.toNat < 24 ∧
    (PulseFailed s t ∨
      t = afterData (takeBit (wholeDataPulse s).chip.din (wholeDataPulse s))) := by
  unfold dataStep at h
  split at h
  · rename_i hc
    refine ⟨hc, ?_⟩
    rcases dataPulse_cases s with ⟨e, he, hf⟩ | he <;> rw [he] at h <;> cases h
    · exact .inl hf
    · exact .inr rfl
  · cases h

/-- Everything a micro-step in GAINPULSING can do. -/
theorem ctrlStep_cases (s t : State) (h : ctrlStep s = .next t) :
    (s.block.cnt.toNat < pulseCount s.block.gain ∧
      (PulseFailed s t ∨
        t = afterCtrl (wholeCtrlPulse s))) ∨
    (s.block.cnt.toNat = pulseCount s.block.gain ∧ t = completeRead s) := by
  unfold ctrlStep at h
  repeat' split at h
  all_goals first
    | (cases h; done)
    | (cases h; rename_i hc; exact .inr ⟨hc, rfl⟩)
    | skip
  · rename_i hc _ e he
    rcases ctrlPulse_cases s with ⟨e', he', hf⟩ | he' <;> rw [he'] at he <;> cases he
    cases h; exact .inl ⟨hc, .inl hf⟩
  · rename_i hc _ u he
    rcases ctrlPulse_cases s with ⟨e', he', hf⟩ | he' <;> rw [he'] at he <;> cases he
    cases h; exact .inl ⟨hc, .inr rfl⟩

/-- What STEP becomes after a data pulse. -/
theorem afterData_cases (s : State) :
    (s.block.cnt.toNat < 23 ∧ afterData s = setStep .reading (s.block.cnt + 1#5) s) ∨
    (¬ s.block.cnt.toNat < 23 ∧ afterData s = setStep .gainPulsing 0#5 s) := by
  unfold afterData dataPulses
  split <;> rename_i h
  · exact .inl ⟨by omega, rfl⟩
  · exact .inr ⟨by omega, rfl⟩

/-! ### Fields of the states a micro-step leaves -/

@[simp] theorem wholeDataPulse_cfg (s : State) : (wholeDataPulse s).cfg = s.cfg :=
  (wholeDataPulse_done s).cfg
@[simp] theorem wholeDataPulse_chan (s : State) : (wholeDataPulse s).chan = s.chan :=
  (wholeDataPulse_done s).chan
@[simp] theorem wholeDataPulse_host (s : State) : (wholeDataPulse s).host = s.host :=
  (wholeDataPulse_done s).host
@[simp] theorem wholeDataPulse_sched (s : State) : (wholeDataPulse s).sched = s.sched :=
  (wholeDataPulse_done s).sched
@[simp] theorem wholeDataPulse_stretch (s : State) : (wholeDataPulse s).stretch = 0 :=
  (wholeDataPulse_done s).stretch
@[simp] theorem wholeDataPulse_block_clk (s : State) : (wholeDataPulse s).block.clk = false :=
  (wholeDataPulse_done s).clk
@[simp] theorem wholeDataPulse_block_gain (s : State) : (wholeDataPulse s).block.gain = s.block.gain :=
  (wholeDataPulse_done s).gain
@[simp] theorem wholeDataPulse_block_phase (s : State) : (wholeDataPulse s).block.phase = s.block.phase :=
  (wholeDataPulse_done s).phase
@[simp] theorem wholeDataPulse_block_cnt (s : State) : (wholeDataPulse s).block.cnt = s.block.cnt :=
  (wholeDataPulse_done s).cnt
@[simp] theorem wholeDataPulse_block_shift (s : State) : (wholeDataPulse s).block.shift = s.block.shift :=
  (wholeDataPulse_done s).shift
@[simp] theorem wholeDataPulse_block_result (s : State) : (wholeDataPulse s).block.result = s.block.result :=
  (wholeDataPulse_done s).result
@[simp] theorem wholeDataPulse_block_fault (s : State) : (wholeDataPulse s).block.fault = s.block.fault :=
  (wholeDataPulse_done s).fault
@[simp] theorem wholeDataPulse_block_listen (s : State) : (wholeDataPulse s).block.listen = s.block.listen :=
  (wholeDataPulse_done s).listen
@[simp] theorem wholeDataPulse_block_faultInfo (s : State) : (wholeDataPulse s).block.faultInfo = s.block.faultInfo :=
  (wholeDataPulse_done s).info
@[simp] theorem wholeDataPulse_chip_pulses (s : State) : (wholeDataPulse s).chip.pulses = s.chip.pulses + 1 :=
  (wholeDataPulse_done s).pulses
@[simp] theorem wholeDataPulse_chip_convMode (s : State) : (wholeDataPulse s).chip.convMode = s.chip.convMode :=
  (wholeDataPulse_done s).convMode

@[simp] theorem wholeCtrlPulse_cfg (s : State) : (wholeCtrlPulse s).cfg = s.cfg :=
  (wholeCtrlPulse_done s).cfg
@[simp] theorem wholeCtrlPulse_chan (s : State) : (wholeCtrlPulse s).chan = s.chan :=
  (wholeCtrlPulse_done s).chan
@[simp] theorem wholeCtrlPulse_host (s : State) : (wholeCtrlPulse s).host = s.host :=
  (wholeCtrlPulse_done s).host
@[simp] theorem wholeCtrlPulse_sched (s : State) : (wholeCtrlPulse s).sched = s.sched :=
  (wholeCtrlPulse_done s).sched
@[simp] theorem wholeCtrlPulse_stretch (s : State) : (wholeCtrlPulse s).stretch = 0 :=
  (wholeCtrlPulse_done s).stretch
@[simp] theorem wholeCtrlPulse_block_clk (s : State) : (wholeCtrlPulse s).block.clk = false :=
  (wholeCtrlPulse_done s).clk
@[simp] theorem wholeCtrlPulse_block_gain (s : State) : (wholeCtrlPulse s).block.gain = s.block.gain :=
  (wholeCtrlPulse_done s).gain
@[simp] theorem wholeCtrlPulse_block_phase (s : State) : (wholeCtrlPulse s).block.phase = s.block.phase :=
  (wholeCtrlPulse_done s).phase
@[simp] theorem wholeCtrlPulse_block_cnt (s : State) : (wholeCtrlPulse s).block.cnt = s.block.cnt :=
  (wholeCtrlPulse_done s).cnt
@[simp] theorem wholeCtrlPulse_block_shift (s : State) : (wholeCtrlPulse s).block.shift = s.block.shift :=
  (wholeCtrlPulse_done s).shift
@[simp] theorem wholeCtrlPulse_block_result (s : State) : (wholeCtrlPulse s).block.result = s.block.result :=
  (wholeCtrlPulse_done s).result
@[simp] theorem wholeCtrlPulse_block_fault (s : State) : (wholeCtrlPulse s).block.fault = s.block.fault :=
  (wholeCtrlPulse_done s).fault
@[simp] theorem wholeCtrlPulse_block_listen (s : State) : (wholeCtrlPulse s).block.listen = s.block.listen :=
  (wholeCtrlPulse_done s).listen
@[simp] theorem wholeCtrlPulse_block_faultInfo (s : State) : (wholeCtrlPulse s).block.faultInfo = s.block.faultInfo :=
  (wholeCtrlPulse_done s).info
@[simp] theorem wholeCtrlPulse_chip_pulses (s : State) : (wholeCtrlPulse s).chip.pulses = s.chip.pulses + 1 :=
  (wholeCtrlPulse_done s).pulses
@[simp] theorem wholeCtrlPulse_chip_convMode (s : State) : (wholeCtrlPulse s).chip.convMode = s.chip.convMode :=
  (wholeCtrlPulse_done s).convMode

@[simp] theorem afterData_cfg (s : State) : (afterData s).cfg = s.cfg := by
  unfold afterData; split <;> rfl
@[simp] theorem afterData_chan (s : State) : (afterData s).chan = s.chan := by
  unfold afterData; split <;> rfl
@[simp] theorem afterData_host (s : State) : (afterData s).host = s.host := by
  unfold afterData; split <;> rfl
@[simp] theorem afterData_sched (s : State) : (afterData s).sched = s.sched := by
  unfold afterData; split <;> rfl
@[simp] theorem afterData_pins (s : State) : (afterData s).pins = s.pins := by
  unfold afterData; split <;> rfl
@[simp] theorem afterData_stretch (s : State) : (afterData s).stretch = s.stretch := by
  unfold afterData; split <;> rfl
@[simp] theorem afterData_draws (s : State) : (afterData s).draws = s.draws := by
  unfold afterData; split <;> rfl
@[simp] theorem afterData_chip (s : State) : (afterData s).chip = s.chip := by
  unfold afterData; split <;> rfl
@[simp] theorem afterData_block_clk (s : State) : (afterData s).block.clk = s.block.clk := by
  unfold afterData; split <;> rfl
@[simp] theorem afterData_block_gain (s : State) : (afterData s).block.gain = s.block.gain := by
  unfold afterData; split <;> rfl
@[simp] theorem afterData_block_shift (s : State) : (afterData s).block.shift = s.block.shift := by
  unfold afterData; split <;> rfl
@[simp] theorem afterData_block_result (s : State) : (afterData s).block.result = s.block.result := by
  unfold afterData; split <;> rfl
@[simp] theorem afterData_block_fault (s : State) : (afterData s).block.fault = s.block.fault := by
  unfold afterData; split <;> rfl
@[simp] theorem afterData_block_listen (s : State) : (afterData s).block.listen = s.block.listen := by
  unfold afterData; split <;> rfl
@[simp] theorem afterData_block_pending (s : State) : (afterData s).block.pending = s.block.pending := by
  unfold afterData; split <;> rfl
@[simp] theorem afterData_block_dinPrev (s : State) : (afterData s).block.dinPrev = s.block.dinPrev := by
  unfold afterData; split <;> rfl
@[simp] theorem afterData_block_faultInfo (s : State) : (afterData s).block.faultInfo = s.block.faultInfo := by
  unfold afterData; split <;> rfl

@[simp] theorem completeRead_cfg (s : State) : (completeRead s).cfg = s.cfg := by
  simp [completeRead]
@[simp] theorem completeRead_host (s : State) : (completeRead s).host = s.host := by
  simp [completeRead]
@[simp] theorem completeRead_sched (s : State) : (completeRead s).sched = s.sched := by
  simp [completeRead]
@[simp] theorem completeRead_pins (s : State) : (completeRead s).pins = s.pins := by
  simp [completeRead]
@[simp] theorem completeRead_stretch (s : State) : (completeRead s).stretch = s.stretch := by
  simp [completeRead]
@[simp] theorem completeRead_chip_din (s : State) : (completeRead s).chip.din = s.chip.din := by
  simp [completeRead]
/-- After a READ the chip's conversion is the next one, made under NEXT_GAIN (R54, R91). -/
@[simp] theorem completeRead_chip_convMode (s : State) :
    (completeRead s).chip.convMode = (completeRead s).chip.nextGain := by
  simp [completeRead]
/-- After a READ the chip's conversion is a draw made in that step (R36, R54). -/
theorem completeRead_chip_conv (s : State) :
    ∃ n, s.draws ≤ n ∧ n < (completeRead s).draws ∧
      (completeRead s).chip.conv = Config.drawConv n := by
  simpa [completeRead] using chipEndFrame_conv
    (setStep .idle 0#5 (setResult (pattern (widen s.block.shift)) s))
@[simp] theorem completeRead_chip_sync (s : State) : (completeRead s).chip.sync = s.chip.sync := by
  simp [completeRead]
@[simp] theorem completeRead_chip_source (s : State) : (completeRead s).chip.source = s.chip.source := by
  simp [completeRead]
@[simp] theorem completeRead_chip_pulses (s : State) : (completeRead s).chip.pulses = s.chip.pulses := by
  simp [completeRead]
@[simp] theorem completeRead_block (s : State) :
    (completeRead s).block =
      { s.block with result := pattern (widen s.block.shift), phase := .idle, cnt := 0#5 } := by
  simp [completeRead]
@[simp] theorem completeRead_chan (s : State) :
    (completeRead s).chan =
      { s.chan with
        response := some { status := 0x00#8, value := pattern (widen s.block.shift) } } := by
  simp [completeRead]

@[simp] theorem resetMachine_cfg (s : State) : (resetMachine s).cfg = s.cfg := by
  simp [resetMachine]
@[simp] theorem resetMachine_sched (s : State) : (resetMachine s).sched = s.sched := by
  simp [resetMachine]
@[simp] theorem resetMachine_pins (s : State) : (resetMachine s).pins = s.pins := by
  simp [resetMachine]
@[simp] theorem resetMachine_chip_din (s : State) : (resetMachine s).chip.din = s.chip.din := by
  simp [resetMachine]
@[simp] theorem resetMachine_chip_conv (s : State) : (resetMachine s).chip.conv = s.chip.conv := by
  simp [resetMachine]
@[simp] theorem resetMachine_chip_convMode (s : State) : (resetMachine s).chip.convMode = s.chip.convMode := by
  simp [resetMachine]
@[simp] theorem resetMachine_chip_source (s : State) : (resetMachine s).chip.source = s.chip.source := by
  simp [resetMachine]
@[simp] theorem resetMachine_chip_pulses (s : State) : (resetMachine s).chip.pulses = s.chip.pulses := by
  simp [resetMachine]
@[simp] theorem resetMachine_block (s : State) :
    (resetMachine s).block = Block.resetWith s.chip.din s.block.faultInfo := rfl
@[simp] theorem resetMachine_chan (s : State) :
    (resetMachine s).chan = { s.chan with response := none } := by
  simp [resetMachine]
@[simp] theorem resetMachine_host (s : State) :
    (resetMachine s).host = HostState.resetWith s.host.pc := rfl

/-- A data pulse in a valid read that is not stretched puts the conversion's bit on DIN (R37). -/
theorem wholeDataPulse_word (s : State) (w : Raw24) (hs : s.chip.source = .word w)
    (hh : highTime s ≤ s.cfg.tPdUs) :
    (wholeDataPulse s).chip =
      { s.chip with
        din := w.getLsbD (23 - s.block.cnt.toNat)
        sync := (wholeDataPulse s).chip.sync
        pulses := s.chip.pulses + 1 } := by
  have hm : midPulse s =
      driveDin (w.getLsbD (23 - s.block.cnt.toNat)) (endStretch (setClk true (popPin s))) := by
    unfold midPulse
    rw [holdHigh_short (setClk true (popPin s)) hh]
    simp [chipShiftOut, hs]
  ext1 <;> simp [wholeDataPulse, hm]

/-- After a power-down, in this pulse or an earlier one, the data bit is 1 (R38). -/
theorem wholeDataPulse_poweredDown (s : State)
    (hs : (holdHigh (setClk true (popPin s))).chip.source = .poweredDown) :
    (wholeDataPulse s).chip.source = .poweredDown ∧ (wholeDataPulse s).chip.din = true := by
  have hm : midPulse s = driveDin true (holdHigh (setClk true (popPin s))) := by
    unfold midPulse chipShiftOut
    rw [hs]
  simp [wholeDataPulse, hm, hs]

/-- A control pulse that is not stretched moves nothing but CLK and the counts (R86). -/
theorem wholeCtrlPulse_short (s : State) (hh : highTime s ≤ s.cfg.tPdUs) :
    wholeCtrlPulse s =
      chipCountPulse (setClk false (popPin (endStretch (setClk true (popPin s))))) := by
  unfold wholeCtrlPulse
  rw [holdHigh_short (setClk true (popPin s)) hh]

/-- A stretched pulse powers the chip down (R38). -/
theorem holdHigh_long (s : State) (h : s.cfg.tPdUs < highTime s) :
    holdHigh s = powerDown (endStretch s) := by
  unfold holdHigh
  rw [if_pos h]
  rfl

end Sys2Proof.Machine
end

