-- ==== Sys2Proof/Laws/PerInstr.lean ====
section
/-! SUPPORT. What is said of every command as syntax: where the fields of its word stand
(30_encoding.md R65, R67), one lemma per constructor. -/

namespace Sys2Proof.Laws.Fields

/-- The operation code stands in bits 7 to 4 of the word, the argument in bits 3 to 0, and bits 3 and 2
of every command's word are 0. -/
def Statement (i : Instr) : Prop :=
  (encode i).extractLsb' 4 4 = i.op ∧ (encode i).extractLsb' 0 4 = i.arg ∧
  (encode i).extractLsb' 2 2 = 0#2

theorem rdy : Statement .rdy := ⟨by decide, by decide, by decide⟩

theorem read : Statement .read := ⟨by decide, by decide, by decide⟩

theorem setgain (g : BitVec 2) : Statement (.setgain g) := by
  revert g
  unfold Statement
  decide

theorem getgain : Statement .getgain := ⟨by decide, by decide, by decide⟩

theorem listen : Statement .listen := ⟨by decide, by decide, by decide⟩

theorem unlisten : Statement .unlisten := ⟨by decide, by decide, by decide⟩

theorem clrint : Statement .clrint := ⟨by decide, by decide, by decide⟩

theorem islistening : Statement .islistening := ⟨by decide, by decide, by decide⟩

end Sys2Proof.Laws.Fields
end

