-- ==== Sys2Proof/Tests/Slice0.lean ====
section
/-! SUPPORT. Tests against the worked examples and vectors of spec/95_test_vectors.md, one step each, and
for every statement with hypotheses a concrete state that meets them. -/

namespace Sys2Proof.Tests

open Sys2Proof.Machine Sys2Proof.Safety

/-! ### States to test with -/

/-- A reset machine whose chip has this conversion, ready when `din` is low. -/
def idleWith (din : Bool) (conv : Raw24) : State :=
  { State.reset with
    block.dinPrev := din
    chip :=
      { din := din, conv := conv, convMode := .a128, nextGain := .a128, sync := true,
        source := .draws, pulses := 0 } }

/-- A chip that is ready with −200, as in program P1. -/
def ready : State := idleWith false 0xFFFF38#24

/-- A chip that is not ready. -/
def notReady : State := idleWith true 0#24

/-- The same machine without the edge-notify unit. -/
def without (s : State) : State := { s with cfg.hasEdgeNotify := false }

/-- A word on CMD. -/
def presenting (w : Byte) (s : State) : State := { s with chan.cmd := some w }

/-- A valid READ in progress, at this STEP. -/
def reading (p : Phase) (c : BitVec 5) (s : State) : State :=
  { s with
    block.phase := p
    block.cnt := c
    chip.source := .word s.chip.conv
    chip.pulses := (if p = .gainPulsing then 24 else 0) + c.toNat }

/-- This gain, LISTEN and PENDING. -/
def holding (g : BitVec 2) (l p : Bool) (s : State) : State :=
  { s with block.gain := g, block.listen := l, block.pending := p }

/-- This event is next. -/
def event (e : Event) (s : State) : State := { s with sched := [e] }

/-- The next pin primitives hold, and the one after them fails. -/
def failingPin (holds : Nat) (s : State) : State :=
  { s with pins := List.replicate holds false ++ [true] }

/-- CLK left high on a platform that stretches pulses. -/
def pulseLeftHigh (s : State) : State :=
  { s with cfg.platformStretches := true, block.clk := true }

/-- A block with FAULT = 1. -/
def faulted (s : State) : State := { s with block.fault := true }

/-- The foreground is about to make this call, with this OFFSET. -/
def calling (c : HostCall) (offset : Word32) (s : State) : State :=
  { s with cfg.program := [.call c], host.offset := offset }

/-- The foreground is about to take this statement. -/
def running (x : HostStmt) (s : State) : State := { s with cfg.program := [x] }

/-- A platform that may stretch a pulse, and has stretched the next one by 60 µs. -/
def stretched (s : State) : State := { s with cfg.platformStretches := true, stretch := 60 }

/-- The foreground is at this point, with this response there. -/
def waiting (p : FgPoint) (cs : Bool) (value : Word32) (s : State) : State :=
  { s with host.fg := p, host.inCs := cs, chan.response := some { status := 0#8, value := value } }

/-- The handler runs. -/
def handling (p : HdPoint) (s : State) : State := { s with host.inHandler := true, host.hd := p }

/-- The state an outcome holds. -/
def after (o : Host.Outcome State Fault Refusal) : Option State :=
  match o with
  | .next t => some t
  | .fault _ => none
  | .refused _ => none

/-- What a step leaves of a state. -/
def sees {α : Type} (s : State) (f : State → α) : Option α := (after (step s)).map f

/-- Response status and value. -/
def answer (s : State) : Option (Byte × Word32) := s.chan.response.map (fun r => (r.status, r.value))

/-! ### Well-formedness and encoding -/

/-- R67, R74: code 3 is reserved; it is the one ill-formed command. -/
theorem test_wellFormed_refuses_code_3 : (Instr.setgain 3#2).wellFormed = false := by decide

theorem test_wellFormed_accepts :
    (Instr.setgain 2#2).wellFormed = true ∧ Instr.rdy.wellFormed = true ∧
    Instr.islistening.wellFormed = true := by decide

/-- R75: an edge-notify command is not legal without the unit. -/
theorem test_legal_needs_unit :
    Instr.listen.legal false = false ∧ Instr.listen.legal true = true ∧
    Instr.getgain.legal false = true := by decide

/-- R164: equal times are refused, 1 < 60 is not. -/
theorem test_params_legal :
    Params.default.legal = true ∧
    ({ Params.default with tBitUs := 60 } : Params).legal = false := by decide

/-- R66: `OP = 0001`, `ARG = 0000`. -/
theorem test_decode_rdy : decode false (0b0001#4 ++ 0b0000#4) = .ok .rdy := by decide

theorem test_decode_read : decode false (0b0010#4 ++ 0b0000#4) = .ok .read := by decide

/-- R67: `ARG = 00gg`. -/
theorem test_decode_setgain :
    decode false (0b0011#4 ++ 0b00#2 ++ 0b00#2) = .ok (.setgain 0#2) ∧
    decode false (0b0011#4 ++ 0b00#2 ++ 0b01#2) = .ok (.setgain 1#2) ∧
    decode false (0b0011#4 ++ 0b00#2 ++ 0b10#2) = .ok (.setgain 2#2) ∧
    decode true (0b0011#4 ++ 0b00#2 ++ 0b11#2) = .error .reservedGain := by decide

theorem test_decode_getgain : decode false (0b0100#4 ++ 0b0000#4) = .ok .getgain := by decide

theorem test_decode_listen : decode true (0b0101#4 ++ 0b0000#4) = .ok .listen := by decide

theorem test_decode_unlisten : decode true (0b0110#4 ++ 0b0000#4) = .ok .unlisten := by decide

theorem test_decode_clrint : decode true (0b0111#4 ++ 0b0000#4) = .ok .clrint := by decide

theorem test_decode_islistening :
    decode true (0b1000#4 ++ 0b0000#4) = .ok .islistening := by decide

/-- 95_test_vectors.md section 2.1, the illegal rows. -/
theorem test_decode_illegal :
    [0x33#8, 0x34#8, 0x3F#8, 0x41#8, 0x00#8, 0x11#8, 0x21#8, 0x90#8, 0xFF#8].all
      (fun w => !(decode true w).isOk) = true ∧
    [0x50#8, 0x60#8, 0x70#8, 0x80#8].all (fun w => !(decode false w).isOk) = true := by decide

/-- A setgain word of the table, read and run as the first instruction after reset. -/
theorem test_table_word :
    decodeTableWord 8 0x32 = some (.setgain 2#2) ∧
    (after (step (State.reset.withFetchWord 8 0x32))).map (fun t => t.block.gain) =
      some 2#2 := by decide

/-- Program P1's first lines, and a word given directly (R77, R78). -/
theorem test_assemble :
    assemble ["  setgain b32 ; 0x31".toList, "waitready".toList, "read".toList,
      "setgain #2".toList, ".byte 0x33".toList] =
      some [.cmd 0x31#8, .waitReady, .cmd 0x20#8, .cmd 0x32#8, .cmd 0x33#8] := by decide

/-- R79: an illegal word prints as `.byte`. -/
theorem test_disassemble :
    disassemble true 0x31#8 = "setgain b32".toList ∧
    disassemble true 0x3F#8 = ".byte 0x3F".toList ∧
    disassemble false 0x50#8 = ".byte 0x50".toList := by decide

/-! ### Values -/

/-- 95_test_vectors.md section 2.3. -/
theorem test_widen :
    [0x000000#24, 0x000001#24, 0x400000#24, 0x7FFFFF#24, 0x800000#24, 0xABCDEF#24, 0xFFFFFF#24].map
      widen = [0, 1, 4194304, 8388607, -8388608, -5517841, -1] := by decide

/-- 95_test_vectors.md section 2.7: 50 × 0.5, 0 × −2.0, and 16777217, which rounds to even. -/
theorem test_scaled :
    f32Mul (f32OfI32 50#32) 0x3F000000#32 = 0x41C80000#32 ∧
    f32Mul (f32OfI32 0#32) 0xC0000000#32 = 0x80000000#32 ∧
    f32OfI32 16777217#32 = 0x4B800000#32 ∧
    f32Mul (f32OfI32 1#32) 0x3DCCCCCD#32 = 0x3DCCCCCD#32 := by decide

/-- 95_test_vectors.md section 2.7, the tare rows. -/
theorem test_tare_mean :
    [[7, 7, 7], [1, 2], [-1, -2], [3, 4, 5], [0, 1, 1], [-8388608, 8388607]].map
      (tareMean .truncated) = [7, 1, -1, 4, 0, 0] ∧
    meanHalfUp [1, 2] = 2 ∧ meanHalfDown [1, 2] = 1 := by decide

/-! ### One step of each command -/

/-- 95_test_vectors.md section 2.2. -/
theorem test_rdy :
    sees (presenting 0x10#8 ready) answer = some (some (0x00#8, 1#32)) ∧
    sees (presenting 0x10#8 notReady) answer = some (some (0x00#8, 0#32)) := by decide

/-- 95_test_vectors.md section 2.2, the last row. -/
theorem test_rdy_fault :
    sees (failingPin 0 (presenting 0x10#8 ready)) (fun t => (t.block.fault, t.chan.response)) =
      some (true, none) := by decide

/-- R81, R37: the read is valid from a ready chip, and draws from one that is not. -/
theorem test_read_accepted :
    sees (presenting 0x20#8 ready) (fun t => (t.block.phase, t.chip.source)) =
      some (.reading, .word 0xFFFF38#24) ∧
    sees (presenting 0x20#8 notReady) (fun t => (t.block.phase, t.chip.source)) =
      some (.reading, .draws) := by decide

/-- The 17th data pulse of program P1's READ samples bit 7 of 0xFFFF38, which is 0, after a 1. -/
theorem test_read_data_pulse :
    sees (reading .reading 16#5 { ready with block.shift := 0xFFFF#24 })
      (fun t => (t.block.shift, t.block.cnt, t.block.clk)) =
      some (0x1FFFE#24, 17#5, false) ∧
    sees (reading .reading 23#5 ready) (fun t => (t.block.phase, t.block.cnt)) =
      some (.gainPulsing, 0#5) := by decide

/-- 95_test_vectors.md section 2.4: the trace of GAIN = 1, steps 26 and 27. -/
theorem test_read_completes :
    sees (reading .gainPulsing 1#5 (holding 1#2 false false ready)) (fun t => t.block.cnt) =
      some 2#5 ∧
    sees (reading .gainPulsing 2#5 { holding 1#2 false false ready with block.shift := 0xFFFF38#24 })
      (fun t => (answer t, t.block.phase, t.chip.nextGain)) =
      some (some (0x00#8, 0xFFFFFF38#32), .idle, .b32) := by decide

/-- 95_test_vectors.md section 2.4, Fault: the rising edge of data pulse 5 fails. -/
theorem test_read_fault :
    sees (failingPin 0 (reading .reading 5#5 ready))
      (fun t => (t.block.fault, t.block.phase, t.block.cnt, t.chan.response)) =
      some (true, .reading, 5#5, none) := by decide

/-- 95_test_vectors.md section 2.5. -/
theorem test_setgain :
    sees (presenting 0x31#8 ready) (fun t => (answer t, t.block.gain)) =
      some (some (0x00#8, 0#32), 1#2) ∧
    sees (presenting 0x33#8 (holding 2#2 false false ready)) (fun t => (answer t, t.block.gain)) =
      some (some (0x01#8, 0#32), 2#2) := by decide

theorem test_getgain :
    sees (presenting 0x40#8 (holding 2#2 false false ready)) answer =
      some (some (0x00#8, 2#32)) := by decide

/-- 95_test_vectors.md section 2.6, the command rows. -/
theorem test_listen :
    sees (presenting 0x50#8 (holding 0#2 false true ready))
      (fun t => (t.block.listen, t.block.pending, irq t)) = some (true, true, true) ∧
    sees (presenting 0x50#8 ready) (fun t => (answer t, irq t)) =
      some (some (0x00#8, 0#32), false) := by decide

theorem test_unlisten :
    sees (presenting 0x60#8 (holding 0#2 true true ready))
      (fun t => (t.block.listen, t.block.pending, irq t)) = some (false, true, false) := by decide

theorem test_clrint :
    sees (presenting 0x70#8 (holding 0#2 true true ready))
      (fun t => (t.block.listen, t.block.pending, irq t)) = some (true, false, false) := by decide

theorem test_islistening :
    sees (presenting 0x80#8 (holding 0#2 true false ready)) answer = some (some (0x00#8, 1#32)) ∧
    sees (presenting 0x80#8 (without ready)) answer = some (some (0x01#8, 0#32)) := by decide

/-! ### The other agents -/

/-- 95_test_vectors.md section 2.6, the DIN rows. -/
theorem test_edges :
    sees (event (.drive false) (holding 0#2 true false notReady))
      (fun t => (t.block.pending, irq t)) = some (true, true) ∧
    sees (event (.drive true) (holding 0#2 true false ready))
      (fun t => (t.block.pending, t.block.dinPrev)) = some (false, true) := by decide

/-- 95_test_vectors.md section 2.9: READ at (READING, 10), then RST. -/
theorem test_reset :
    sees (event .rst (reading .reading 10#5 (holding 2#2 true true ready)))
      (fun t => (t.block.gain, t.block.phase, t.block.cnt, t.block.listen, t.chip.sync)) =
      some (0#2, .idle, 0#5, false, false) := by decide

/-- 95_test_vectors.md section 2.4, Power-down: the pulse is stretched past 60 µs. -/
theorem test_power_down :
    sees (stretched (reading .reading 12#5 ready))
      (fun t => (t.block.shift.getLsbD 0, t.chip.sync, t.chip.source)) =
      some (true, false, .poweredDown) ∧
    sees (event (.stretch 60) ready) (fun t => t.stretch) = none := by decide

/-- R54, R91: READ consumes its conversion, and the next one is of the frame's mode. -/
theorem test_read_consumes :
    sees (reading .gainPulsing 3#5 (holding 2#2 false false ready))
      (fun t => (t.chip.nextGain, t.chip.convMode, t.chip.din)) =
      some (.a64, .a64, false) := by decide

/-- A program that reads for ever where the chip is not ready: a branch, and a jump back (R46). -/
theorem test_program :
    sees (running (.branch .notReady 7) { ready with host.result := some .notReady })
      (fun t => t.host.pc) = some 7 ∧
    sees (running (.branch (.intBelow 5#32) 7) { ready with host.result := some (.int 9#32) })
      (fun t => t.host.pc) = some 1 ∧
    sees (running (.jump 0) ready) (fun t => t.host.pc) = some 0 := by decide

/-- −2.0 < −1.5, and −0.0 is not below 0.0. -/
theorem test_float_below :
    f32Below 0xC0000000#32 0xBFC00000#32 = true ∧ f32Below 0x80000000#32 0#32 = false ∧
    f32Below 0x7FC00000#32 0#32 = false := by decide

/-- Worked example S4, and the edge rows of 95_test_vectors.md section 2.7. -/
theorem test_read_offset :
    offsetCorrect 150#32 100#32 = some 50#32 ∧
    offsetCorrect 0xFFFFFFFF#32 2147483647#32 = some 0x80000000#32 ∧
    offsetCorrect 0xFFFFFFFE#32 2147483647#32 = none ∧
    offsetCorrect 0#32 0x80000000#32 = none := by decide

/-- 45_host_facade.md R124: `set_gain_mode(A64)` issues 0x32; section 4: without the unit there is no
`enable_interrupt`. -/
theorem test_command_calls :
    sees (calling (.setGainMode .a64) 0#32 ready) (fun t => (t.chan.cmd, t.host.inCs)) =
      some (some 0x32#8, true) ∧
    (match step (calling .enableInterrupt 0#32 (without ready)) with
      | .refused r => r == .noSuchProcedure
      | .next _ => false
      | .fault _ => false) = true := by decide

/-- R119 and the handler's dispatch (R142). -/
theorem test_host :
    (match step (calling (.tare 0) 0#32 ready) with
      | .refused r => r == .tareZero
      | .next _ => false
      | .fault _ => false) = true ∧
    sees (holding 0#2 true true ready) (fun t => (t.host.inHandler, t.host.hd)) =
      some (true, .start) := by decide

/-! ### Witnesses of the hypotheses

Each theorem is named after the statement whose hypotheses its states meet. -/

theorem test_wit_DecodeInvertsEncode :
    (Instr.setgain 2#2).legal false = true ∧ Instr.islistening.legal true = true := by decide

theorem test_wit_StepRunsTheAcceptedCommand :
    agentsTurn (presenting 0x20#8 ready) = true ∧ presents (presenting 0x20#8 ready) 0x20#8 = true ∧
    decode ready.cfg.hasEdgeNotify 0x20#8 = .ok .read := by decide

theorem test_wit_IllegalWordHasNoEffect :
    agentsTurn (presenting 0x34#8 ready) = true ∧ presents (presenting 0x34#8 ready) 0x34#8 = true ∧
    decode true 0x34#8 = .error (.undefinedWord 0x34#8) := by decide

/-- A word held by a busy block, a word held by a faulted block, and an accepted word. -/
theorem test_wit_CommandsAreSerial :
    sees (presenting 0x40#8 (reading .reading 3#5 ready)) (fun t => t.chan.cmd) =
      some (some 0x40#8) ∧
    canAccept (reading .reading 3#5 ready) = false ∧
    sees (event (.drive true) (presenting 0x40#8 (faulted ready))) (fun t => t.chan.cmd) =
      some (some 0x40#8) ∧
    canAccept (faulted ready) = false ∧
    agentsTurn (presenting 0x40#8 ready) = true ∧ presents (presenting 0x40#8 ready) 0x40#8 = true := by
  decide

/-- A READ ends by completion and by reset. -/
theorem test_wit_CommandsAreSerial_end :
    busy (reading .gainPulsing 1#5 ready) = true ∧
    sees (reading .gainPulsing 1#5 ready) busy = some false ∧
    sees (event .rst (reading .gainPulsing 0#5 ready)) busy = some false := by decide

theorem test_wit_FaultIsSticky :
    (failingPin 0 (presenting 0x10#8 ready)).block.fault = false ∧
    sees (failingPin 0 (presenting 0x10#8 ready)) (fun t => t.block.fault) = some true ∧
    pinFailureTurn (failingPin 0 (presenting 0x10#8 ready)) = true ∧
    pinFailureTurn (failingPin 2 (reading .reading 23#5 ready)) = true ∧
    pinFailureTurn (failingPin 1 (reading .gainPulsing 0#5 ready)) = true ∧
    agentsTurn (faulted ready) = true ∧
    sees (event .rst (faulted ready)) (fun t => t.block.fault) = some false := by decide

/-- The boundary: equal times. -/
theorem test_wit_OutsideTheSpecIsRefused :
    ({ ready with cfg.tBitUs := 60 } : State).cfg.tPdUs ≤
      ({ ready with cfg.tBitUs := 60 } : State).cfg.tBitUs ∧
    eventTurn (.stretch 0) (event (.stretch 0) ready) = true ∧
    ready.cfg.platformStretches = false := by decide

theorem test_wit_ConfigurationIsNeverWritten :
    (after (step ready)).isSome = true ∧
    foregroundTurn (running (.jump 0) ready) = true ∧
    (running (.jump 0) ready).cfg.program[0]? = some (.jump 0) ∧
    foregroundTurn (running (.branch .notReady 0) ready) = true ∧
    foregroundTurn ready = true ∧ ready.cfg.program.length ≤ ready.host.pc := by decide

/-- A step of the host, a change of DIN by each of its events, and a step with no change of DIN. -/
theorem test_wit_IdleBlockKeepsItsState :
    (after (step (calling .getScale 0#32 ready))).isSome = true ∧ busy ready = false ∧
    ready.chan.cmd = none ∧
    sees (event (.drive false) notReady) (fun t => t.chip.din) = some false ∧
    sees (event (.ready 5#24) notReady) (fun t => t.chip.din) = some false ∧
    sees (event (.ready 5#24) ready) (fun t => t.chip.din) = some false ∧
    hostTurn (event (.ready 5#24) ready) = false := by decide

theorem test_wit_RdyReportsReadiness :
    pinsHold 1 ready = true ∧ pinsHold 1 (failingPin 1 ready) = true ∧
    pinsHold 1 (failingPin 0 ready) = false := by decide

theorem test_wit_SetgainWritesGain :
    ∀ g ∈ [0#2, 1#2, 2#2], g = 0#2 ∨ g = 1#2 ∨ g = 2#2 := by decide

theorem test_wit_ReservedGainIsIllegal :
    agentsTurn (presenting 0x33#8 ready) = true ∧
    presents (presenting 0x33#8 ready) 0x33#8 = true := by decide

theorem test_wit_ListenSubscribes : ready.cfg.hasEdgeNotify = true := by decide

theorem test_wit_UnlistenEndsTheSubscription :
    (holding 0#2 true true ready).cfg.hasEdgeNotify = true := by decide

theorem test_wit_ClrintClearsPending :
    (holding 0#2 true true notReady).cfg.hasEdgeNotify = true := by decide

theorem test_wit_IslisteningReportsListen :
    (holding 0#2 true false ready).cfg.hasEdgeNotify = true := by decide

theorem test_wit_EdgeCommandsNeedTheUnit :
    ∀ w ∈ [0x50#8, 0x60#8, 0x70#8, 0x80#8],
      (without (presenting w ready)).cfg.hasEdgeNotify = false ∧
      agentsTurn (without (presenting w ready)) = true ∧
      presents (without (presenting w ready)) w = true := by decide

/-- The first and the last data pulse, with the pins holding just as long as needed. -/
theorem test_wit_DataPulseShiftsOneBit :
    ∀ c ∈ [0#5, 23#5],
      microTurn (failingPin 3 (reading .reading c ready)) = true ∧
      (reading .reading c ready).block.cnt.toNat < 24 ∧
      pinsHold 3 (failingPin 3 (reading .reading c ready)) = true := by decide

/-- The last data pulse, stretched to exactly T_PD_US, of a valid READ and of one of draws. -/
theorem test_wit_DataPulseSamplesTheChip :
    dataTurn { reading .reading 23#5 ready with stretch := 59 } = true ∧
    (reading .reading 23#5 ready).chip.source = .word 0xFFFF38#24 ∧
    highTime { reading .reading 23#5 ready with stretch := 59 } = 60 ∧ ready.cfg.tPdUs = 60 ∧
    ∀ s ∈ [ready, notReady],
      dataTurn { reading .reading 23#5 s with chip.source := .draws, stretch := 59 } = true ∧
      pinsHold 3 s = true := by decide

theorem test_wit_PowerDownForcesOnes :
    dataTurn (stretched (reading .reading 0#5 ready)) = true ∧
    ctrlTurn (stretched (reading .gainPulsing 0#5 ready)) = true ∧
    ready.cfg.tPdUs < highTime (stretched ready) ∧ pinsHold 3 ready = true ∧
    dataTurn { reading .reading 23#5 ready with chip.source := .poweredDown } = true := by decide

theorem test_wit_ControlPulseDropsTheSample :
    ∀ c ∈ [0#5, 2#5],
      microTurn (failingPin 2 (reading .gainPulsing c (holding 2#2 false false ready))) = true ∧
      c.toNat < pulseCount 2#2 ∧
      pinsHold 2 (failingPin 2 (reading .gainPulsing c ready)) = true ∧
      highTime ready ≤ ready.cfg.tPdUs := by decide

/-- With the pulses as counted, also after a power-down in the READ. -/
theorem test_wit_ReadCompletes :
    ∀ c ∈ [ReadSource.word 5#24, .draws, .poweredDown],
      microTurn { reading .gainPulsing 3#5 (holding 2#2 false false ready) with
        chip.source := c } = true ∧
      pulsesLegal (reading .gainPulsing 3#5 (holding 2#2 false false ready)) = true ∧
      gainLegal (holding 2#2 false false ready) = true ∧ (3#5).toNat = pulseCount 2#2 := by decide

/-- PinFault in RDY, and at each primitive of each pulse. -/
theorem test_wit_PinFaultStopsTheBlock :
    accepts (failingPin 0 (presenting 0x10#8 ready)) .rdy = true ∧
    failsAt 0 (failingPin 0 ready) = true ∧
    (∀ k ∈ [0, 1, 2],
      dataTurn (failingPin k (reading .reading 7#5 ready)) = true ∧
      failsAt k (failingPin k (reading .reading 7#5 ready)) = true ∧
      sees (failingPin k (reading .reading 7#5 ready)) (fun t => t.block.fault) = some true) ∧
    (∀ k ∈ [0, 1],
      ctrlTurn (failingPin k (reading .gainPulsing 0#5 ready)) = true ∧
      failsAt k (failingPin k (reading .gainPulsing 0#5 ready)) = true) ∧
    answerLegal (reading .reading 7#5 ready) = true := by decide

/-- Both cases: a sequence that ends well, and one whose fourth pin primitive fails. -/
theorem test_wit_MicroStepsRefineTheWholeRead :
    ready.cfg.legal = true ∧ ready.sched = [] ∧ presents (presenting 0x20#8 ready) 0x20#8 = true ∧
    (readSequence (acceptCommand (presenting 0x20#8 ready))).isOk = true ∧
    (readSequence (acceptCommand (failingPin 3 (presenting 0x20#8 ready)))).isOk = false := by
  decide

theorem test_wit_ValidReadReturnsTheConversion :
    undisturbed (presenting 0x20#8 ready) = true ∧
    presents (presenting 0x20#8 ready) 0x20#8 = true ∧
    chipReadyInSync ready = true ∧ gainLegal (holding 2#2 false false ready) = true := by decide

theorem test_wit_EveryReadRunsItsWholeFrame :
    notReady.cfg.legal = true ∧ notReady.sched = [] ∧ notReady.pins = [] ∧
    presents (presenting 0x20#8 notReady) 0x20#8 = true := by decide

theorem test_wit_WideningLaws : widen 0xFFFFFF#24 = widen (0#24 - 1#24) := by decide

/-- The two ends of the range of bits. -/
theorem test_wit_ReadValueIsSignExtended : ∀ i ∈ [24, 31], 24 ≤ i ∧ i < 32 := by decide

theorem test_wit_SmallIntegersConvertExactly :
    (16777216#32).toInt.natAbs ≤ 2 ^ 24 ∧ (0xFF000000#32).toInt.natAbs ≤ 2 ^ 24 := by decide

theorem test_wit_SpecialScalesFollowIeee :
    f32IsNaN 0x7FC00000#32 = true ∧ f32IsInf 0x7F800000#32 = true ∧
    f32IsInf 0xFF800000#32 = true ∧ (5#32 : Word32) ≠ 0#32 := by decide

/-- A fall of DIN by each event of the chip, and by a data bit of a READ. -/
theorem test_wit_FallingEdgeSetsPending :
    ∀ s ∈ [event (.drive false) (holding 0#2 true false notReady),
        event (.ready 5#24) (holding 0#2 true false notReady),
        reading .reading 3#5 (holding 0#2 true false notReady)],
      sees s (fun t => (t.chip.din, t.block.pending)) = some (false, true) ∧
      s.cfg.hasEdgeNotify = true ∧ s.block.listen = true ∧ s.block.dinPrev = true ∧
      s.chip.din = true ∧ dinForcedHigh s = false := by decide

theorem test_wit_UnlistenedEdgeIsADraw :
    ∀ s ∈ [event (.drive false) notReady, event (.ready 5#24) notReady,
        reading .reading 3#5 notReady],
      sees s (fun t => t.chip.din) = some false ∧
      s.cfg.hasEdgeNotify = true ∧ s.block.listen = false ∧ s.block.dinPrev = true ∧
      s.chip.din = true ∧ dinForcedHigh s = false := by decide

/-- An event without a change, a rising edge, a step that keeps DIN, and CLRINT. -/
theorem test_wit_OnlyFallingEdgesAreSeen :
    eventTurn (.drive true) (event (.drive true) notReady) = true ∧ notReady.chip.din = true ∧
    eventTurn (.drive true) (event (.drive true) ready) = true ∧ ready.chip.din = false ∧
    dinForcedHigh ready = false ∧
    sees (event (.drive true) ready) (fun t => t.chip.din) = some true ∧
    sees (event (.drive false) (without notReady)) (fun t => t.chip.din) = some false ∧
    sees (reading .gainPulsing 0#5 ready) (fun t => t.chip.din) = some ready.chip.din ∧
    sees (presenting 0x70#8 (holding 0#2 true true ready)) (fun t => (t.chip.din, t.block.pending)) =
      some (ready.chip.din, false) := by decide

/-- IRQ rises at an edge and at a LISTEN; it falls at CLRINT, UNLISTEN and reset. -/
theorem test_wit_IrqLaws :
    sees (event (.drive false) (holding 0#2 true false notReady)) irq = some true ∧
    sees (presenting 0x50#8 (holding 0#2 false true ready)) irq = some true ∧
    irq (holding 0#2 true true ready) = true ∧
    sees (presenting 0x70#8 (holding 0#2 true true ready)) irq = some false ∧
    sees (presenting 0x60#8 (holding 0#2 true true ready)) irq = some false ∧
    sees (event .rst (holding 0#2 true true ready)) irq = some false := by decide

/-- Each register is really written by the command named. -/
theorem test_wit_RegisterWriters :
    sees (presenting 0x32#8 ready) (fun t => t.block.gain) = some 2#2 ∧
    sees (presenting 0x50#8 ready) (fun t => t.block.listen) = some true ∧
    sees (presenting 0x70#8 (holding 0#2 true true ready)) (fun t => t.block.pending) = some false ∧
    sees (reading .gainPulsing 1#5 { ready with block.shift := 5#24 }) (fun t => t.block.result) =
      some 5#32 ∧
    sees (event (.drive false) (holding 0#2 true false notReady)) (fun t => t.block.pending) =
      some true ∧
    eventTurn .rst (presenting 0x32#8 ready) = false := by decide

theorem test_wit_StepKeepsTheInvariant :
    inv (reading .reading 4#5 (holding 1#2 true true ready)) = true ∧
    (after (step (reading .reading 4#5 (holding 1#2 true true ready)))).isSome = true := by decide

theorem test_wit_StepKeepsTareSuspended :
    tareInv (waiting (.awaitTareQuery 2) true 1#32 (holding 0#2 true false ready)) = true ∧
    tareInv (waiting (.awaitTareSample true 2 []) true 7#32 ready) = true ∧
    (after (step (waiting (.awaitTareSample true 2 []) true 7#32 ready))).isSome = true := by decide

theorem test_wit_ResetValues : eventTurn .rst (event .rst ready) = true := by decide

theorem test_wit_ResetAndTheChip :
    eventTurn .rst (event .rst (reading .reading 10#5 ready)) = true ∧
    busy (reading .reading 10#5 ready) = true ∧ busy ready = false := by decide

/-- SYNC is lost by a reset, by a stretched pulse of each kind, also one that then fails, and by a
stretch of a pulse left high. -/
theorem test_wit_SyncLaws :
    ready.chip.sync = true ∧
    sees (event .rst (reading .reading 10#5 ready)) (fun t => t.chip.sync) = some false ∧
    (∀ s ∈ [reading .reading 0#5 ready, failingPin 1 (reading .reading 0#5 ready),
        reading .gainPulsing 0#5 ready],
      pinsHold 1 (stretched s) = true ∧ (dataTurn (stretched s) || ctrlTurn (stretched s)) = true ∧
      sees (stretched s) (fun t => t.chip.sync) = some false) ∧
    ready.cfg.tPdUs < highTime (stretched ready) ∧
    eventTurn (.stretch 60) (event (.stretch 60) (pulseLeftHigh ready)) = true ∧
    (pulseLeftHigh ready).cfg.platformStretches = true ∧ (pulseLeftHigh ready).block.clk = true ∧
    (pulseLeftHigh ready).cfg.tPdUs < highTime (pulseLeftHigh ready) + 60 ∧
    sees (event (.stretch 60) (pulseLeftHigh ready)) (fun t => t.chip.sync) = some false := by decide

/-- A fall of DIN by an event or a data bit brings SYNC back. -/
theorem test_wit_SyncLaws_back :
    ∀ s ∈ [event (.drive false) notReady, event (.ready 5#24) notReady,
        reading .reading 3#5 notReady],
      s.chip.din = true ∧ dinForcedHigh s = false ∧
      sees { s with chip.sync := false } (fun t => (t.chip.din, t.chip.sync)) =
        some (false, true) := by decide

theorem test_wit_GainTakesEffectOnTheNextConversion :
    undisturbed (presenting 0x20#8 (holding 2#2 false false ready)) = true ∧
    presents (presenting 0x20#8 (holding 2#2 false false ready)) 0x20#8 = true ∧
    (holding 2#2 false false ready).block.gain = gainCode .a64 := by decide

theorem test_wit_NotReadyReadChangesNothing :
    ∀ c ∈ [HostCall.read, .readScaled],
      undisturbed (calling c 5#32 notReady) = true ∧
      foregroundTurn (calling c 5#32 notReady) = true ∧
      nextCall (calling c 5#32 notReady) = some c ∧
      (calling c 5#32 notReady).host.fg = .idle ∧ notReady.chip.din = true := by decide

/-- Both ends of the i32 range, and just outside each. -/
theorem test_wit_ReadSubtractsTheOffset :
    foregroundTurn (waiting (.awaitReadSample false) true 150#32 ready) = true ∧
    hostTurn (handling .awaitSample ready) = true ∧
    (handling .awaitSample ready).host.inHandler = true ∧
    (0xFFFFFFFF#32).toInt - (2147483647#32).toInt = -2147483648 ∧
    (0xFFFFFFFE#32).toInt - (2147483647#32).toInt < -2147483648 ∧
    (8388607#32).toInt - (0x80800000#32).toInt = 2147483647 ∧
    2147483647 < (0#32).toInt - (0x80000000#32).toInt := by decide

theorem test_wit_ReadReturnsTheCorrectedSample :
    undisturbed (calling .read 100#32 ready) = true ∧
    foregroundTurn (calling .read 100#32 ready) = true ∧ chipReadyInSync ready = true ∧
    gainLegal ready = true ∧ widen ready.chip.conv - (100#32).toInt = -300 := by decide

theorem test_wit_ReadScaledMultipliesByScale :
    foregroundTurn (waiting (.awaitReadSample true) true 150#32 ready) = true ∧
    foregroundTurn (waiting (.scale 50#32) false 0#32 ready) = true := by decide

/-- Worked example S5 as a product: 50 × 0.5 = 25, and a zero product. -/
theorem test_wit_ReadScaledMultipliesByScale_product :
    [0x42480000#32, 0x3F000000#32, 0x41C80000#32, 0#32].all f32Finite = true ∧
    f32Value 0x41C80000#32 ≠ 0 ∧
    f32Value 0x42480000#32 * f32Value 0x3F000000#32 = f32Value 0x41C80000#32 ∧
    f32Value 0#32 * f32Value 0x3F000000#32 = 0 := by decide +kernel

theorem test_wit_TareMeanLaws :
    ∀ x ∈ [(-8388608 : Int), 8388607], -8388608 ≤ x ∧ x ≤ 8388607 := by decide

theorem test_wit_TareZeroIsRefused :
    foregroundTurn (calling (.tare 0) 0#32 ready) = true ∧
    (calling (.tare 0) 0#32 ready).host.fg = .idle := by decide

theorem test_wit_TareWaitsForEver :
    undisturbed { notReady with host.fg := .tarePoll true 1 [] } = true ∧
    foregroundTurn { notReady with host.fg := .tarePoll true 1 [] } = true ∧
    irq notReady = false := by decide

/-- Both prior values of LISTEN, and no unit. -/
theorem test_wit_TareTakesItsSamples :
    ∀ s ∈ [holding 0#2 false false ready, holding 0#2 true false ready, without ready],
      undisturbed (calling (.tare 1) 0#32 s) = true ∧
      foregroundTurn (calling (.tare 1) 0#32 s) = true ∧
      nextCall (calling (.tare 1) 0#32 s) = some (.tare 1) ∧
      chipReadyInSync s = true ∧ gainLegal s = true := by decide

/-- The points of a tare of two samples. -/
theorem test_wit_TareTakesItsSamples_points :
    foregroundTurn (calling (.tare 2) 0#32 ready) = true ∧
    ∀ p ∈ [FgPoint.awaitTareQuery 2, .awaitTareUnlisten 2, .awaitTarePoll true 2 [],
        .tareSample true 2 [], .awaitTareSample true 2 [], .awaitTareSample true 1 [7#32],
        .tareStore true [7#32, 7#32], .tareStore false [7#32]],
      foregroundTurn (waiting p false 1#32 ready) = true := by decide

/-- Every call that touches one register or issues one command. -/
theorem test_wit_AccessorsAndCommandCalls :
    ∀ c ∈ [HostCall.setScale 0x3F000000#32, .getScale, .setOffset 100#32, .getOffset,
        .getLastReading, .isReady, .assertReady, .cmd 0xFF#8, .setGainMode .a64, .getGainMode,
        .enableInterrupt, .disableInterrupt, .clearInterrupt, .waitReady],
      ∀ s ∈ [ready, without ready],
        foregroundTurn (calling c 0#32 s) = true ∧ (calling c 0#32 s).host.fg = .idle ∧
        nextCall (calling c 0#32 s) = some c := by decide

/-- The points at which such a call takes its response, and the poll of `waitready`. -/
theorem test_wit_AccessorsAndCommandCalls_points :
    ∀ p ∈ [FgPoint.awaitReady, .awaitAssert, .awaitPoll, .awaitRaw, .awaitUnit, .awaitGain, .poll],
      foregroundTurn (waiting p (awaiting p) 1#32 ready) = true ∧
      1#32 = (gainCode .b32).setWidth 32 ∧ (0#32 : Word32) ≠ 1#32 := by decide

/-- The foreground's turn while a dispatch is enabled, for each statement that speaks of it. -/
theorem test_wit_foregroundTurn :
    ∀ s ∈ [calling .getScale 0#32 ready, calling (.tare 0) 0#32 ready,
        calling (.tare 2) 0#32 ready, running (.jump 0) ready,
        { ready with host.fg := .scale 50#32 }],
      dispatchEnabled (event .foreground (holding 0#2 true true s)) = true ∧
      foregroundTurn (event .foreground (holding 0#2 true true s)) = true := by decide

theorem test_wit_DispatchEntersTheHandler :
    hostTurn (holding 0#2 true true ready) = true ∧ irq (holding 0#2 true true ready) = true ∧
    (holding 0#2 true true ready).sched.head? ≠ some .foreground ∧
    ready.host.inCs = false ∧ ready.host.inHandler = false := by decide

/-- A step in a critical section with an interrupt waiting, and a step of the handler. -/
theorem test_wit_ContextsDoNotInterleave :
    irq (waiting .awaitReady true 1#32 (holding 0#2 true true ready)) = true ∧
    sees (waiting .awaitReady true 1#32 (holding 0#2 true true ready)) (fun t => t.host.inHandler) =
      some false ∧
    sees (handling .start ready) (fun t => t.host.hd) = some .awaitRdy ∧
    eventTurn .rst (handling .start ready) = false := by decide

theorem test_wit_HandlerReadsAndClears :
    undisturbed (holding 0#2 true true ready) = true ∧ hostTurn (holding 0#2 true true ready) = true ∧
    dispatchEnabled (holding 0#2 true true ready) = true ∧ chipReadyInSync ready = true ∧
    gainLegal ready = true ∧ widen ready.chip.conv - ready.host.offset.toInt = -200 := by decide

theorem test_wit_HandlerSwallowsNotReady :
    undisturbed (holding 0#2 true true notReady) = true ∧
    hostTurn (holding 0#2 true true notReady) = true ∧
    dispatchEnabled (holding 0#2 true true notReady) = true ∧ notReady.chip.din = true := by decide

/-- A finished program (R162), whether or not an interrupt waits. -/
theorem test_ended :
    ended ready = true ∧ ended (holding 0#2 true true ready) = true ∧
    ended (calling .read 0#32 ready) = false := by decide

end Sys2Proof.Tests
end

