-- ==== Sys2Proof/Proofs/Line.lean ====
section
/-! SUPPORT. The data line and the edge detector: what a move of DIN does to PENDING, DIN_PREV and SYNC
(10_state.md R38, R40; 41_edge_notify.md R99 to R101), whoever moves it. -/

namespace Sys2Proof.Machine

open Sys2Proof.Safety

/-- `t` is `s` after the chip may have moved DIN, as the block sees it: the block is as it was but for
what the edge detector writes, and that only at a change of DIN (R99); PENDING is set at a fall only and
never cleared (R30). -/
structure DinMove (s t : State) : Prop where
  block : t.block = { s.block with pending := t.block.pending, dinPrev := t.block.dinPrev }
  still : t.chip.din = s.chip.din → t.block = s.block
  pending : t.block.pending = s.block.pending ∨
    (s.chip.din = true ∧ t.chip.din = false ∧ t.block.pending = true)

/-- SYNC comes back at a fall of DIN, and nothing else happens to it (R40). -/
def SyncFollowsDin (s t : State) : Prop :=
  t.chip.sync = (s.chip.sync || (s.chip.din && !t.chip.din))

/-- A fall of DIN sets PENDING or leaves it (R100, R101). -/
theorem fallingEdge_pending (s : State) :
    (fallingEdge s).block.pending = (s.block.pending || (s.block.listen || Config.drawBit s.draws)) := by
  unfold fallingEdge
  cases h : s.block.listen <;> simp

/-- PENDING after the chip has driven DIN. -/
theorem driveDin_pending (v : Bool) (s : State) :
    (driveDin v s).block.pending =
      (s.block.pending || (s.chip.din && !v &&
        (s.cfg.hasEdgeNotify && s.block.dinPrev && (s.block.listen || Config.drawBit s.draws)))) := by
  unfold driveDin edgeDetect edgeStep
  cases hd : s.chip.din <;> cases v <;> cases hu : s.cfg.hasEdgeNotify <;>
    cases hp : s.block.dinPrev <;> simp [fallingEdge_pending]

/-- A drive of DIN writes nothing of the block but PENDING and DIN_PREV. -/
theorem driveDin_block (v : Bool) (s : State) :
    (driveDin v s).block =
      { s.block with
        pending := (driveDin v s).block.pending
        dinPrev := (driveDin v s).block.dinPrev } := by
  ext1 <;> simp

theorem driveDin_move (v : Bool) (s : State) : DinMove s (driveDin v s) where
  block := driveDin_block v s
  still h := by
    obtain rfl : v = s.chip.din := by simpa using h
    rw [driveDin_same]
  pending := by
    rw [driveDin_pending, driveDin_din]
    generalize (s.cfg.hasEdgeNotify && s.block.dinPrev && _) = seen
    cases s.block.pending <;> cases s.chip.din <;> cases v <;> cases seen <;> simp

theorem syncFollowsDin_of_same {s t : State} (hd : t.chip.din = s.chip.din)
    (hs : t.chip.sync = s.chip.sync) : SyncFollowsDin s t := by
  simp [SyncFollowsDin, hd, hs]

theorem driveDin_syncFollowsDin (v : Bool) (s : State) : SyncFollowsDin s (driveDin v s) := by
  rw [SyncFollowsDin, driveDin_sync, driveDin_din]

/-- A drive of DIN makes at most one draw, and a drive to 1 none (R101). -/
theorem driveDin_draws_le (v : Bool) (s : State) : s.draws ≤ (driveDin v s).draws := by
  unfold driveDin edgeDetect edgeStep fallingEdge
  dsimp only
  repeat' split
  all_goals simp

@[simp] theorem driveDin_true_draws (s : State) : (driveDin true s).draws = s.draws := by
  unfold driveDin edgeDetect edgeStep
  dsimp only
  repeat' split
  all_goals simp_all

/-- A change of the chip's word, its source or the count of draws before a move of DIN is no move. -/
theorem DinMove.of_before {s u t : State} (h : DinMove u t) (hb : u.block = s.block)
    (hd : u.chip.din = s.chip.din) : DinMove s t where
  block := hb ▸ h.block
  still := hb ▸ hd ▸ h.still
  pending := hb ▸ hd ▸ h.pending

theorem DinMove.refl {s t : State} (hb : t.block = s.block) : DinMove s t where
  block := by rw [hb]
  still _ := hb
  pending := .inl (by rw [hb])

/-- A power-down raises DIN (R38). -/
theorem powerDown_move (s : State) : DinMove s (powerDown s) where
  block := (driveDin_move true (setSource .poweredDown s)).block
  still := (driveDin_move true (setSource .poweredDown s)).still
  pending := (driveDin_move true (setSource .poweredDown s)).pending

/-- The draws of a power-down are those of the step it happens in (R154). -/
theorem powerDown_nextGain (s : State) :
    (powerDown s).chip.nextGain = Config.drawGain s.draws := by
  simp [powerDown]

theorem powerDown_conv (s : State) : (powerDown s).chip.conv = Config.drawConv s.draws := by
  simp [powerDown]

/-! ### The chip's own events -/

/-- What the chip's event `drive v` can be: nothing, a fall that latches, or a plain move. -/
theorem chipDrive_cases (v : Bool) (s : State) :
    (dinForcedHigh s = true ∧ chipDrive v s = s) ∨
    (dinForcedHigh s = false ∧ busy s = false ∧ chipDrive v s = driveDin v (latchDraw s)) ∨
    (dinForcedHigh s = false ∧ (busy s = true ∨ s.chip.din = false ∨ v = true) ∧
      chipDrive v s = driveDin v s) := by
  unfold chipDrive
  cases hf : dinForcedHigh s with
  | true => exact .inl ⟨rfl, if_pos rfl⟩
  | false =>
    cases hb : busy s <;> cases hd : s.chip.din <;> cases v <;> simp

/-- What the chip's event `ready w` can be. -/
theorem chipReady_cases (w : Raw24) (s : State) :
    (dinForcedHigh s = true ∧ chipReady w s = s) ∨
    (dinForcedHigh s = false ∧ chipReady w s = driveDin false (latch w s)) := by
  unfold chipReady
  cases hf : dinForcedHigh s <;> simp

/-- What a stretch of the clock can be: a power-down of the chip, if CLK was left high, or nothing but
the time still to come. -/
theorem stretchClock_cases (us : Nat) (s : State) :
    (s.block.clk = true ∧ s.cfg.tPdUs < highTime s + us ∧
      stretchClock us s = powerDown (addStretch us s)) ∨
    (¬ (s.block.clk = true ∧ s.cfg.tPdUs < highTime s + us) ∧
      stretchClock us s = addStretch us s) := by
  have hh : highTime (addStretch us s) = highTime s + us := by
    simp [highTime, addStretch, Nat.add_assoc]
  unfold stretchClock
  simp only [hh, addStretch_block, addStretch_cfg, Bool.and_eq_true, decide_eq_true_eq]
  split
  · rename_i h; exact .inl ⟨h.1, h.2, rfl⟩
  · rename_i h; exact .inr ⟨h, rfl⟩

theorem chipDrive_move (v : Bool) (s : State) : DinMove s (chipDrive v s) := by
  rcases chipDrive_cases v s with ⟨-, h⟩ | ⟨-, -, h⟩ | ⟨-, -, h⟩ <;> rw [h]
  · exact .refl rfl
  · exact (driveDin_move v _).of_before rfl rfl
  · exact driveDin_move v s

theorem chipReady_move (w : Raw24) (s : State) : DinMove s (chipReady w s) := by
  rcases chipReady_cases w s with ⟨-, h⟩ | ⟨-, h⟩ <;> rw [h]
  · exact .refl rfl
  · exact (driveDin_move false _).of_before rfl rfl

theorem stretchClock_move (us : Nat) (s : State) : DinMove s (stretchClock us s) := by
  rcases stretchClock_cases us s with ⟨-, -, h⟩ | ⟨-, h⟩ <;> rw [h]
  · exact (powerDown_move _).of_before rfl rfl
  · exact .refl rfl

theorem chipDrive_syncFollowsDin (v : Bool) (s : State) : SyncFollowsDin s (chipDrive v s) := by
  rcases chipDrive_cases v s with ⟨-, h⟩ | ⟨-, -, h⟩ | ⟨-, -, h⟩ <;> rw [h]
  · exact syncFollowsDin_of_same rfl rfl
  · exact driveDin_syncFollowsDin v (latchDraw s)
  · exact driveDin_syncFollowsDin v s

theorem chipReady_syncFollowsDin (w : Raw24) (s : State) : SyncFollowsDin s (chipReady w s) := by
  rcases chipReady_cases w s with ⟨-, h⟩ | ⟨-, h⟩ <;> rw [h]
  · exact syncFollowsDin_of_same rfl rfl
  · exact driveDin_syncFollowsDin false (latch w s)

/-- The chip moves DIN as it likes, but for the remainder of a READ in which it powered down. -/
theorem chipDrive_din {v : Bool} {s : State} (hf : dinForcedHigh s = false) :
    (chipDrive v s).chip.din = v := by
  rcases chipDrive_cases v s with ⟨h, -⟩ | ⟨-, -, h⟩ | ⟨-, -, h⟩
  · rw [hf] at h; cases h
  · rw [h, driveDin_din]
  · rw [h, driveDin_din]

theorem chipReady_of_not_forced {w : Raw24} {s : State} (hf : dinForcedHigh s = false) :
    chipReady w s = driveDin false (latch w s) := by
  rcases chipReady_cases w s with ⟨h, -⟩ | ⟨-, h⟩
  · rw [hf] at h; cases h
  · exact h

end Sys2Proof.Machine
end

