-- ==== Sys2Proof/Proofs/Pulses.lean ====
section
/-! SUPPORT. What a pulse can come to (40_protocol_engine.md R85, R86; 60_exceptions.md R136): by the
first of its pin primitives that fails, and by what the chip does in its high phase (10_state.md R38). -/

namespace Sys2Proof.Machine

open Sys2Proof.Safety

/-! ### Pin primitives to come -/

@[simp] theorem pinsHold_zero (s : State) : pinsHold 0 s = true := rfl

/-- Where `m` primitives hold, fewer do. -/
theorem pinsHold_le {n m : Nat} {s : State} (hle : n ≤ m) (h : pinsHold m s = true) :
    pinsHold n s = true := by
  simp only [pinsHold, List.all_eq_true] at h ⊢
  exact fun b hb => h b ((List.take_subset_take_left s.pins hle) hb)

/-- Where one of `n` primitives fails, one of more does. -/
theorem pinsHold_false_le {n m : Nat} {s : State} (hle : n ≤ m) (h : pinsHold n s = false) :
    pinsHold m s = false := by
  rw [← Bool.not_eq_true] at h ⊢
  exact fun hm => h (pinsHold_le hle hm)

/-- The first of `n + 1` primitives, and the `n` after it. -/
theorem pinsHold_succ (n : Nat) (s : State) :
    pinsHold (n + 1) s = (!pinFails s && pinsHold n (popPin s)) := by
  unfold pinsHold pinFails
  cases h : s.pins <;> simp [h]

theorem pinsHold_one (s : State) : pinsHold 1 s = !pinFails s := by
  simp [pinsHold_succ]

/-! ### The high phase -/

/-- CLK has risen and the stretch is used up; the chip has not moved DIN yet. -/
def risen (s : State) : State := endStretch (setClk true (popPin s))

/-- The state in the middle of a control pulse. -/
def midCtrl (s : State) : State := holdHigh (setClk true (popPin s))

/-- What the chip can have done by the time CLK falls: it has powered down, or it has driven DIN to some
level, to the one it has in a control pulse, to 1 for the remainder of a READ in which it powered down. -/
inductive HighPhase (s : State) : State → Prop
  | poweredDown (long : s.cfg.tPdUs < highTime s) : HighPhase s (powerDown (risen s))
  | quiet (short : highTime s ≤ s.cfg.tPdUs) : HighPhase s (risen s)
  | bit (short : highTime s ≤ s.cfg.tPdUs) (v : Bool) (u : State)
      (before : u = risen s ∨ u = spendDraw (risen s))
      (forced : s.chip.source = .poweredDown → v = true) : HighPhase s (driveDin v u)

theorem midCtrl_long (s : State) (h : s.cfg.tPdUs < highTime s) :
    midCtrl s = powerDown (risen s) := holdHigh_long (setClk true (popPin s)) h

theorem midCtrl_short (s : State) (h : highTime s ≤ s.cfg.tPdUs) : midCtrl s = risen s :=
  holdHigh_short (setClk true (popPin s)) h

theorem midPulse_eq (s : State) : midPulse s = chipShiftOut (midCtrl s) := rfl

/-- After a power-down in the pulse DIN is 1 already when the data bit comes (R38). -/
theorem midPulse_long (s : State) (h : s.cfg.tPdUs < highTime s) :
    midPulse s = powerDown (risen s) := by
  rw [midPulse_eq, midCtrl_long s h]
  unfold chipShiftOut
  rw [powerDown_source]
  simpa using driveDin_same (powerDown (risen s))

theorem midPulse_short (s : State) (h : highTime s ≤ s.cfg.tPdUs) :
    midPulse s = chipShiftOut (risen s) := by
  rw [midPulse_eq, midCtrl_short s h]

theorem midCtrl_highPhase (s : State) : HighPhase s (midCtrl s) := by
  rcases Nat.lt_or_ge s.cfg.tPdUs (highTime s) with h | h
  · rw [midCtrl_long s h]; exact .poweredDown h
  · rw [midCtrl_short s h]; exact .quiet h

theorem midPulse_highPhase (s : State) : HighPhase s (midPulse s) := by
  rcases Nat.lt_or_ge s.cfg.tPdUs (highTime s) with h | h
  · rw [midPulse_long s h]; exact .poweredDown h
  · have hs : (risen s).chip.source = s.chip.source := rfl
    rw [midPulse_short s h]
    unfold chipShiftOut
    split <;> rename_i hsrc <;> rw [hs] at hsrc
    · exact .bit h _ _ (.inl rfl) (by simp [hsrc])
    · exact .bit h _ _ (.inr rfl) (by simp [hsrc])
    · exact .bit h true _ (.inl rfl) fun _ => rfl

section
variable {s m : State} (h : HighPhase s m)
include h

/-- The high phase is a move of DIN from the state in which CLK has risen. -/
theorem HighPhase.move : DinMove (risen s) m := by
  cases h with
  | poweredDown => exact powerDown_move _
  | quiet => exact .refl rfl
  | bit _ v u hu =>
    obtain rfl | rfl := hu
    · exact driveDin_move v _
    · exact (driveDin_move v _).of_before rfl rfl

/-- SYNC follows DIN in the high phase unless the chip powers down in it. -/
theorem HighPhase.sync :
    (s.cfg.tPdUs < highTime s ∧ m.chip.din = true ∧ m.chip.sync = false ∧
      m.chip.source = .poweredDown) ∨
    (highTime s ≤ s.cfg.tPdUs ∧ SyncFollowsDin s m) := by
  cases h with
  | poweredDown hl => exact .inl ⟨hl, by simp⟩
  | quiet hs => exact .inr ⟨hs, by simp [SyncFollowsDin, risen]⟩
  | bit hs v u hu =>
    obtain rfl | rfl := hu
    · exact .inr ⟨hs, driveDin_syncFollowsDin v (risen s)⟩
    · exact .inr ⟨hs, driveDin_syncFollowsDin v (spendDraw (risen s))⟩

/-- Draws are only ever spent. -/
theorem HighPhase.draws_le : s.draws ≤ m.draws := by
  cases h with
  | poweredDown => simp [powerDown, risen]
  | quiet => exact le_rfl
  | bit _ v u hu =>
    refine le_trans ?_ (driveDin_draws_le v u)
    obtain rfl | rfl := hu
    · exact le_rfl
    · exact Nat.le_succ _

end

/-! ### The outcomes of a pulse -/

/-- The state a failing write of CLK leaves (R136). -/
def failedClkWrite (s : State) : State :=
  pinFault .clk (spendDraw (setClk (Config.drawBit s.draws) (popPin s)))

/-- The state a failing sample of DIN leaves (R136). -/
def failedSample (s : State) : State := pinFault .din (popPin s)

/-- The state after a whole data pulse, its bit taken and STEP moved on. -/
def dataNext (s : State) : State := afterData (takeBit (wholeDataPulse s).chip.din (wholeDataPulse s))

/-- The state after a whole control pulse, STEP moved on. -/
def ctrlNext (s : State) : State := afterCtrl (wholeCtrlPulse s)

/-- What a data pulse comes to, by the first primitive that fails. -/
inductive DataOutcome (s : State) : State → Prop
  | risingFails (fails : pinsHold 1 s = false) : DataOutcome s (failedClkWrite s)
  | sampleFails (holds : pinsHold 1 s = true) (fails : pinsHold 2 s = false) :
      DataOutcome s (failedSample (midPulse s))
  | fallingFails (holds : pinsHold 2 s = true) (fails : pinsHold 3 s = false) :
      DataOutcome s (failedClkWrite (popPin (midPulse s)))
  | whole (holds : pinsHold 3 s = true) : DataOutcome s (dataNext s)

/-- What a control pulse comes to, by the first primitive that fails. -/
inductive CtrlOutcome (s : State) : State → Prop
  | risingFails (fails : pinsHold 1 s = false) : CtrlOutcome s (failedClkWrite s)
  | fallingFails (holds : pinsHold 1 s = true) (fails : pinsHold 2 s = false) :
      CtrlOutcome s (failedClkWrite (midCtrl s))
  | whole (holds : pinsHold 2 s = true) : CtrlOutcome s (ctrlNext s)

theorem pinFails_midPulse (s : State) : pinFails (midPulse s) = pinFails (popPin s) := by
  simp [pinFails, midPulse]

theorem pinFails_popPin_midPulse (s : State) :
    pinFails (popPin (midPulse s)) = pinFails (popPin (popPin s)) := by
  simp [pinFails, midPulse]

theorem pinFails_midCtrl (s : State) : pinFails (midCtrl s) = pinFails (popPin s) := by
  simp [pinFails, midCtrl]

/-- While data pulses are owed, the micro-step in READING answers one of the pulse's outcomes. -/
theorem dataStep_outcome (s : State) (hc : s.block.cnt.toNat < 24) :
    ∃ t, dataStep s = .next t ∧ DataOutcome s t := by
  have h1 := pinsHold_one s
  have h2 : pinsHold 2 s = (!pinFails s && !pinFails (popPin s)) := by simp [pinsHold_succ]
  have h3 : pinsHold 3 s = (!pinFails s && (!pinFails (popPin s) && !pinFails (popPin (popPin s)))) := by
    simp [pinsHold_succ]
  rw [dataStep, if_pos (show _ < dataPulses from hc)]
  unfold dataPulse
  rcases pinWriteClk_cases true s with ⟨f1, e1⟩ | ⟨f1, e1⟩ <;> rw [e1]
  · dsimp only
    rw [← midPulse]
    rcases pinReadDin_cases (midPulse s) with ⟨f2, e2⟩ | ⟨f2, e2⟩ <;> rw [e2] <;>
      rw [pinFails_midPulse] at f2
    · dsimp only
      rcases pinWriteClk_cases false (popPin (midPulse s)) with ⟨f3, e3⟩ | ⟨f3, e3⟩ <;> rw [e3] <;>
        rw [pinFails_popPin_midPulse] at f3
      · exact ⟨_, rfl, .whole (by simp [h3, f1, f2, f3])⟩
      · exact ⟨_, rfl, .fallingFails (by simp [h2, f1, f2]) (by simp [h3, f1, f2, f3])⟩
    · exact ⟨_, rfl, .sampleFails (by simp [h1, f1]) (by simp [h2, f1, f2])⟩
  · exact ⟨_, rfl, .risingFails (by simp [h1, f1])⟩

/-- While control pulses are owed, the micro-step in GAINPULSING answers one of the pulse's outcomes. -/
theorem ctrlStep_outcome (s : State) (hc : s.block.cnt.toNat < pulseCount s.block.gain) :
    ∃ t, ctrlStep s = .next t ∧ CtrlOutcome s t := by
  have h1 := pinsHold_one s
  have h2 : pinsHold 2 s = (!pinFails s && !pinFails (popPin s)) := by simp [pinsHold_succ]
  rw [ctrlStep, if_pos hc]
  unfold ctrlPulse
  rcases pinWriteClk_cases true s with ⟨f1, e1⟩ | ⟨f1, e1⟩ <;> rw [e1]
  · dsimp only
    rw [← midCtrl]
    rcases pinWriteClk_cases false (midCtrl s) with ⟨f2, e2⟩ | ⟨f2, e2⟩ <;> rw [e2] <;>
      rw [pinFails_midCtrl] at f2
    · exact ⟨_, rfl, .whole (by simp [h2, f1, f2])⟩
    · exact ⟨_, rfl, .fallingFails (by simp [h1, f1]) (by simp [h2, f1, f2])⟩
  · exact ⟨_, rfl, .risingFails (by simp [h1, f1])⟩

theorem ctrlStep_complete (s : State) (hc : s.block.cnt.toNat = pulseCount s.block.gain) :
    ctrlStep s = .next (completeRead s) := by
  rw [ctrlStep, if_neg (by omega), if_pos hc]

/-- `t` has the data line, the chip's side and the edge detector as they are in `m`. -/
structure SameLine (m t : State) : Prop where
  cfg : t.cfg = m.cfg
  din : t.chip.din = m.chip.din
  sync : t.chip.sync = m.chip.sync
  source : t.chip.source = m.chip.source
  pending : t.block.pending = m.block.pending
  dinPrev : t.block.dinPrev = m.block.dinPrev
  listen : t.block.listen = m.block.listen
  stretch : t.stretch = m.stretch

theorem failedClkWrite_sameLine (s : State) : SameLine s (failedClkWrite s) :=
  ⟨rfl, rfl, rfl, rfl, rfl, rfl, rfl, rfl⟩

theorem failedSample_sameLine (s : State) : SameLine s (failedSample s) :=
  ⟨rfl, rfl, rfl, rfl, rfl, rfl, rfl, rfl⟩

theorem popPin_sameLine (s : State) : SameLine s (popPin s) :=
  ⟨rfl, rfl, rfl, rfl, rfl, rfl, rfl, rfl⟩

theorem ctrlNext_sameLine (s : State) : SameLine (midCtrl s) (ctrlNext s) :=
  ⟨rfl, rfl, rfl, rfl, rfl, rfl, rfl, rfl⟩

/-- Once CLK has fallen nothing of the line moves. -/
theorem wholeDataPulse_sameLine (s : State) : SameLine (midPulse s) (wholeDataPulse s) :=
  ⟨rfl, rfl, rfl, rfl, rfl, rfl, rfl, rfl⟩

theorem dataNext_sameLine (s : State) : SameLine (wholeDataPulse s) (dataNext s) := by
  constructor <;> simp [dataNext]

theorem SameLine.trans {m u t : State} (h : SameLine m u) (h' : SameLine u t) : SameLine m t :=
  ⟨h'.cfg.trans h.cfg, h'.din.trans h.din, h'.sync.trans h.sync, h'.source.trans h.source,
    h'.pending.trans h.pending, h'.dinPrev.trans h.dinPrev, h'.listen.trans h.listen,
    h'.stretch.trans h.stretch⟩

/-- What became of the line in a pulse: nothing where its rising write failed, and what the high phase
made of it where that held. -/
def PulseLine (s t : State) : Prop :=
  (pinsHold 1 s = false ∧ SameLine s t) ∨ (pinsHold 1 s = true ∧ ∃ m, HighPhase s m ∧ SameLine m t)

theorem DataOutcome.line {s t : State} (h : DataOutcome s t) : PulseLine s t := by
  cases h with
  | risingFails h => exact .inl ⟨h, failedClkWrite_sameLine s⟩
  | sampleFails h =>
    exact .inr ⟨h, _, midPulse_highPhase s, failedSample_sameLine _⟩
  | fallingFails h =>
    exact .inr ⟨pinsHold_le (by decide) h, _, midPulse_highPhase s,
      (popPin_sameLine _).trans (failedClkWrite_sameLine _)⟩
  | whole h =>
    exact .inr ⟨pinsHold_le (by decide) h, _, midPulse_highPhase s,
      (wholeDataPulse_sameLine s).trans (dataNext_sameLine s)⟩

theorem CtrlOutcome.line {s t : State} (h : CtrlOutcome s t) : PulseLine s t := by
  cases h with
  | risingFails h => exact .inl ⟨h, failedClkWrite_sameLine s⟩
  | fallingFails h => exact .inr ⟨h, _, midCtrl_highPhase s, failedClkWrite_sameLine _⟩
  | whole h =>
    exact .inr ⟨pinsHold_le (by decide) h, _, midCtrl_highPhase s, ctrlNext_sameLine s⟩

/-- PENDING in a pulse is written by the edge detector at a fall of DIN only. -/
theorem PulseLine.pending {s t : State} (h : PulseLine s t) :
    t.block.pending = s.block.pending ∨
    (s.chip.din = true ∧ t.chip.din = false ∧ t.block.pending = true) := by
  rcases h with ⟨-, hl⟩ | ⟨-, m, hm, hl⟩
  · exact .inl hl.pending
  · rw [hl.pending, hl.din]
    exact hm.move.pending

/-- SYNC follows DIN in a pulse, unless the chip powers down in it (R38, R40). -/
theorem PulseLine.sync {s t : State} (h : PulseLine s t) :
    (pinsHold 1 s = true ∧ s.cfg.tPdUs < highTime s ∧ t.chip.din = true ∧ t.chip.sync = false) ∨
    SyncFollowsDin s t := by
  rcases h with ⟨-, hl⟩ | ⟨h1, m, hm, hl⟩
  · exact .inr (syncFollowsDin_of_same hl.din hl.sync)
  · rcases hm.sync with ⟨hlong, hd, hs, -⟩ | ⟨-, hs⟩
    · exact .inl ⟨h1, hlong, by rw [hl.din, hd], by rw [hl.sync, hs]⟩
    · exact .inr (by rwa [SyncFollowsDin, hl.sync, hl.din])

/-- A pulse that lasts longer than T_PD_US powers the chip down, whatever becomes of its other
primitives (R38). -/
theorem PulseLine.poweredDown {s t : State} (h : PulseLine s t) (h1 : pinsHold 1 s = true)
    (hlong : s.cfg.tPdUs < highTime s) :
    t.chip.sync = false ∧ t.chip.source = .poweredDown := by
  rcases h with ⟨hf, -⟩ | ⟨-, m, hm, hl⟩
  · rw [h1] at hf; cases hf
  · rcases hm.sync with ⟨-, -, hs, hsrc⟩ | ⟨hshort, -⟩
    · exact ⟨by rw [hl.sync, hs], by rw [hl.source, hsrc]⟩
    · omega

/-- What no pulse writes, whole or not. -/
structure PulseKeeps (s t : State) : Prop where
  cfg : t.cfg = s.cfg
  chan : t.chan = s.chan
  host : t.host = s.host
  gain : t.block.gain = s.block.gain
  listen : t.block.listen = s.block.listen
  result : t.block.result = s.block.result

theorem DataOutcome.keeps {s t : State} (h : DataOutcome s t) : PulseKeeps s t := by
  cases h with
  | risingFails => exact ⟨rfl, rfl, rfl, rfl, rfl, rfl⟩
  | sampleFails => constructor <;> simp [failedSample, midPulse]
  | fallingFails => constructor <;> simp [failedClkWrite, midPulse]
  | whole => constructor <;> simp [dataNext]

theorem CtrlOutcome.keeps {s t : State} (h : CtrlOutcome s t) : PulseKeeps s t := by
  cases h with
  | risingFails => exact ⟨rfl, rfl, rfl, rfl, rfl, rfl⟩
  | fallingFails => constructor <;> simp [failedClkWrite, midCtrl]
  | whole => constructor <;> simp [ctrlNext]

/-- STEP after a whole data pulse but the last (R84). -/
theorem dataNext_step_lt {s : State} (hc : s.block.cnt.toNat < 23) :
    (dataNext s).block.phase = .reading ∧ (dataNext s).block.cnt = s.block.cnt + 1#5 := by
  rcases afterData_cases (takeBit (wholeDataPulse s).chip.din (wholeDataPulse s)) with
    ⟨-, e⟩ | ⟨hn, -⟩
  · simp [dataNext, e]
  · exact absurd (by simpa using hc) hn

/-- STEP after the last data pulse (R84). -/
theorem dataNext_step_last {s : State} (hc : ¬ s.block.cnt.toNat < 23) :
    (dataNext s).block.phase = .gainPulsing ∧ (dataNext s).block.cnt = 0#5 := by
  rcases afterData_cases (takeBit (wholeDataPulse s).chip.din (wholeDataPulse s)) with
    ⟨hn, -⟩ | ⟨-, e⟩
  · exact absurd (by simpa using hn) hc
  · simp [dataNext, e]

/-! ### FAULT -/

/-- A data pulse sets FAULT exactly when one of its three primitives fails (R136). -/
theorem DataOutcome.fault_iff {s t : State} (h : DataOutcome s t) (hs : s.block.fault = false) :
    t.block.fault = true ↔ pinsHold 3 s = false := by
  cases h with
  | risingFails h => exact iff_of_true rfl (pinsHold_false_le (by decide) h)
  | sampleFails _ h => exact iff_of_true rfl (pinsHold_false_le (by decide) h)
  | fallingFails _ h => exact iff_of_true rfl h
  | whole h => simp [dataNext, hs, h]

/-- A control pulse sets FAULT exactly when one of its two primitives fails (R136). -/
theorem CtrlOutcome.fault_iff {s t : State} (h : CtrlOutcome s t) (hs : s.block.fault = false) :
    t.block.fault = true ↔ pinsHold 2 s = false := by
  cases h with
  | risingFails h => exact iff_of_true rfl (pinsHold_false_le (by decide) h)
  | fallingFails _ h => exact iff_of_true rfl h
  | whole h => simp [ctrlNext, hs, h]

end Sys2Proof.Machine
end

