-- ==== Sys2Proof/Proofs/Turns.lean ====
section
/-! SUPPORT. Whose turn it is, and what the step then is: one lemma for each kind of turn, and what a
step in a READ was, read back from the state it answers. -/

namespace Sys2Proof.Machine

open Sys2Proof.Safety

@[simp] theorem pinsHold_takeEvent (n : Nat) (s : State) : pinsHold n (takeEvent s) = pinsHold n s := rfl

theorem DinMove.of_takeEvent {s t : State} (h : DinMove (takeEvent s) t) : DinMove s t :=
  h.of_before rfl rfl

/-- The word of a legal command is read as that command (R65, R68). -/
theorem decode_encode (h : Bool) (i : Instr) (hl : i.legal h = true) : decode h (encode i) = .ok i := by
  cases i with
  | setgain g => revert g; cases h <;> decide
  | rdy | read | getgain => cases h <;> rfl
  | listen | unlisten | clrint | islistening =>
    obtain rfl : h = true := by simpa [Instr.legal, Instr.wellFormed, Instr.needsEdgeNotify] using hl
    rfl

/-- Taking an event of the environment is the whole move. -/
theorem nextMove_event {s : State} {e : Event} (h : eventTurn e s = true) :
    nextMove s = eventMove e (takeEvent s) := by
  simp only [eventTurn, Bool.and_eq_true, beq_iff_eq] at h
  obtain ⟨hc, hs⟩ := h
  obtain ⟨es, hq⟩ := List.head?_eq_some_iff.mp hs
  simp [nextMove, hc, hq, takeEvent]

theorem step_drive {s : State} {v : Bool} (h : eventTurn (.drive v) s = true) :
    step s = .next (chipDrive v (takeEvent s)) := by
  rw [step, nextMove_event h]; rfl

theorem step_ready {s : State} {w : Raw24} (h : eventTurn (.ready w) s = true) :
    step s = .next (chipReady w (takeEvent s)) := by
  rw [step, nextMove_event h]; rfl

theorem step_stretch {s : State} {us : Nat} (h : eventTurn (.stretch us) s = true)
    (ha : s.cfg.platformStretches = true) : step s = .next (stretchClock us (takeEvent s)) := by
  rw [step, nextMove_event h]
  exact if_pos ha

/-- The step in which the block accepts a command is that command's meaning (R53, R68). -/
theorem step_accepts {s : State} {i : Instr} (h : accepts s i = true) :
    step s = exec i (acceptCommand (takeEvent s)) := by
  simp only [accepts, presents, canAccept, Bool.and_eq_true, beq_iff_eq, Bool.not_eq_true'] at h
  obtain ⟨⟨ha, ⟨hp, hf⟩, hc⟩, hl⟩ := h
  simp only [step, nextMove_agents s ha, agentMove, takeEvent_block, takeEvent_chan, hf, hp, hc,
    acceptWord, takeEvent_cfg, decode_encode _ i hl]
  rfl

/-- A faulted block has no step (R28). -/
theorem step_faulted {s : State} (ha : agentsTurn s = true) (hf : s.block.fault = true) :
    step s = .fault .stuck := by
  rw [step, nextMove_agents s ha, agentMove, takeEvent_block, hf]; rfl

theorem microTurn_parts {s : State} (h : microTurn s = true) :
    agentsTurn s = true ∧ s.block.fault = false ∧ busy s = true := by
  simpa [microTurn, and_assoc] using h

theorem agentsTurn_legal {s : State} (h : agentsTurn s = true) : s.cfg.tBitUs < s.cfg.tPdUs := by
  simp only [agentsTurn, Params.legal, Bool.and_eq_true, decide_eq_true_eq] at h
  exact h.1

theorem accepts_parts {s : State} {i : Instr} (h : accepts s i = true) :
    agentsTurn s = true ∧ s.block.phase = .idle ∧ s.block.fault = false ∧
      s.chan.cmd = some (encode i) := by
  simp only [accepts, presents, canAccept, Bool.and_eq_true, beq_iff_eq, Bool.not_eq_true'] at h
  obtain ⟨⟨ha, ⟨hp, hf⟩, hc⟩, -⟩ := h
  exact ⟨ha, hp, hf, hc⟩

theorem canAccept_parts {s : State} (h : canAccept s = true) :
    s.block.phase = .idle ∧ s.block.fault = false := by
  simpa [canAccept] using h

theorem hostTurn_parts {s : State} (h : hostTurn s = true) :
    agentsTurn s = true ∧ s.block.phase = .idle ∧ s.block.fault = false ∧ s.chan.cmd = none := by
  simpa [hostTurn, canAccept, and_assoc] using h

theorem busy_iff (s : State) : busy s = true ↔ s.block.phase ≠ .idle := by simp [busy]

theorem dataTurn_iff (s : State) : dataTurn s = true ↔
    microTurn s = true ∧ s.block.phase = .reading ∧ s.block.cnt.toNat < 24 := by
  simp only [dataTurn, Bool.and_eq_true, beq_iff_eq, decide_eq_true_eq, and_assoc]
  exact Iff.rfl

theorem ctrlTurn_iff (s : State) : ctrlTurn s = true ↔
    microTurn s = true ∧ s.block.phase = .gainPulsing ∧
      s.block.cnt.toNat < pulseCount s.block.gain := by
  simp [ctrlTurn, and_assoc]

/-- In a READ the step is the sequencer's (R84). -/
theorem step_micro {s : State} (h : microTurn s = true) : step s = sequencerStep (takeEvent s) := by
  obtain ⟨ha, hf, hb⟩ := microTurn_parts h
  rw [busy_iff] at hb
  simp only [step, nextMove_agents s ha, agentMove, takeEvent_block, hf]
  cases hp : s.block.phase with
  | idle => exact absurd hp hb
  | reading => rfl
  | gainPulsing => rfl

theorem step_reading {s : State} (h : microTurn s = true) (hp : s.block.phase = .reading) :
    step s = dataStep (takeEvent s) := by
  rw [step_micro h, sequencerStep, takeEvent_block, hp]

theorem step_gainPulsing {s : State} (h : microTurn s = true) (hp : s.block.phase = .gainPulsing) :
    step s = ctrlStep (takeEvent s) := by
  rw [step_micro h, sequencerStep, takeEvent_block, hp]

/-- A step that owes a data pulse comes to one of the pulse's outcomes. -/
theorem step_data {s : State} (h : dataTurn s = true) :
    ∃ t, step s = .next t ∧ DataOutcome (takeEvent s) t := by
  obtain ⟨hm, hp, hc⟩ := (dataTurn_iff s).mp h
  rw [step_reading hm hp]
  exact dataStep_outcome (takeEvent s) hc

/-- A step that owes a control pulse comes to one of the pulse's outcomes. -/
theorem step_ctrl {s : State} (h : ctrlTurn s = true) :
    ∃ t, step s = .next t ∧ CtrlOutcome (takeEvent s) t := by
  obtain ⟨hm, hp, hc⟩ := (ctrlTurn_iff s).mp h
  rw [step_gainPulsing hm hp]
  exact ctrlStep_outcome (takeEvent s) hc

/-- Where the pins hold, a data pulse is whole. -/
theorem step_data_whole {s : State} (h : dataTurn s = true) (hh : pinsHold 3 s = true) :
    step s = .next (dataNext (takeEvent s)) := by
  obtain ⟨t, ht, ho⟩ := step_data h
  have h1 : pinsHold 1 s = true := pinsHold_le (by decide) hh
  have h2 : pinsHold 2 s = true := pinsHold_le (by decide) hh
  cases ho with
  | whole => exact ht
  | risingFails hf => simp [h1] at hf
  | sampleFails _ hf => simp [h2] at hf
  | fallingFails _ hf => simp [hh] at hf

/-- Where the pins hold, a control pulse is whole. -/
theorem step_ctrl_whole {s : State} (h : ctrlTurn s = true) (hh : pinsHold 2 s = true) :
    step s = .next (ctrlNext (takeEvent s)) := by
  obtain ⟨t, ht, ho⟩ := step_ctrl h
  have h1 : pinsHold 1 s = true := pinsHold_le (by decide) hh
  cases ho with
  | whole => exact ht
  | risingFails hf => simp [h1] at hf
  | fallingFails _ hf => simp [hh] at hf

/-- With no pulse owed any more the READ completes (R88). -/
theorem step_complete {s : State} (h : microTurn s = true) (hp : s.block.phase = .gainPulsing)
    (hc : s.block.cnt.toNat = pulseCount s.block.gain) :
    step s = .next (completeRead (takeEvent s)) := by
  rw [step_gainPulsing h hp, ctrlStep_complete (takeEvent s) hc]

/-- What a micro-step in READING was, read back from its answer. -/
theorem dataStep_outcome_of_next {s t : State} (h : dataStep s = .next t) :
    s.block.cnt.toNat < 24 ∧ DataOutcome s t := by
  have hc := (dataStep_cases s t h).1
  obtain ⟨u, hu, ho⟩ := dataStep_outcome s hc
  cases h.symm.trans hu
  exact ⟨hc, ho⟩

/-- What a micro-step in GAINPULSING was, read back from its answer. -/
theorem ctrlStep_outcome_of_next {s t : State} (h : ctrlStep s = .next t) :
    (s.block.cnt.toNat < pulseCount s.block.gain ∧ CtrlOutcome s t) ∨
    (s.block.cnt.toNat = pulseCount s.block.gain ∧ t = completeRead s) := by
  rcases ctrlStep_cases s t h with ⟨hc, -⟩ | hdone
  · obtain ⟨u, hu, ho⟩ := ctrlStep_outcome s hc
    cases h.symm.trans hu
    exact .inl ⟨hc, ho⟩
  · exact .inr hdone

/-! ### Commands by name -/

/-- What an accepted command comes to, one constructor for each way it can end (R80, R81, R89, R90, R102
to R105). -/
inductive ExecCase (s : State) : Instr → State → Prop
  | rdyFails (fails : pinFails s = true) : ExecCase s .rdy (failedSample s)
  | rdy (holds : pinFails s = false) :
      ExecCase s .rdy (respondOk (zextBit (!s.chip.din)) (popPin s))
  | read : ExecCase s .read (beginRead s)
  | illegal (i : Instr) : ExecCase s i (respondIllegal s)
  | setgain (g : BitVec 2) (defined : g ≠ 3#2) :
      ExecCase s (.setgain g) (respondOk 0#32 (setGain g s))
  | getgain : ExecCase s .getgain (respondOk (zextGain s.block.gain) s)
  | listen (unit : s.cfg.hasEdgeNotify = true) :
      ExecCase s .listen (respondOk 0#32 (setListen true s))
  | unlisten (unit : s.cfg.hasEdgeNotify = true) :
      ExecCase s .unlisten (respondOk 0#32 (setListen false s))
  | clrint (unit : s.cfg.hasEdgeNotify = true) :
      ExecCase s .clrint (respondOk 0#32 (setPending false s))
  | islistening (unit : s.cfg.hasEdgeNotify = true) :
      ExecCase s .islistening (respondOk (zextBit s.block.listen) s)

theorem exec_case {i : Instr} {s t : State} (h : exec i s = .next t) : ExecCase s i t := by
  rcases exec_cases i s t h with ⟨rfl, hf, rfl⟩ | ⟨rfl, hf, rfl⟩ | ⟨rfl, rfl⟩ | rfl |
    ⟨g, rfl, hg, rfl⟩ | ⟨rfl, rfl⟩ | ⟨hu, ⟨rfl, rfl⟩ | ⟨rfl, rfl⟩ | ⟨rfl, rfl⟩ | ⟨rfl, rfl⟩⟩
  · exact .rdyFails hf
  · exact .rdy hf
  · exact .read
  · exact .illegal i
  · exact .setgain g hg
  · exact .getgain
  · exact .listen hu
  · exact .unlisten hu
  · exact .clrint hu
  · exact .islistening hu

/-! ### Every step -/

/-- Everything a step that answers a next state can be, with what the commands and the pulses come to. -/
inductive StepKind (s t : State) : Prop where
  | drive (v : Bool) (turn : eventTurn (.drive v) s = true) (eq : t = chipDrive v (takeEvent s))
  | ready (w : Raw24) (turn : eventTurn (.ready w) s = true) (eq : t = chipReady w (takeEvent s))
  | stretch (us : Nat) (turn : eventTurn (.stretch us) s = true)
      (allowed : s.cfg.platformStretches = true) (eq : t = stretchClock us (takeEvent s))
  | rst (turn : eventTurn .rst s = true) (eq : t = resetMachine (takeEvent s))
  | command (i : Instr) (acc : accepts s i = true) (out : ExecCase (acceptCommand (takeEvent s)) i t)
  | illegal (turn : agentsTurn s = true) (acc : canAccept s = true)
      (eq : t = respondIllegal (acceptCommand (takeEvent s)))
  | data (turn : dataTurn s = true) (out : DataOutcome (takeEvent s) t)
  | ctrl (turn : ctrlTurn s = true) (out : CtrlOutcome (takeEvent s) t)
  | complete (turn : microTurn s = true) (phase : s.block.phase = .gainPulsing)
      (cnt : s.block.cnt.toNat = pulseCount s.block.gain) (eq : t = completeRead (takeEvent s))
  | host (turn : hostTurn s = true) (frame : HostFrame (takeEvent s) t)

theorem step_kind {s t : State} (h : step s = .next t) : StepKind s t := by
  cases step_cases s t h with
  | drive v turn eq => exact .drive v turn eq
  | ready w turn eq => exact .ready w turn eq
  | stretch us turn allowed eq => exact .stretch us turn allowed eq
  | rst turn eq => exact .rst turn eq
  | command i acc eq => exact .command i acc (exec_case eq)
  | illegal turn acc eq => exact .illegal turn acc eq
  | data turn phase eq =>
    obtain ⟨hc, ho⟩ := dataStep_outcome_of_next eq
    exact .data ((dataTurn_iff s).mpr ⟨turn, phase, hc⟩) ho
  | ctrl turn phase eq =>
    rcases ctrlStep_outcome_of_next eq with ⟨hc, ho⟩ | ⟨hc, ht⟩
    · exact .ctrl ((ctrlTurn_iff s).mpr ⟨turn, phase, hc⟩) ho
    · exact .complete turn phase hc ht
  | host turn eq => exact .host turn (hostStep_frame _ _ _ eq)

/-! ### Reset -/

/-- Reset of an idle block does not touch the chip (R159). -/
theorem resetMachine_chip_idle {s : State} (h : busy s = false) : (resetMachine s).chip = s.chip := by
  simp [resetMachine, chipCutFrame, h]

/-- Reset while BUSY loses SYNC (R158). -/
theorem resetMachine_sync_busy {s : State} (h : busy s = true) :
    (resetMachine s).chip.sync = false := by
  simp [resetMachine, chipCutFrame, h]

/-! ### Waiting for a response -/

/-- A waiting context stays where it is or takes the response. -/
theorem onResponse_next {s t : State} {k : Response → Host.Outcome State Fault Refusal}
    (h : onResponse s k = .next t) : t = s ∨ ∃ r, k r = .next t := by
  unfold onResponse at h
  split at h
  · cases h; exact .inl rfl
  · exact .inr ⟨_, h⟩

end Sys2Proof.Machine
end

