-- ==== Sys2Proof/Proofs/Invariant.lean ====
section
/-! SUPPORT. The invariant of the machine in three parts, of which each kind of step keeps each: what the
sequencer and the commands write (10_state.md R21 to R28), the data line with the edge detector and the
chip (R29 to R40), and the two contexts of the host (R44). -/

namespace Sys2Proof.Machine

open Sys2Proof.Safety

/-! ### The parts -/

/-- The part about the registers the sequencer and the commands own. -/
structure SeqInv (s : State) : Prop where
  gain : gainLegal s = true
  step : stepLegal s = true
  clk : clkLegal s = true
  result : resultLegal s = true
  fault : faultLegal s = true
  pulses : pulsesLegal s = true
  answer : answerLegal s = true

/-- The part about the data line. -/
structure LineInv (s : State) : Prop where
  edge : edgeLegal s = true
  power : powerLegal s = true
  platform : platformLegal s = true

theorem inv_iff (s : State) : inv s = true ↔
    SeqInv s ∧ LineInv s ∧ modeLegal s = true ∧ contextsLegal s = true := by
  simp only [inv, blockInv, Bool.and_eq_true]
  constructor
  · rintro ⟨⟨⟨⟨⟨⟨⟨⟨⟨⟨⟨hg, hs⟩, hc⟩, hr⟩, hf⟩, he⟩, hp⟩, hw⟩, hl⟩, hm⟩, ha⟩, hx⟩
    exact ⟨⟨hg, hs, hc, hr, hf, hp, ha⟩, ⟨he, hw, hl⟩, hm, hx⟩
  · rintro ⟨⟨hg, hs, hc, hr, hf, hp, ha⟩, ⟨he, hw, hl⟩, hm, hx⟩
    exact ⟨⟨⟨⟨⟨⟨⟨⟨⟨⟨⟨hg, hs⟩, hc⟩, hr⟩, hf⟩, he⟩, hp⟩, hw⟩, hl⟩, hm⟩, ha⟩, hx⟩

theorem clkLegal_iff (s : State) : clkLegal s = true ↔
    (s.block.clk = true → s.block.fault = true ∧ s.block.phase ≠ .idle) := by
  simp only [clkLegal, busy]
  cases s.block.clk <;> simp

theorem faultLegal_iff (s : State) : faultLegal s = true ↔
    (s.block.fault = true → s.block.faultInfo.isSome = true) := by
  unfold faultLegal
  cases s.block.fault <;> simp

theorem answerLegal_iff (s : State) : answerLegal s = true ↔
    (s.block.phase ≠ .idle → s.chan.response = none) := by
  unfold answerLegal busy
  by_cases h : s.block.phase = .idle <;> simp [h]

theorem edgeLegal_iff (s : State) : edgeLegal s = true ↔
    (s.cfg.hasEdgeNotify = true → s.block.dinPrev = s.chip.din) ∧
    (s.cfg.hasEdgeNotify = false → s.block.listen = false ∧ s.block.pending = false) := by
  unfold edgeLegal
  cases s.cfg.hasEdgeNotify <;> simp

theorem powerLegal_iff (s : State) : powerLegal s = true ↔
    (s.block.phase ≠ .idle → s.chip.source = .poweredDown →
      s.chip.din = true ∧ s.chip.sync = false) := by
  unfold powerLegal dinForcedHigh busy
  by_cases hp : s.block.phase = .idle <;> by_cases hs : s.chip.source = .poweredDown <;>
    simp [hp, hs]

theorem platformLegal_iff (s : State) : platformLegal s = true ↔
    (s.cfg.platformStretches = false → s.stretch = 0 ∧ s.chip.source ≠ .poweredDown) := by
  unfold platformLegal
  cases s.cfg.platformStretches <;> simp

theorem modeLegal_iff (s : State) : modeLegal s = true ↔
    (s.block.phase = .idle → s.chip.sync = true → s.chip.convMode = s.chip.nextGain) := by
  unfold modeLegal busy
  by_cases hp : s.block.phase = .idle <;> cases s.chip.sync <;> simp [hp]

theorem contextsLegal_iff (s : State) : contextsLegal s = true ↔
    s.host.inCs = awaiting s.host.fg ∧ s.host.inHandler = (s.host.hd != .idle) ∧
    (s.host.inCs && s.host.inHandler) = false := by
  simp only [contextsLegal, Bool.and_eq_true, beq_iff_eq, Bool.not_eq_true', and_assoc]

theorem modeLegal_of_busy {s : State} (h : s.block.phase ≠ .idle) : modeLegal s = true :=
  (modeLegal_iff s).mpr fun hp => absurd hp h

theorem contextsLegal_of_host {s t : State} (hh : t.host = s.host) (h : contextsLegal s = true) :
    contextsLegal t = true := by
  rw [contextsLegal_iff, hh]
  exact (contextsLegal_iff s).mp h

/-! ### The data line -/

/-- A move of DIN keeps what the edge detector is in step with it (R31, R99). -/
theorem driveDin_edgeLegal (v : Bool) (s : State) (h : edgeLegal s = true) :
    edgeLegal (driveDin v s) = true := by
  rw [edgeLegal_iff] at h ⊢
  obtain ⟨hu, hn⟩ := h
  simp only [driveDin_cfg, driveDin_din]
  refine ⟨fun hc => driveDin_dinPrev v s hc (hu hc), fun hc => ?_⟩
  rw [driveDin_noUnit v s hc]
  exact hn hc

theorem powerDown_edgeLegal (s : State) (h : edgeLegal s = true) :
    edgeLegal (powerDown s) = true :=
  driveDin_edgeLegal true (setSource .poweredDown s) h

theorem powerDown_powerLegal (s : State) : powerLegal (powerDown s) = true := by
  simp [powerLegal_iff]

/-- A pulse that lasts longer than T_PD_US is a stretched one, which only a platform outside the spec
has (R163, R164). -/
theorem platformStretches_of_long {s : State} (hc : s.cfg.tBitUs < s.cfg.tPdUs)
    (hl : s.cfg.tPdUs < highTime s) (h : platformLegal s = true) :
    s.cfg.platformStretches = true := by
  rw [platformLegal_iff] at h
  by_contra hne
  obtain ⟨h0, -⟩ := h (by simpa using hne)
  rw [highTime, h0] at hl
  omega

theorem HighPhase.lineInv {s m : State} (h : HighPhase s m) (hc : s.cfg.tBitUs < s.cfg.tPdUs)
    (hb : s.block.phase ≠ .idle) (hi : LineInv s) : LineInv m := by
  have hr : edgeLegal (risen s) = true := hi.edge
  have hw := (powerLegal_iff s).mp hi.power hb
  have hq := (platformLegal_iff s).mp hi.platform
  cases h with
  | poweredDown hl =>
    refine ⟨powerDown_edgeLegal _ hr, powerDown_powerLegal _, ?_⟩
    have hs := platformStretches_of_long hc hl hi.platform
    simp [platformLegal_iff, risen, hs]
  | quiet hs =>
    refine ⟨hr, hi.power, (platformLegal_iff _).mpr fun hp => ⟨rfl, (hq hp).2⟩⟩
  | bit hs v u hu hv =>
    have he : edgeLegal u = true := by obtain rfl | rfl := hu <;> exact hr
    have hsrc : u.chip = s.chip := by obtain rfl | rfl := hu <;> rfl
    have hst : u.stretch = 0 := by obtain rfl | rfl := hu <;> rfl
    have hcf : u.cfg = s.cfg := by obtain rfl | rfl := hu <;> rfl
    refine ⟨driveDin_edgeLegal v u he, ?_, ?_⟩
    · rw [powerLegal_iff, driveDin_chip_source, driveDin_din, driveDin_sync, hsrc]
      intro _ hp
      simp [hv hp, hw hp]
    · rw [platformLegal_iff, driveDin_cfg, driveDin_stretch, driveDin_chip_source, hsrc, hst, hcf]
      exact fun hp => ⟨rfl, (hq hp).2⟩

theorem SameLine.lineInv {m t : State} (h : SameLine m t) (hb : m.block.phase ≠ .idle)
    (hi : LineInv m) : LineInv t := by
  obtain ⟨he, hw, hp⟩ := hi
  rw [edgeLegal_iff] at he
  rw [powerLegal_iff] at hw
  rw [platformLegal_iff] at hp
  refine ⟨?_, ?_, ?_⟩
  · rwa [edgeLegal_iff, h.cfg, h.dinPrev, h.din, h.listen, h.pending]
  · rw [powerLegal_iff, h.source, h.din, h.sync]
    exact fun _ => hw hb
  · rwa [platformLegal_iff, h.cfg, h.stretch, h.source]

/-- A pulse of either kind keeps the data line's part. -/
theorem PulseLine.lineInv {s t : State} (h : PulseLine s t) (hc : s.cfg.tBitUs < s.cfg.tPdUs)
    (hb : s.block.phase ≠ .idle) (hi : LineInv s) : LineInv t := by
  rcases h with ⟨-, hl⟩ | ⟨-, m, hm, hl⟩
  · exact hl.lineInv hb hi
  · refine hl.lineInv ?_ (hm.lineInv hc hb hi)
    rw [hm.move.block]
    exact hb

/-! ### The sequencer's registers -/

/-- `t` has every register of the sequencer's part as `s` has it. -/
structure SameSeq (s t : State) : Prop where
  gain : t.block.gain = s.block.gain
  phase : t.block.phase = s.block.phase
  cnt : t.block.cnt = s.block.cnt
  clk : t.block.clk = s.block.clk
  result : t.block.result = s.block.result
  fault : t.block.fault = s.block.fault
  info : t.block.faultInfo = s.block.faultInfo
  pulses : t.chip.pulses = s.chip.pulses
  response : t.chan.response = s.chan.response

theorem SameSeq.seqInv {s t : State} (h : SameSeq s t) (hi : SeqInv s) : SeqInv t := by
  obtain ⟨hg, hs, hc, hr, hf, hp, ha⟩ := hi
  constructor
  · rwa [gainLegal, h.gain]
  · rwa [stepLegal, h.phase, h.cnt, h.gain]
  · rwa [clkLegal, busy, h.clk, h.fault, h.phase]
  · rwa [resultLegal, h.result]
  · rwa [faultLegal, h.fault, h.info]
  · rwa [pulsesLegal, h.phase, h.pulses, h.cnt]
  · rwa [answerLegal, busy, h.phase, h.response]

/-- A step that moves DIN only, and answers nothing, keeps the sequencer's part. -/
theorem DinMove.sameSeq {s t : State} (h : DinMove s t) (hp : t.chip.pulses = s.chip.pulses)
    (hc : t.chan = s.chan) : SameSeq s t :=
  ⟨by rw [h.block], by rw [h.block], by rw [h.block], by rw [h.block], by rw [h.block],
    by rw [h.block], by rw [h.block], hp, by rw [hc]⟩

/-- A failing pin primitive in a pulse keeps the sequencer's part: STEP stays, and the fault is recorded
(R136). -/
theorem PulseFailed.seqInv {s e : State} (h : PulseFailed s e) (hb : s.block.phase ≠ .idle)
    (hi : SeqInv s) : SeqInv e := by
  obtain ⟨hg, hs, hc, hr, hf, hp, ha⟩ := hi
  obtain ⟨p, hinfo⟩ := h.info
  constructor
  · rwa [gainLegal, h.gain]
  · rwa [stepLegal, h.phase, h.cnt, h.gain]
  · rw [clkLegal_iff, h.fault, h.phase]
    exact fun _ => ⟨rfl, hb⟩
  · rwa [resultLegal, h.result]
  · rw [faultLegal_iff, hinfo]
    exact fun _ => rfl
  · rwa [pulsesLegal, h.phase, h.pulses, h.cnt]
  · rwa [answerLegal, busy, h.phase, h.chan]

/-- A whole data pulse counts up to 23, and the 24th begins the control pulses (R84). -/
theorem dataNext_seqInv {s : State} (hph : s.block.phase = .reading) (hi : SeqInv s) :
    SeqInv (dataNext s) := by
  obtain ⟨hg, hs, hc, hr, hf, hp, ha⟩ := hi
  have hcnt : s.block.cnt.toNat < 24 := by
    rw [stepLegal, hph] at hs; exact of_decide_eq_true hs
  have hpul : s.chip.pulses = s.block.cnt.toNat := by simpa [pulsesLegal, hph] using hp
  have hresp : s.chan.response = none := (answerLegal_iff s).mp ha (by simp [hph])
  have hplus : s.block.cnt.toNat < 23 → (s.block.cnt + 1#5).toNat = s.block.cnt.toNat + 1 := by
    intro h; rw [BitVec.toNat_add]; simp; omega
  constructor
  · simpa [gainLegal, dataNext] using hg
  · by_cases h : s.block.cnt.toNat < 23
    · simp [stepLegal, dataNext_step_lt h, dataPulses, hplus h]; omega
    · simp [stepLegal, dataNext_step_last h]
  · simp [clkLegal, dataNext]
  · simpa [resultLegal, dataNext] using hr
  · simpa [faultLegal, dataNext] using hf
  · have hnext : (dataNext s).chip.pulses = s.chip.pulses + 1 := by simp [dataNext]
    by_cases h : s.block.cnt.toNat < 23
    · simp [pulsesLegal, dataNext_step_lt h, hplus h, hnext, hpul]
    · simp [pulsesLegal, dataNext_step_last h, dataPulses, hnext, hpul]; omega
  · simp [answerLegal, dataNext, hresp]

theorem dataNext_busy (s : State) : (dataNext s).block.phase ≠ .idle := by
  by_cases h : s.block.cnt.toNat < 23
  · simp [dataNext_step_lt h]
  · simp [dataNext_step_last h]

/-- A whole control pulse counts up to N (R84). -/
theorem ctrlNext_seqInv {s : State} (hph : s.block.phase = .gainPulsing)
    (hlt : s.block.cnt.toNat < pulseCount s.block.gain) (hi : SeqInv s) : SeqInv (ctrlNext s) := by
  obtain ⟨hg, hs, hc, hr, hf, hp, ha⟩ := hi
  have hpul : s.chip.pulses = 24 + s.block.cnt.toNat := by simpa [pulsesLegal, hph, dataPulses] using hp
  have hresp : s.chan.response = none := (answerLegal_iff s).mp ha (by simp [hph])
  have hplus : (s.block.cnt + 1#5).toNat = s.block.cnt.toNat + 1 := by
    have : s.block.gain.toNat < 4 := s.block.gain.isLt
    rw [pulseCount] at hlt
    rw [BitVec.toNat_add]; simp; omega
  constructor
  · simpa [gainLegal, ctrlNext] using hg
  · simp [stepLegal, ctrlNext, hplus]; omega
  · simp [clkLegal, ctrlNext]
  · simpa [resultLegal, ctrlNext] using hr
  · simpa [faultLegal, ctrlNext] using hf
  · simp [pulsesLegal, ctrlNext, hplus, hpul, dataPulses]; omega
  · simp [answerLegal, ctrlNext, hresp]

/-- Widening ends in the range of a sample, as an i32 (R26, R87). -/
theorem pattern_widen_range (raw : Raw24) :
    hx711Minimum ≤ (pattern (widen raw)).toInt ∧ (pattern (widen raw)).toInt ≤ hx711Maximum := by
  have h : hx711Minimum ≤ widen raw ∧ widen raw ≤ hx711Maximum := by
    unfold widen clamp hx711Minimum hx711Maximum; omega
  have hp : (pattern (widen raw)).toInt = widen raw := by
    unfold pattern hx711Minimum hx711Maximum at *
    rw [BitVec.toInt_ofInt]
    simp only [Int.bmod]
    omega
  rwa [hp]

theorem completeRead_seqInv {s : State} (hi : SeqInv s) (hnf : s.block.fault = false) :
    SeqInv (completeRead s) := by
  obtain ⟨hg, hs, hc, hr, hf, hp, ha⟩ := hi
  have hclk : s.block.clk = false := by
    simpa [hnf] using (clkLegal_iff s).mp hc
  constructor
  · simpa [gainLegal] using hg
  · simp [stepLegal]
  · simp [clkLegal, hclk]
  · simpa [resultLegal] using pattern_widen_range s.block.shift
  · simp [faultLegal, hnf]
  · simp [pulsesLegal]
  · simp [answerLegal, busy]

/-- The completion of a READ leaves the data line as it is. -/
theorem completeRead_lineInv {s : State} (hi : LineInv s) : LineInv (completeRead s) := by
  obtain ⟨he, -, hp⟩ := hi
  refine ⟨?_, ?_, ?_⟩
  · simpa [edgeLegal] using he
  · simp [powerLegal_iff]
  · simpa [platformLegal] using hp

/-! ### Commands -/

/-- A command accepted by an idle block with no answer out yet keeps the sequencer's part. -/
theorem ExecCase.seqInv {i : Instr} {s t : State} (h : ExecCase s i t) (hp : s.block.phase = .idle)
    (hn : s.chan.response = none) (hi : SeqInv s) : SeqInv t := by
  obtain ⟨hg, hs, hc, hr, hf, hq, -⟩ := hi
  have hclk : s.block.clk = false := by simpa [hp] using (clkLegal_iff s).mp hc
  have hidle : ∀ u : State, u.block.phase = .idle → answerLegal u = true := fun u hu =>
    (answerLegal_iff u).mpr fun hb => absurd hu hb
  cases h with
  | rdyFails =>
    refine ⟨hg, hs, ?_, hr, rfl, hq, hidle _ hp⟩
    simp [clkLegal, failedSample, hclk]
  | read => exact ⟨hg, rfl, by simp [clkLegal, hclk], hr, hf, rfl, by simp [answerLegal, hn]⟩
  | setgain g hg3 =>
    refine ⟨by simpa [gainLegal] using hg3, ?_, hc, hr, hf, ?_, hidle _ hp⟩
    · simpa [stepLegal, hp] using hs
    · simp [pulsesLegal, hp]
  | rdy | illegal | getgain | listen | unlisten | clrint | islistening =>
    exact ⟨hg, hs, hc, hr, hf, hq, hidle _ hp⟩

/-- A command moves no pin, and writes LISTEN and PENDING only where the unit is present (R75). -/
theorem ExecCase.lineInv {i : Instr} {s t : State} (h : ExecCase s i t)
    (hp : s.block.phase = .idle) (hi : LineInv s) : LineInv t := by
  obtain ⟨he, -, hq⟩ := hi
  have hunit := fun u : s.cfg.hasEdgeNotify = true => ((edgeLegal_iff s).mp he).1 u
  have hidle : ∀ u : State, u.block.phase = .idle → powerLegal u = true := fun u hu =>
    (powerLegal_iff u).mpr fun hb => absurd hu hb
  cases h with
  | read =>
    have hs : (beginRead s).chip.source ≠ .poweredDown := by
      rw [beginRead_chip]; dsimp only; split <;> simp
    refine ⟨he, ?_, ?_⟩
    · exact (powerLegal_iff _).mpr fun _ h => absurd h hs
    · exact (platformLegal_iff _).mpr fun h => ⟨((platformLegal_iff s).mp hq h).1, hs⟩
  | listen u | unlisten u | clrint u =>
    refine ⟨(edgeLegal_iff _).mpr ⟨fun _ => hunit u, fun hn => ?_⟩, hidle _ hp, hq⟩
    exact Bool.noConfusion (u.symm.trans hn)
  | rdyFails | rdy | illegal | setgain | getgain | islistening => exact ⟨he, hidle _ hp, hq⟩

/-- A command that begins no READ leaves the chip alone (R39, R91). -/
theorem ExecCase.modeLegal {i : Instr} {s t : State} (h : ExecCase s i t)
    (hi : modeLegal s = true) : modeLegal t = true := by
  cases h with
  | read => exact modeLegal_of_busy (by simp)
  | _ => exact hi

theorem ExecCase.host {i : Instr} {s t : State} (h : ExecCase s i t) : t.host = s.host := by
  cases h <;> rfl

/-- Taking the word off CMD clears the response of the last command only. -/
theorem acceptCommand_seqInv {s : State} (hi : SeqInv s) : SeqInv (acceptCommand s) := by
  obtain ⟨hg, hs, hc, hr, hf, hq, -⟩ := hi
  exact ⟨hg, hs, hc, hr, hf, hq, by simp [answerLegal]⟩

/-! ### The host -/

/-- What a step of the foreground keeps of the two contexts: IN_CS says where it stands, and the handler
is not touched (R44, R147). -/
structure ForegroundKeeps (s t : State) : Prop where
  inCs : t.host.inCs = awaiting t.host.fg
  inHandler : t.host.inHandler = s.host.inHandler
  hd : t.host.hd = s.host.hd

theorem startCall_contexts {c : HostCall} {s t : State} (hs : s.host.inCs = false)
    (hf : s.host.fg = .idle) (h : startCall c s = .next t) : ForegroundKeeps s t := by
  unfold startCall startTare edgeProcedure at h
  repeat' split at h
  all_goals cases h
  all_goals constructor <;> simp [awaiting, hs, hf]

theorem takeResponse_contexts {r : Response} {s t : State}
    (hs : s.host.inCs = awaiting s.host.fg) (h : takeResponse r s = .next t) :
    ForegroundKeeps s t := by
  unfold takeResponse endRead endTareSample at h
  dsimp only at h
  repeat' split at h
  all_goals cases h
  all_goals constructor <;> simp_all [awaiting]

theorem onResponse_contexts {s t : State} (hs : s.host.inCs = awaiting s.host.fg)
    (h : onResponse s (fun r => takeResponse r s) = .next t) : ForegroundKeeps s t := by
  rcases onResponse_next h with rfl | ⟨r, hr⟩
  · exact ⟨hs, rfl, rfl⟩
  · exact takeResponse_contexts hs hr

theorem programStep_contexts {s t : State} (hs : s.host.inCs = false) (hf : s.host.fg = .idle)
    (h : programStep s = .next t) : ForegroundKeeps s t := by
  have hin : s.host.inCs = awaiting s.host.fg := by rw [hs, hf]; rfl
  unfold programStep at h
  split at h
  · cases h; exact ⟨hin, rfl, rfl⟩
  · obtain ⟨ha, hb, hc⟩ := startCall_contexts (s := passCall s) hs hf h
    exact ⟨ha, hb, hc⟩
  · cases h; exact ⟨hin, rfl, rfl⟩
  · cases h; exact ⟨hin, rfl, rfl⟩

theorem foregroundStep_contexts {s t : State} (hs : s.host.inCs = awaiting s.host.fg)
    (h : foregroundStep s = .next t) : ForegroundKeeps s t := by
  rw [foregroundStep] at h
  cases hf : s.host.fg with
  | idle =>
    rw [hf] at h hs
    exact programStep_contexts hs hf h
  | scale | poll | tarePoll | tareSample | tareRestore =>
    rw [hf] at h hs
    cases h; constructor <;> simp [awaiting, hs]
  | tareStore prior vs =>
    rw [hf] at h hs
    cases h; cases prior <;> constructor <;> simp [storeTareMean, awaiting, hs]
  | _ =>
    rw [hf] at h
    exact onResponse_contexts hs h

/-- Each step of the handler but its return leaves it running, and none moves the foreground (R144,
R147). -/
structure HandlerKeeps (s t : State) : Prop where
  inCs : t.host.inCs = s.host.inCs
  fg : t.host.fg = s.host.fg
  runs : t.host.inHandler = (t.host.hd != .idle)

theorem handlerStep_contexts {s t : State} (hh : s.host.inHandler = true)
    (hd : s.host.inHandler = (s.host.hd != .idle)) (h : handlerStep s = .next t) :
    HandlerKeeps s t := by
  have hkeep : ∀ (i : Instr) (p : HdPoint) (u : State), u.host.inCs = s.host.inCs →
      u.host.fg = s.host.fg → u.host.inHandler = true → p ≠ .idle →
      HandlerKeeps s (handlerIssue i p u) := fun i p u hc hf hr hp =>
    ⟨hc, hf, by simp [hr, hp]⟩
  rw [handlerStep] at h
  cases hp : s.host.hd <;> rw [hp] at h
  case idle => cases h; exact ⟨rfl, rfl, rfl⟩
  case start => cases h; exact hkeep _ _ s rfl rfl hh (by simp)
  case awaitRdy =>
    rcases onResponse_next h with rfl | ⟨r, hr⟩
    · exact ⟨rfl, rfl, hd⟩
    · split at hr <;> cases hr <;> exact hkeep _ _ s rfl rfl hh (by simp)
  case awaitSample =>
    rcases onResponse_next h with rfl | ⟨r, hr⟩
    · exact ⟨rfl, rfl, hd⟩
    · unfold handlerEndRead at hr
      split at hr <;> cases hr
      exact hkeep _ _ _ rfl rfl hh (by simp)
  case awaitClear =>
    rcases onResponse_next h with rfl | ⟨r, hr⟩
    · exact ⟨rfl, rfl, hd⟩
    · cases hr; exact ⟨rfl, rfl, rfl⟩

/-- A step of the host writes no register of the block and nothing of the chip. -/
theorem HostFrame.seqInv {s t : State} (h : HostFrame s t) (hp : s.block.phase = .idle)
    (hi : SeqInv s) : SeqInv t := by
  obtain ⟨hg, hs, hc, hr, hf, hq, -⟩ := hi
  constructor
  · rwa [gainLegal, h.block]
  · rwa [stepLegal, h.block]
  · rwa [clkLegal, busy, h.block]
  · rwa [resultLegal, h.block]
  · rwa [faultLegal, h.block]
  · rwa [pulsesLegal, h.block, h.chip]
  · rw [answerLegal_iff, h.block]
    exact fun hb => absurd hp hb

theorem HostFrame.lineInv {s t : State} (h : HostFrame s t) (hi : LineInv s) : LineInv t := by
  obtain ⟨he, hw, hp⟩ := hi
  constructor
  · rwa [edgeLegal, h.cfg, h.block, h.chip]
  · rwa [powerLegal, dinForcedHigh, busy, h.block, h.chip]
  · rwa [platformLegal, h.cfg, h.stretch, h.chip]

/-- A step of the host keeps the two contexts apart (R142, R147). -/
theorem hostStep_contexts {f : Bool} {s t : State} (h : hostStep f s = .next t)
    (hi : contextsLegal s = true) : contextsLegal t = true := by
  rw [contextsLegal_iff] at hi ⊢
  obtain ⟨hcs, hd, hx⟩ := hi
  unfold hostStep at h
  split at h
  · rename_i hh
    obtain ⟨hcs', hfg', hd'⟩ := handlerStep_contexts hh hd h
    rw [hh, Bool.and_true] at hx
    exact ⟨by rw [hcs', hfg', hcs], hd', by rw [hcs', hx]; rfl⟩
  · split at h
    · rename_i hdis
      cases h
      have hout : s.host.inCs = false := by
        simp only [dispatchEnabled, Bool.and_eq_true, Bool.not_eq_true'] at hdis
        exact hdis.1.1.2
      exact ⟨hcs, rfl, by simp [hout]⟩
    · rename_i hh _
      obtain ⟨hcs', hh', hd'⟩ := foregroundStep_contexts hcs h
      rw [Bool.not_eq_true] at hh
      exact ⟨hcs', by rw [hh', hd', hd], by rw [hh', hh, Bool.and_false]⟩

/-! ### The events of the environment -/

/-- In a READ in which the chip powered down its own moves have no effect (R38). -/
theorem powerLegal_of_not_forced {s t : State} (hf : dinForcedHigh s = false)
    (hp : t.block.phase = s.block.phase) (hs : t.chip.source = s.chip.source) :
    powerLegal t = true := by
  have h : dinForcedHigh t = dinForcedHigh s := by simp only [dinForcedHigh, busy, hp, hs]
  rw [powerLegal, h, hf]
  rfl

theorem chipDrive_lineInv {s : State} (v : Bool) (hi : LineInv s) : LineInv (chipDrive v s) := by
  have hq : platformLegal (chipDrive v s) = true := by simpa [platformLegal] using hi.platform
  rcases chipDrive_cases v s with ⟨-, h⟩ | ⟨hf, -, h⟩ | ⟨hf, -, h⟩
  · rwa [h]
  · rw [h] at hq ⊢
    exact ⟨driveDin_edgeLegal v (latchDraw s) hi.edge,
      powerLegal_of_not_forced hf (by simp) (by simp), hq⟩
  · rw [h] at hq ⊢
    exact ⟨driveDin_edgeLegal v s hi.edge, powerLegal_of_not_forced hf (by simp) (by simp), hq⟩

theorem chipReady_lineInv {s : State} (w : Raw24) (hi : LineInv s) : LineInv (chipReady w s) := by
  have hq : platformLegal (chipReady w s) = true := by simpa [platformLegal] using hi.platform
  rcases chipReady_cases w s with ⟨-, h⟩ | ⟨hf, h⟩
  · rwa [h]
  · rw [h] at hq ⊢
    exact ⟨driveDin_edgeLegal false (latch w s) hi.edge,
      powerLegal_of_not_forced hf (by simp) (by simp), hq⟩

theorem stretchClock_lineInv {s : State} (us : Nat) (ha : s.cfg.platformStretches = true)
    (hi : LineInv s) : LineInv (stretchClock us s) := by
  have hq : platformLegal (stretchClock us s) = true := by simp [platformLegal, ha]
  rcases stretchClock_cases us s with ⟨-, -, h⟩ | ⟨-, h⟩ <;> rw [h] at hq ⊢
  · exact ⟨powerDown_edgeLegal (addStretch us s) hi.edge, powerDown_powerLegal _, hq⟩
  · exact ⟨hi.edge, hi.power, hq⟩

/-- A conversion the chip pulls DIN low for is made under NEXT_GAIN (R36, R39). -/
theorem chipDrive_modeLegal {s : State} (v : Bool) (hi : modeLegal s = true) :
    modeLegal (chipDrive v s) = true := by
  rw [modeLegal_iff] at *
  rcases chipDrive_cases v s with ⟨-, h⟩ | ⟨-, -, h⟩ | ⟨-, hc, h⟩ <;> rw [h]
  · exact hi
  · simp
  · simp only [driveDin_block_phase, driveDin_chip_convMode, driveDin_chip_nextGain, driveDin_sync]
    intro hp
    have hfall : (s.chip.din && !v) = false := by
      rcases hc with hb | hd | rfl
      · simp [busy, hp] at hb
      · simp [hd]
      · simp
    rw [hfall, Bool.or_false]
    exact hi hp

theorem chipReady_modeLegal {s : State} (w : Raw24) (hi : modeLegal s = true) :
    modeLegal (chipReady w s) = true := by
  rcases chipReady_cases w s with ⟨-, h⟩ | ⟨-, h⟩ <;> rw [h]
  · exact hi
  · simp [modeLegal_iff]

theorem stretchClock_modeLegal {s : State} (us : Nat) (hi : modeLegal s = true) :
    modeLegal (stretchClock us s) = true := by
  rcases stretchClock_cases us s with ⟨-, -, h⟩ | ⟨-, h⟩ <;> rw [h]
  · simp [modeLegal_iff]
  · exact hi

theorem resetMachine_inv {s : State} (hi : inv s = true) : inv (resetMachine s) = true := by
  obtain ⟨-, hl, hm, -⟩ := (inv_iff s).mp hi
  have hr : resultLegal (resetMachine s) = true := by
    simp [resultLegal, Block.resetWith, hx711Minimum, hx711Maximum]
  refine (inv_iff _).mpr ⟨⟨rfl, rfl, rfl, hr, rfl, rfl, rfl⟩, ⟨?_, ?_, ?_⟩, ?_, rfl⟩
  · simp [edgeLegal_iff, Block.resetWith]
  · simp [powerLegal_iff, Block.resetWith]
  · have := (platformLegal_iff s).mp hl.platform
    rw [platformLegal_iff]
    simpa [resetMachine] using fun h => (this h).2
  · rw [modeLegal_iff] at hm ⊢
    intro _ hsync
    cases hb : busy s with
    | true => rw [resetMachine_sync_busy hb] at hsync; cases hsync
    | false =>
      rw [resetMachine_chip_idle hb] at hsync ⊢
      exact hm (by simpa [busy] using hb) hsync

/-! ### Every step -/

/-- A micro-step in READING keeps the invariant. -/
theorem dataStep_inv {s t : State} (hc : s.cfg.tBitUs < s.cfg.tPdUs)
    (hp : s.block.phase = .reading) (hi : inv s = true) (h : dataStep s = .next t) :
    inv t = true := by
  obtain ⟨hs, hl, -, hx⟩ := (inv_iff s).mp hi
  have hb : s.block.phase ≠ .idle := by simp [hp]
  have hl' : LineInv t := (dataStep_outcome_of_next h).2.line.lineInv hc hb hl
  obtain ⟨-, hf | rfl⟩ := dataStep_cases s t h
  · exact (inv_iff t).mpr ⟨hf.seqInv hb hs, hl', modeLegal_of_busy (by rwa [hf.phase]),
      contextsLegal_of_host hf.host hx⟩
  · exact (inv_iff _).mpr ⟨dataNext_seqInv hp hs, hl', modeLegal_of_busy (dataNext_busy s),
      contextsLegal_of_host (by simp) hx⟩

/-- A micro-step in GAINPULSING keeps the invariant. -/
theorem ctrlStep_inv {s t : State} (hc : s.cfg.tBitUs < s.cfg.tPdUs) (hnf : s.block.fault = false)
    (hp : s.block.phase = .gainPulsing) (hi : inv s = true) (h : ctrlStep s = .next t) :
    inv t = true := by
  obtain ⟨hs, hl, -, hx⟩ := (inv_iff s).mp hi
  have hb : s.block.phase ≠ .idle := by simp [hp]
  rcases ctrlStep_outcome_of_next h with ⟨hlt, ho⟩ | ⟨-, rfl⟩
  · have hl' : LineInv t := ho.line.lineInv hc hb hl
    rcases ctrlStep_cases s t h with ⟨-, hf | rfl⟩ | ⟨heq, -⟩
    · exact (inv_iff t).mpr ⟨hf.seqInv hb hs, hl', modeLegal_of_busy (by rwa [hf.phase]),
        contextsLegal_of_host hf.host hx⟩
    · exact (inv_iff _).mpr ⟨ctrlNext_seqInv hp hlt hs, hl', modeLegal_of_busy (by simp),
        contextsLegal_of_host (by simp) hx⟩
    · omega
  · exact (inv_iff _).mpr ⟨completeRead_seqInv hs hnf, completeRead_lineInv hl, by simp [modeLegal],
      contextsLegal_of_host (by simp) hx⟩

/-- The acceptance of a command, whatever it comes to, keeps the invariant. -/
theorem ExecCase.inv {i : Instr} {s t : State} (h : ExecCase (acceptCommand s) i t)
    (hp : s.block.phase = .idle) (hi : Safety.inv s = true) : Safety.inv t = true := by
  obtain ⟨hs, hl, hm, hx⟩ := (inv_iff s).mp hi
  have hl' : LineInv (acceptCommand s) := ⟨hl.edge, hl.power, hl.platform⟩
  exact (inv_iff t).mpr ⟨h.seqInv hp rfl (acceptCommand_seqInv hs), h.lineInv hp hl',
    h.modeLegal hm, contextsLegal_of_host h.host hx⟩

/-- Settles O41: the invariant in its three parts, kept by each kind of step. -/
theorem stepKeepsTheInvariant : Obligations.StepKeepsTheInvariant := by
  intro s t hi h
  have hi' : inv (takeEvent s) = true := hi
  obtain ⟨hs, hl, hm, hx⟩ := (inv_iff (takeEvent s)).mp hi'
  cases step_cases s t h with
  | drive v _ eq =>
    subst eq
    exact (inv_iff _).mpr ⟨((chipDrive_move v _).sameSeq (by simp) (by simp)).seqInv hs,
      chipDrive_lineInv v hl, chipDrive_modeLegal v hm, contextsLegal_of_host (by simp) hx⟩
  | ready w _ eq =>
    subst eq
    exact (inv_iff _).mpr ⟨((chipReady_move w _).sameSeq (by simp) (by simp)).seqInv hs,
      chipReady_lineInv w hl, chipReady_modeLegal w hm, contextsLegal_of_host (by simp) hx⟩
  | stretch us _ allowed eq =>
    subst eq
    exact (inv_iff _).mpr ⟨((stretchClock_move us _).sameSeq (by simp) (by simp)).seqInv hs,
      stretchClock_lineInv us allowed hl, stretchClock_modeLegal us hm,
      contextsLegal_of_host (by simp) hx⟩
  | rst _ eq => subst eq; exact resetMachine_inv hi'
  | command i acc eq => exact (exec_case eq).inv (accepts_parts acc).2.1 hi'
  | illegal _ acc eq =>
    subst eq
    exact (ExecCase.illegal (s := acceptCommand (takeEvent s)) .rdy).inv (canAccept_parts acc).1 hi'
  | data turn phase eq =>
    have hc := agentsTurn_legal (microTurn_parts turn).1
    exact dataStep_inv (s := takeEvent s) hc phase hi' eq
  | ctrl turn phase eq =>
    obtain ⟨ha, hnf, -⟩ := microTurn_parts turn
    have hc := agentsTurn_legal ha
    exact ctrlStep_inv (s := takeEvent s) hc hnf phase hi' eq
  | host turn eq =>
    have hf := hostStep_frame _ _ _ eq
    have hidle := (hostTurn_parts turn).2.1
    refine (inv_iff t).mpr ⟨hf.seqInv hidle hs, hf.lineInv hl, ?_, hostStep_contexts eq hx⟩
    rwa [modeLegal_iff, hf.block, hf.chip, ← modeLegal_iff]

end Sys2Proof.Machine
end

