-- ==== Sys2Proof/Proofs/Registers.lean ====
section
/-! SUPPORT. Who writes what, step by step: FAULT, the configuration, the registers of an idle block, the
registers of the commands, and SYNC (10_state.md R22 to R46). -/

namespace Sys2Proof.Machine

open Sys2Proof.Safety

/-! ### Acceptance of READ -/

/-- Settles O13: the acceptance of READ is `beginRead`. -/
theorem readIsAccepted : Obligations.ReadIsAccepted := by
  intro s
  have hv : (if (!s.chip.din && s.chip.sync) = true then ReadSource.word s.chip.conv else .draws) =
      if s.chip.din = false ∧ s.chip.sync = true then .word s.chip.conv else .draws := by
    cases s.chip.din <;> cases s.chip.sync <;> rfl
  rw [← hv]
  rfl

/-! ### FAULT -/

/-- What a step does to FAULT: RST clears it, a failing pin primitive sets it, and nothing else writes
it. -/
theorem step_fault_cases {s t : State} (h : step s = .next t) :
    (eventTurn .rst s = true ∧ t.block.fault = false) ∨ t.block.fault = s.block.fault ∨
    (s.block.fault = false ∧ t.block.fault = true ∧ pinFailureTurn s = true) := by
  cases step_kind h with
  | drive v _ eq => subst eq; exact .inr (.inl (by simp))
  | ready w _ eq => subst eq; exact .inr (.inl (by simp))
  | stretch us _ _ eq => subst eq; exact .inr (.inl (by simp))
  | rst turn eq => subst eq; exact .inl ⟨turn, rfl⟩
  | command i acc out =>
    cases out with
    | rdyFails fails =>
      have hp : pinsHold 1 s = false := by rw [pinsHold_one]; exact congrArg (!·) fails
      exact .inr (.inr ⟨(accepts_parts acc).2.2.1, rfl, by simp [pinFailureTurn, acc, hp]⟩)
    | _ => exact .inr (.inl rfl)
  | illegal _ _ eq => subst eq; exact .inr (.inl rfl)
  | data turn out =>
    have hnf : s.block.fault = false := (microTurn_parts ((dataTurn_iff s).mp turn).1).2.1
    cases hf : t.block.fault with
    | false => exact .inr (.inl hnf.symm)
    | true =>
      have hp : pinsHold 3 s = false := (out.fault_iff hnf).mp hf
      exact .inr (.inr ⟨hnf, rfl, by simp [pinFailureTurn, turn, hp]⟩)
  | ctrl turn out =>
    have hnf : s.block.fault = false := (microTurn_parts ((ctrlTurn_iff s).mp turn).1).2.1
    cases hf : t.block.fault with
    | false => exact .inr (.inl hnf.symm)
    | true =>
      have hp : pinsHold 2 s = false := (out.fault_iff hnf).mp hf
      exact .inr (.inr ⟨hnf, rfl, by simp [pinFailureTurn, turn, hp]⟩)
  | complete _ _ _ eq => subst eq; exact .inr (.inl (by simp))
  | host _ frame => exact .inr (.inl (by rw [frame.block]; rfl))

/-- A step that tries a failing primitive is a PinFault (R136). -/
theorem step_of_pinFailureTurn {s : State} (h : pinFailureTurn s = true) :
    ∃ t, step s = .next t ∧ t.block.fault = true := by
  simp only [pinFailureTurn, Bool.or_eq_true, Bool.and_eq_true, Bool.not_eq_true'] at h
  rcases h with (⟨turn, hp⟩ | ⟨turn, hp⟩) | ⟨acc, hp⟩
  · obtain ⟨t, ht, out⟩ := step_data turn
    have hnf := (microTurn_parts ((dataTurn_iff s).mp turn).1).2.1
    exact ⟨t, ht, (out.fault_iff hnf).mpr hp⟩
  · obtain ⟨t, ht, out⟩ := step_ctrl turn
    have hnf := (microTurn_parts ((ctrlTurn_iff s).mp turn).1).2.1
    exact ⟨t, ht, (out.fault_iff hnf).mpr hp⟩
  · have hf : pinFails s = true := by simpa [pinsHold_one] using hp
    rw [step_accepts acc, exec, execRdy, pinReadDin,
      if_pos (show pinFails (acceptCommand (takeEvent s)) = true from hf)]
    exact ⟨_, rfl, rfl⟩

/-- Settles O8: by what a step does to FAULT. -/
theorem faultIsSticky : Obligations.FaultIsSticky := by
  refine ⟨?_, fun s => step_of_pinFailureTurn, fun s hf ha => step_faulted ha hf, ?_, rfl⟩
  · intro s t h hs ht
    rcases step_fault_cases h with ⟨-, hf⟩ | hf | ⟨-, -, hp⟩
    · rw [hf] at ht; cases ht
    · rw [hf, hs] at ht; cases ht
    · exact hp
  · intro s t h hs ht
    rcases step_fault_cases h with ⟨hr, -⟩ | hf | ⟨hf, -, -⟩
    · exact hr
    · rw [hf, hs] at ht; cases ht
    · rw [hs] at hf; cases hf

/-! ### The configuration and the program -/

/-- No step writes the configuration (R46). -/
theorem step_cfg {s t : State} (h : step s = .next t) : t.cfg = s.cfg := by
  cases step_kind h with
  | drive v _ eq => subst eq; simp
  | ready w _ eq => subst eq; simp
  | stretch us _ _ eq => subst eq; simp
  | rst _ eq => subst eq; simp
  | command i _ out => cases out <;> rfl
  | illegal _ _ eq => subst eq; rfl
  | data _ out => exact out.keeps.cfg
  | ctrl _ out => exact out.keeps.cfg
  | complete _ _ _ eq => subst eq; simp
  | host _ frame => exact frame.cfg

/-- With no procedure in flight the foreground takes the next statement of its program (R46). -/
theorem step_program {s : State} (ht : foregroundTurn s = true) (hf : s.host.fg = .idle) :
    step s = programStep (takeEvent s) := by
  rw [step_foreground s ht, foregroundStep, takeEvent_host, hf]

/-- Settles O10: by the kinds of a step, and by the statements of a program that are no calls. -/
theorem configurationIsNeverWritten : Obligations.ConfigurationIsNeverWritten := by
  refine ⟨fun s t => step_cfg, ?_, ?_, ?_⟩
  · intro s n ht hf hp
    rw [step_program ht hf, programStep, takeEvent_cfg, takeEvent_host, hp]
    rfl
  · intro s x n ht hf hp
    rw [step_program ht hf, programStep, takeEvent_cfg, takeEvent_host, hp]
    rfl
  · intro s ht hf hp
    rw [step_program ht hf, programStep, takeEvent_cfg, takeEvent_host, List.getElem?_eq_none hp]

/-! ### The idle block -/

/-- What a step of an idle block with no word presented keeps: the block but for what the edge detector
writes at a change of DIN, and the channel and the host where it is not the host's turn. -/
def IdleKeeps (s t : State) : Prop :=
  t.block = { s.block with pending := t.block.pending, dinPrev := t.block.dinPrev } ∧
  (t.chip.din = s.chip.din → t.block = s.block) ∧
  (hostTurn s = false → t.chan = s.chan ∧ t.host = s.host)

theorem DinMove.idleKeeps {s t : State} (h : DinMove s t) (hc : t.chan = s.chan)
    (hh : t.host = s.host) : IdleKeeps s t :=
  ⟨h.block, h.still, fun _ => ⟨hc, hh⟩⟩

theorem idleKeeps_of_hostTurn {s t : State} (turn : hostTurn s = true) (hb : t.block = s.block) :
    IdleKeeps s t :=
  ⟨by rw [hb], fun _ => hb, fun hn => Bool.noConfusion (turn.symm.trans hn)⟩

theorem not_microTurn_of_idle {s : State} (hidle : busy s = false) : ¬ microTurn s = true := fun hm =>
  Bool.noConfusion (hidle.symm.trans (microTurn_parts hm).2.2)

/-- Settles O11: with no word presented a step of an idle block is an event or one of the host. -/
theorem idleBlockKeepsItsState : Obligations.IdleBlockKeepsItsState := by
  intro s t h hidle hcmd hrst
  change IdleKeeps s t
  cases step_kind h with
  | drive v _ eq => subst eq; exact (chipDrive_move v _).of_takeEvent.idleKeeps (by simp) (by simp)
  | ready w _ eq => subst eq; exact (chipReady_move w _).of_takeEvent.idleKeeps (by simp) (by simp)
  | stretch us _ _ eq =>
    subst eq; exact (stretchClock_move us _).of_takeEvent.idleKeeps (by simp) (by simp)
  | rst turn _ => rw [turn] at hrst; cases hrst
  | command i acc _ =>
    have hw := (accepts_parts acc).2.2.2
    rw [hcmd] at hw; cases hw
  | illegal turn acc eq =>
    have ht : hostTurn s = true := by simp [hostTurn, turn, acc, hcmd]
    subst eq
    exact idleKeeps_of_hostTurn ht rfl
  | data turn _ => exact absurd ((dataTurn_iff s).mp turn).1 (not_microTurn_of_idle hidle)
  | ctrl turn _ => exact absurd ((ctrlTurn_iff s).mp turn).1 (not_microTurn_of_idle hidle)
  | complete turn _ _ _ => exact absurd turn (not_microTurn_of_idle hidle)
  | host turn frame => exact idleKeeps_of_hostTurn turn frame.block

/-! ### The writers of GAIN, LISTEN, PENDING and RESULT -/

/-- The step writes none of GAIN, LISTEN and RESULT, and PENDING only at a fall of DIN. -/
structure OnlyEdges (s t : State) : Prop where
  gain : t.block.gain = s.block.gain
  listen : t.block.listen = s.block.listen
  result : t.block.result = s.block.result
  pending : t.block.pending = s.block.pending ∨
    (s.chip.din = true ∧ t.chip.din = false ∧ t.block.pending = true)

theorem DinMove.onlyEdges {s t : State} (h : DinMove s t) : OnlyEdges s t :=
  ⟨by rw [h.block], by rw [h.block], by rw [h.block], h.pending⟩

theorem OnlyEdges.of_block {s t : State} (h : t.block = s.block) : OnlyEdges s t :=
  ⟨by rw [h], by rw [h], by rw [h], .inl (by rw [h])⟩

/-- The writers of the four registers, each with its step (R22, R26, R29, R30). -/
inductive Writes (s t : State) : Prop
  | edges (only : OnlyEdges s t)
  | gain (g : BitVec 2) (acc : accepts s (.setgain g) = true)
      (eq : t.block = { s.block with gain := g })
  | listen (acc : accepts s .listen = true) (eq : t.block = { s.block with listen := true })
  | unlisten (acc : accepts s .unlisten = true) (eq : t.block = { s.block with listen := false })
  | clrint (acc : accepts s .clrint = true) (eq : t.block = { s.block with pending := false })
  | result (was : busy s = true) (eq : t.block =
      { s.block with result := pattern (widen s.block.shift), phase := .idle, cnt := 0#5 })

theorem step_writes {s t : State} (h : step s = .next t) (hrst : eventTurn .rst s = false) :
    Writes s t := by
  cases step_kind h with
  | drive v _ eq => subst eq; exact .edges (chipDrive_move v _).of_takeEvent.onlyEdges
  | ready w _ eq => subst eq; exact .edges (chipReady_move w _).of_takeEvent.onlyEdges
  | stretch us _ _ eq => subst eq; exact .edges (stretchClock_move us _).of_takeEvent.onlyEdges
  | rst turn _ => rw [turn] at hrst; cases hrst
  | command i acc out =>
    cases out with
    | setgain g _ => exact .gain g acc rfl
    | listen => exact .listen acc rfl
    | unlisten => exact .unlisten acc rfl
    | clrint => exact .clrint acc rfl
    | rdy | rdyFails | read | illegal | getgain | islistening =>
      exact .edges ⟨rfl, rfl, rfl, .inl rfl⟩
  | illegal _ _ eq => subst eq; exact .edges (.of_block rfl)
  | data _ out =>
    exact .edges ⟨out.keeps.gain, out.keeps.listen, out.keeps.result, out.line.pending⟩
  | ctrl _ out =>
    exact .edges ⟨out.keeps.gain, out.keeps.listen, out.keeps.result, out.line.pending⟩
  | complete turn _ _ eq =>
    subst eq
    exact .result (microTurn_parts turn).2.2 (completeRead_block _)
  | host _ frame => exact .edges (.of_block frame.block)

/-- Settles O40: each register's writer, from the list of all writers. -/
theorem registerWriters : Obligations.RegisterWriters := by
  intro s t h hrst
  cases step_writes h hrst with
  | edges only =>
    refine ⟨fun hn => absurd only.gain hn, fun hn => absurd only.listen hn, fun hs ht => ?_,
      fun hs ht => ?_, fun hn => absurd only.result hn⟩
    · rcases only.pending with hp | ⟨-, -, hp⟩
      · rw [hp, hs] at ht; cases ht
      · rw [hp] at ht; cases ht
    · rcases only.pending with hp | ⟨hd, hd', -⟩
      · rw [hp, hs] at ht; cases ht
      · exact ⟨hd, hd'⟩
  | gain g acc eq | listen acc eq | unlisten acc eq | clrint acc eq =>
    cases hp : s.block.pending <;> simp [eq, acc, hp]
  | result was eq =>
    have hb := (busy_iff s).mp was
    cases hp : s.block.pending <;> simp [eq, hb, hp, busy, pattern]

/-! ### SYNC -/

/-- The steps in which the chip powers down: a pulse whose rising write holds and that lasts too long, or
a stretch of a pulse left high (R38). -/
def PowersDown (s : State) : Prop :=
  ((dataTurn s = true ∨ ctrlTurn s = true) ∧ pinsHold 1 s = true ∧ s.cfg.tPdUs < highTime s) ∨
  (∃ us, eventTurn (.stretch us) s = true ∧ s.block.clk = true ∧ s.cfg.tPdUs < highTime s + us)

/-- What a step does to SYNC (R38, R40, R158). -/
inductive SyncCase (s t : State) : Prop
  | follows (eq : SyncFollowsDin s t)
  | cut (turn : eventTurn .rst s = true) (was : busy s = true) (din : t.chip.din = s.chip.din)
      (sync : t.chip.sync = false)
  | poweredDown (long : PowersDown s) (din : t.chip.din = true) (sync : t.chip.sync = false)

theorem PulseLine.syncCase {s t : State} (h : PulseLine (takeEvent s) t)
    (turn : dataTurn s = true ∨ ctrlTurn s = true) : SyncCase s t := by
  rcases h.sync with ⟨h1, hlong, hd, hs⟩ | hf
  · exact .poweredDown (.inl ⟨turn, h1, hlong⟩) hd hs
  · exact .follows hf

theorem step_sync {s t : State} (h : step s = .next t) : SyncCase s t := by
  cases step_kind h with
  | drive v _ eq => subst eq; exact .follows (chipDrive_syncFollowsDin v (takeEvent s))
  | ready w _ eq => subst eq; exact .follows (chipReady_syncFollowsDin w (takeEvent s))
  | stretch us turn _ eq =>
    subst eq
    rcases stretchClock_cases us (takeEvent s) with ⟨hclk, hlong, e⟩ | ⟨-, e⟩ <;> rw [e]
    · exact .poweredDown (.inr ⟨us, turn, hclk, hlong⟩) (by simp) (by simp)
    · exact .follows (syncFollowsDin_of_same rfl rfl)
  | rst turn eq =>
    subst eq
    cases hb : busy s with
    | true => exact .cut turn hb (by simp) (resetMachine_sync_busy hb)
    | false =>
      have hc : (resetMachine (takeEvent s)).chip = s.chip := resetMachine_chip_idle hb
      exact .follows (syncFollowsDin_of_same (by rw [hc]) (by rw [hc]))
  | command i _ out => cases out <;> exact .follows (syncFollowsDin_of_same rfl rfl)
  | illegal _ _ eq => subst eq; exact .follows (syncFollowsDin_of_same rfl rfl)
  | data turn out => exact out.line.syncCase (.inl turn)
  | ctrl turn out => exact out.line.syncCase (.inr turn)
  | complete _ _ _ eq => subst eq; exact .follows (syncFollowsDin_of_same (by simp) (by simp))
  | host _ frame =>
    exact .follows (syncFollowsDin_of_same (by rw [frame.chip]; rfl) (by rw [frame.chip]; rfl))

/-- Each stretched pulse whose rising write holds powers the chip down (R38). -/
theorem step_long_pulse {s : State} (turn : dataTurn s = true ∨ ctrlTurn s = true)
    (h1 : pinsHold 1 s = true) (hlong : s.cfg.tPdUs < highTime s) :
    ∃ t, step s = .next t ∧ t.chip.sync = false ∧ t.chip.source = .poweredDown := by
  rcases turn with turn | turn
  · obtain ⟨t, ht, out⟩ := step_data turn
    exact ⟨t, ht, out.line.poweredDown h1 hlong⟩
  · obtain ⟨t, ht, out⟩ := step_ctrl turn
    exact ⟨t, ht, out.line.poweredDown h1 hlong⟩

/-- A stretch of a pulse left high powers the chip down where it lasts too long (R38). -/
theorem step_long_stretch {s : State} {us : Nat} (turn : eventTurn (.stretch us) s = true)
    (allowed : s.cfg.platformStretches = true) (hclk : s.block.clk = true)
    (hlong : s.cfg.tPdUs < highTime s + us) :
    ∃ t, step s = .next t ∧ t.chip.sync = false ∧ t.chip.source = .poweredDown := by
  refine ⟨_, step_stretch turn allowed, ?_⟩
  rcases stretchClock_cases us (takeEvent s) with ⟨-, -, e⟩ | ⟨hn, -⟩
  · simp [e]
  · exact absurd ⟨hclk, hlong⟩ hn

/-- Each event that lowers DIN brings SYNC back (R40). -/
theorem step_fall {s : State} {e : Event} (he : e = .drive false ∨ ∃ w, e = .ready w)
    (turn : eventTurn e s = true) (hf : dinForcedHigh s = false) (hd : s.chip.din = true) :
    ∃ t, step s = .next t ∧ t.chip.din = false ∧ t.chip.sync = true := by
  have back : ∀ t, SyncFollowsDin s t → t.chip.din = false → t.chip.sync = true := fun t hs hd' => by
    rw [SyncFollowsDin, hd, hd'] at hs
    simpa using hs
  have hf' : dinForcedHigh (takeEvent s) = false := hf
  obtain rfl | ⟨w, rfl⟩ := he
  · exact ⟨_, step_drive turn, chipDrive_din hf', back _ (chipDrive_syncFollowsDin false _)
      (chipDrive_din hf')⟩
  · have hd' : (chipReady w (takeEvent s)).chip.din = false := by
      rw [chipReady_of_not_forced hf', driveDin_din]
    exact ⟨_, step_ready turn, hd', back _ (chipReady_syncFollowsDin w _) hd'⟩

/-- Settles O46: by what a step does to SYNC. -/
theorem syncLaws : Obligations.SyncLaws := by
  refine ⟨?_, fun s => step_long_pulse, fun s us => step_long_stretch, ?_, ?_,
    fun s e => step_fall, rfl⟩
  · intro s t h hs ht
    cases step_sync h with
    | follows eq => rw [SyncFollowsDin, hs, ht] at eq; cases eq
    | cut turn was => exact .inl ⟨turn, was⟩
    | poweredDown long => exact .inr long
  · intro s t h hs ht
    cases step_sync h with
    | follows eq =>
      rw [SyncFollowsDin, hs, ht] at eq
      simpa using eq.symm
    | cut _ _ _ hf => rw [hf] at ht; cases ht
    | poweredDown _ _ hf => rw [hf] at ht; cases ht
  · intro s t h hd hd'
    cases step_sync h with
    | follows eq =>
      rw [SyncFollowsDin, hd, hd'] at eq
      simpa using eq
    | cut _ _ hsame _ => rw [hsame, hd] at hd'; cases hd'
    | poweredDown _ hhigh _ => rw [hhigh] at hd'; cases hd'

end Sys2Proof.Machine
end

