-- ==== Sys2Proof/Proofs/Read.lean ====
section
/-! SUPPORT. What the micro-steps of a READ do to SHIFT (40_protocol_engine.md R94) and to the chip
(10_state.md R37 to R40), and what its completion does (R88). -/

namespace Sys2Proof.Machine

open Sys2Proof.Safety

/-! ### Shifting in -/

theorem shiftIn_eq_concat (raw : Raw24) (b : Bool) : shiftIn raw b = (raw.extractLsb' 0 23).concat b :=
  BitVec.append_ofBool _ b

/-- Shifting a bit in doubles the word and adds the bit (R94). -/
theorem shiftIn_toNat (raw : Raw24) (b : Bool) :
    (shiftIn raw b).toNat = (2 * raw.toNat + b.toNat) % 16777216 := by
  have hb : b.toNat < 2 := b.toNat_lt
  rw [shiftIn_eq_concat, BitVec.toNat_concat, BitVec.extractLsb'_toNat, Nat.shiftRight_zero]
  omega

/-- The bit shifted in last is bit 0. -/
theorem shiftIn_getLsbD_zero (raw : Raw24) (b : Bool) : (shiftIn raw b).getLsbD 0 = b := by
  rw [shiftIn_eq_concat, BitVec.getLsbD_concat, if_pos rfl]

/-- The top `k` bits of a word with the next one shifted in are its top `k + 1` bits. -/
theorem shiftIn_top_bits (w : Raw24) (k : Nat) (hk : k < 24) :
    shiftIn (w >>> (24 - k)) (w.getLsbD (23 - k)) = w >>> (24 - (k + 1)) := by
  apply BitVec.eq_of_getLsbD_eq
  intro i hi
  rw [shiftIn_eq_concat, BitVec.getLsbD_concat]
  rcases i with _ | i
  · simp [show 24 - (k + 1) = 23 - k by omega]
  · have h23 : i < 23 := by omega
    simp [h23, show 24 - k + i = 23 - k + (i + 1) by omega]

/-- The bits shifted into 0 so far spell a binary number, first bit first, of which nothing is lost while
it fits (R94). -/
theorem foldl_shiftIn_toNat (n : Nat) (hn : n ≤ 24) (b : Fin n → Bool) :
    ((List.ofFn b).foldl shiftIn 0#24).toNat = ∑ i : Fin n, (b i).toNat * 2 ^ (n - 1 - i.val) ∧
      ((List.ofFn b).foldl shiftIn 0#24).toNat < 2 ^ n := by
  induction n with
  | zero => simp
  | succ n ih =>
    obtain ⟨hsum, hlt⟩ := ih (by omega) fun i => b i.castSucc
    have hfit : 2 ^ (n + 1) ≤ 2 ^ 24 := Nat.pow_le_pow_right (by decide) hn
    have hbit : (b (Fin.last n)).toNat < 2 := Bool.toNat_lt _
    have hdouble : ∑ i : Fin n, (b i.castSucc).toNat * 2 ^ (n + 1 - 1 - i.castSucc.val) =
        2 * ∑ i : Fin n, (b i.castSucc).toNat * 2 ^ (n - 1 - i.val) := by
      rw [Finset.mul_sum]
      refine Finset.sum_congr rfl fun i _ => ?_
      rw [show n + 1 - 1 - i.castSucc.val = (n - 1 - i.val) + 1 by
        have := i.isLt; simp only [Fin.val_castSucc]; omega, Nat.pow_succ]
      ring
    rw [List.ofFn_succ_last, List.foldl_append, List.foldl_cons, List.foldl_nil, shiftIn_toNat,
      Fin.sum_univ_castSucc, hdouble, ← hsum]
    simp only [Fin.val_last, Nat.add_sub_cancel, Nat.sub_self, Nat.pow_zero, Nat.mul_one]
    omega

/-- Settles O33: by the doubling law, and by induction on the number of bits. -/
theorem shiftAssemblesTheFrame : Obligations.ShiftAssemblesTheFrame :=
  ⟨shiftIn_toNat, fun b => (foldl_shiftIn_toNat 24 le_rfl b).1⟩

/-! ### Data pulses and the chip -/

theorem wholeDataPulse_eq (s : State) :
    wholeDataPulse s = chipCountPulse (setClk false (popPin (popPin (midPulse s)))) := rfl

theorem wholeCtrlPulse_eq (s : State) :
    wholeCtrlPulse s = chipCountPulse (setClk false (popPin (midCtrl s))) := rfl

@[simp] theorem dataNext_chip (s : State) : (dataNext s).chip = (wholeDataPulse s).chip := by
  simp [dataNext]

@[simp] theorem dataNext_draws (s : State) : (dataNext s).draws = (wholeDataPulse s).draws := by
  simp [dataNext]

/-- The level sampled is the one shifted in (R85, R94). -/
@[simp] theorem dataNext_shift (s : State) :
    (dataNext s).block.shift = shiftIn s.block.shift (wholeDataPulse s).chip.din := by
  simp [dataNext]

/-- In a pulse that is not stretched past T_PD_US SYNC follows DIN (R40). -/
theorem wholeDataPulse_sync_short {s : State} (hshort : highTime s ≤ s.cfg.tPdUs) :
    SyncFollowsDin s (wholeDataPulse s) := by
  have hl : SameLine (midPulse s) (wholeDataPulse s) := wholeDataPulse_sameLine s
  rcases (midPulse_highPhase s).sync with ⟨hlong, -⟩ | ⟨-, hs⟩
  · omega
  · rwa [SyncFollowsDin, hl.sync, hl.din]

/-- In a READ of draws the pulse puts a draw on DIN, the one made in that step (R37, R83). -/
theorem wholeDataPulse_draw {s : State} (hs : s.chip.source = .draws)
    (hshort : highTime s ≤ s.cfg.tPdUs) :
    (wholeDataPulse s).chip =
        { s.chip with
          din := Config.drawBit s.draws
          sync := (wholeDataPulse s).chip.sync
          pulses := s.chip.pulses + 1 } ∧
      s.draws < (wholeDataPulse s).draws := by
  have hm : midPulse s = driveDin (Config.drawBit s.draws) (spendDraw (risen s)) := by
    have hr : (risen s).chip.source = .draws := hs
    rw [midPulse_short s hshort, chipShiftOut, hr]
    rfl
  refine ⟨?_, ?_⟩
  · ext1 <;> simp [wholeDataPulse, hm, risen]
  · have := driveDin_draws_le (Config.drawBit s.draws) (spendDraw (risen s))
    rw [wholeDataPulse_eq, hm]
    exact this

/-- A pulse stretched past T_PD_US leaves the chip as a power-down does (R38, R154). -/
theorem wholeDataPulse_long {s : State} (hlong : s.cfg.tPdUs < highTime s) :
    (wholeDataPulse s).chip =
      { (powerDown (risen s)).chip with pulses := s.chip.pulses + 1 } := by
  rw [wholeDataPulse_eq, midPulse_long s hlong]
  simp [risen]

theorem wholeCtrlPulse_long {s : State} (hlong : s.cfg.tPdUs < highTime s) :
    (wholeCtrlPulse s).chip =
      { (powerDown (risen s)).chip with pulses := s.chip.pulses + 1 } := by
  rw [wholeCtrlPulse_eq, midCtrl_long s hlong]
  simp [risen]

/-- A chip that has powered down stays so through a pulse (R38). -/
theorem midCtrl_source_poweredDown {s : State} (hs : s.chip.source = .poweredDown) :
    (midCtrl s).chip.source = .poweredDown := by
  rcases Nat.lt_or_ge s.cfg.tPdUs (highTime s) with h | h
  · rw [midCtrl_long s h, powerDown_source]
  · rw [midCtrl_short s h]; exact hs

/-- Settles O23: the chip after a whole pulse of a READ of a word, and of one of draws. -/
theorem dataPulseSamplesTheChip : Obligations.DataPulseSamplesTheChip := by
  refine ⟨fun s w hm hp hc hpins hs hshort => ?_, fun s turn hpins hs hshort => ?_⟩
  · have turn : dataTurn s = true := (dataTurn_iff s).mpr ⟨hm, hp, hc⟩
    have hchip := wholeDataPulse_word (takeEvent s) w hs hshort
    have hsync : SyncFollowsDin (takeEvent s) _ := wholeDataPulse_sync_short hshort
    have hdin : (wholeDataPulse (takeEvent s)).chip.din = w.getLsbD (23 - s.block.cnt.toNat) := by
      rw [hchip]; rfl
    rw [SyncFollowsDin, hdin] at hsync
    refine ⟨_, step_data_whole turn hpins, ?_, ?_⟩
    · rw [dataNext_chip, hchip, hsync]; rfl
    · rw [dataNext_shift, shiftIn_getLsbD_zero, hdin]
  · obtain ⟨hchip, hdraws⟩ := wholeDataPulse_draw (s := takeEvent s) hs hshort
    have hsync : SyncFollowsDin (takeEvent s) _ := wholeDataPulse_sync_short hshort
    have hdin : (wholeDataPulse (takeEvent s)).chip.din = Config.drawBit s.draws := by
      rw [hchip]; rfl
    rw [SyncFollowsDin, hdin] at hsync
    refine ⟨_, step_data_whole turn hpins, ?_, ?_, ?_⟩
    · rw [dataNext_chip, hchip, hsync]; rfl
    · rw [dataNext_shift, shiftIn_getLsbD_zero, hdin]
    · rw [dataNext_draws]; exact hdraws

/-- Settles O24: a long pulse of either kind is a power-down, and a data bit after one is 1. -/
theorem powerDownForcesOnes : Obligations.PowerDownForcesOnes := by
  refine ⟨fun s turn hpins hlong => ?_, fun s turn hpins hlong => ?_, fun s turn hpins hs => ?_⟩
  · have hchip := wholeDataPulse_long (s := takeEvent s) hlong
    refine ⟨_, step_data_whole turn hpins, ?_⟩
    rw [dataNext_shift, shiftIn_getLsbD_zero, dataNext_chip, hchip]
    exact ⟨powerDown_source _, powerDown_din _, powerDown_din _, rfl, powerDown_nextGain _,
      powerDown_conv _⟩
  · have hchip := wholeCtrlPulse_long (s := takeEvent s) hlong
    refine ⟨_, step_ctrl_whole turn hpins, ?_⟩
    rw [ctrlNext, afterCtrl_chip, hchip]
    exact ⟨powerDown_source _, by simp, by simp, by simp, powerDown_din _, rfl,
      powerDown_nextGain _, powerDown_conv _⟩
  · have hmid : (midCtrl (takeEvent s)).chip.source = .poweredDown := midCtrl_source_poweredDown hs
    obtain ⟨hsrc, hdin⟩ := wholeDataPulse_poweredDown (takeEvent s) hmid
    refine ⟨_, step_data_whole turn hpins, ?_⟩
    rw [dataNext_shift, shiftIn_getLsbD_zero, dataNext_chip]
    exact ⟨hsrc, hdin⟩

/-! ### Completion -/

/-- The pulses of a frame name the mode of its GAIN (R39, R63). -/
theorem gainOfPulses_pulseCount : ∀ g : BitVec 2, gainOfPulses (pulseCount g) = gainOfCode g := by
  decide

/-- After a power-down NEXT_GAIN stays the draw it is (R38). -/
theorem takeGain_poweredDown {s : State} (hs : s.chip.source = .poweredDown) : takeGain s = s :=
  if_pos hs

/-- A frame of whole pulses sets NEXT_GAIN to the mode they name (R39). -/
theorem takeGain_counted {s : State} {m : GainMode} (hs : s.chip.source ≠ .poweredDown)
    (hm : gainOfPulses (s.chip.pulses - dataPulses) = some m) :
    takeGain s = setNextGain m s := by
  rw [takeGain, if_neg hs, hm]

theorem gainOfCode_of_legal {s : State} (h : gainLegal s = true) :
    ∃ m, gainOfCode s.block.gain = some m := by
  rw [← Option.isSome_iff_exists]
  revert h
  rw [gainLegal]
  generalize s.block.gain = g
  revert g
  decide

/-- The NEXT_GAIN a completed READ leaves, where the chip has seen the pulses the block counted (R39). -/
theorem completeRead_nextGain {s : State} {m : GainMode} (hs : s.chip.source ≠ .poweredDown)
    (hp : s.chip.pulses = 24 + pulseCount s.block.gain) (hm : gainOfCode s.block.gain = some m) :
    (completeRead s).chip.nextGain = m := by
  have hcount : gainOfPulses (s.chip.pulses - dataPulses) = some m := by
    rw [hp, dataPulses, Nat.add_sub_cancel_left, gainOfPulses_pulseCount, hm]
  have htake := takeGain_counted
    (s := setStep .idle 0#5 (setResult (pattern (widen s.block.shift)) s)) hs hcount
  rw [completeRead, respondOk_chip, chipEndFrame_chip_nextGain, htake]
  rfl

theorem completeRead_nextGain_poweredDown {s : State} (hs : s.chip.source = .poweredDown) :
    (completeRead s).chip.nextGain = s.chip.nextGain := by
  have htake := takeGain_poweredDown
    (s := setStep .idle 0#5 (setResult (pattern (widen s.block.shift)) s)) hs
  rw [completeRead, respondOk_chip, chipEndFrame_chip_nextGain, htake]
  rfl

/-- Settles O26: the last micro-step is `completeRead`. -/
theorem readCompletes : Obligations.ReadCompletes := by
  intro s hm hp hc
  refine ⟨_, step_complete hm hp hc, completeRead_block _, by simp, by simp [pattern], ?_,
    completeRead_chip_conv (takeEvent s), fun hs hpul hg => ?_,
    completeRead_nextGain_poweredDown (s := takeEvent s), by simp, by simp, by simp, by simp⟩
  · ext1 <;> simp
  · obtain ⟨m, hcode⟩ := gainOfCode_of_legal hg
    have hcount : s.chip.pulses = 24 + pulseCount s.block.gain := by
      simpa [pulsesLegal, hp, hc, dataPulses] using hpul
    rw [hcode, completeRead_nextGain (s := takeEvent s) hs hcount hcode]

end Sys2Proof.Machine
end

