-- ==== Sys2Proof/Proofs/WholeRead.lean ====
section
/-! SUPPORT. An undisturbed READ from the presented word to its response, by induction on the pulses
(40_protocol_engine.md R84): what holds after each pulse, and the state at the end. -/

namespace Sys2Proof.Machine

open Sys2Proof.Safety

/-! ### Runs -/

/-- A first step, and then a run from there. -/
theorem run_cons {M : Host.Core} {n : Nat} {s u t : M.State} (h : M.step s = .next u)
    (ht : M.run n u = .next t) : M.run (n + 1) s = .next t := by
  rw [Host.Core.run, h]
  exact ht

/-- A run, and then a last step. -/
theorem run_snoc {M : Host.Core} {n : Nat} {s u t : M.State} (hu : M.run n s = .next u)
    (h : M.step u = .next t) : M.run (n + 1) s = .next t := by
  induction n generalizing s with
  | zero => cases hu; exact run_cons h rfl
  | succ n ih =>
    rw [Host.Core.run] at hu
    split at hu
    · rename_i v hv; exact run_cons hv (ih hu)
    · cases hu
    · cases hu

/-- `n` steps of the machine lead from `s` to `t`. -/
def Reaches (n : Nat) (s t : State) : Prop := Host.Core.run Sys2Proof.core n s = .next t

theorem Reaches.zero (s : State) : Reaches 0 s s := rfl

theorem Reaches.snoc {n : Nat} {s u t : State} (hu : Reaches n s u) (h : step u = .next t) :
    Reaches (n + 1) s t :=
  run_snoc (M := Sys2Proof.core) hu h

/-! ### In a READ -/

theorem undisturbed_iff (s : State) : undisturbed s = true ↔
    s.cfg.legal = true ∧ s.sched = [] ∧ s.pins = [] ∧ s.stretch = 0 := by
  simp only [undisturbed, Bool.and_eq_true, List.isEmpty_iff, beq_iff_eq, and_assoc]

/-- `u` is a state of the undisturbed READ that began in `s`: what no pulse of it changes. -/
structure InRead (s u : State) : Prop where
  calm : undisturbed u = true
  gain : u.block.gain = s.block.gain
  result : u.block.result = s.block.result
  fault : u.block.fault = false
  listen : u.block.listen = s.block.listen
  info : u.block.faultInfo = s.block.faultInfo
  chan : u.chan = { cmd := none, response := none }
  host : u.host = s.host
  source : u.chip.source = (beginRead s).chip.source
  draws : s.draws ≤ u.draws

/-- After `k` data pulses SHIFT holds the top `k` bits of a valid READ's word. -/
structure AtData (s : State) (k : Nat) (u : State) : Prop extends InRead s u where
  phase : u.block.phase = .reading
  cnt : u.block.cnt.toNat = k
  pulses : u.chip.pulses = k
  shift : ∀ w, (beginRead s).chip.source = .word w → u.block.shift = w >>> (24 - k)

/-- After all data pulses and `k` control pulses SHIFT holds a valid READ's word. -/
structure AtCtrl (s : State) (k : Nat) (u : State) : Prop extends InRead s u where
  phase : u.block.phase = .gainPulsing
  cnt : u.block.cnt.toNat = k
  pulses : u.chip.pulses = 24 + k
  clk : u.block.clk = false
  shift : ∀ w, (beginRead s).chip.source = .word w → u.block.shift = w

section
variable {s u : State} (h : InRead s u)
include h

theorem InRead.takeEvent_eq : takeEvent u = u :=
  takeEvent_nil u ((undisturbed_iff u).mp h.calm).2.1

theorem InRead.pinsHold (n : Nat) : Safety.pinsHold n u = true := by
  rw [Safety.pinsHold, ((undisturbed_iff u).mp h.calm).2.2.1, List.take_nil]
  rfl

theorem InRead.microTurn (hb : u.block.phase ≠ .idle) : Safety.microTurn u = true := by
  obtain ⟨hc, hs, -, -⟩ := (undisturbed_iff u).mp h.calm
  simp [Safety.microTurn, agentsTurn, busy, hc, hs, h.fault, hb]

/-- No pulse is stretched, and T_BIT_US < T_PD_US (R164). -/
theorem InRead.short : highTime u ≤ u.cfg.tPdUs := by
  obtain ⟨hc, -, -, hst⟩ := (undisturbed_iff u).mp h.calm
  have hlt : u.cfg.tBitUs < u.cfg.tPdUs := of_decide_eq_true hc
  rw [highTime, hst]
  omega

/-- The chip has not powered down. -/
theorem InRead.source_ne : u.chip.source ≠ .poweredDown := by
  rw [h.source, beginRead_chip]
  dsimp only
  split <;> simp

/-- A whole pulse goes on with the READ. -/
theorem InRead.of_pulse {t : State} (hk : PulseKeeps u t) (hc : undisturbed t = true)
    (hf : t.block.fault = u.block.fault) (hi : t.block.faultInfo = u.block.faultInfo)
    (hs : t.chip.source = u.chip.source) (hd : u.draws ≤ t.draws) : InRead s t where
  calm := hc
  gain := hk.gain.trans h.gain
  result := hk.result.trans h.result
  fault := hf.trans h.fault
  listen := hk.listen.trans h.listen
  info := hi.trans h.info
  chan := hk.chan.trans h.chan
  host := hk.host.trans h.host
  source := hs.trans h.source
  draws := h.draws.trans hd

theorem InRead.dataNext : InRead s (dataNext u) := by
  obtain ⟨hc, hs, hp, -⟩ := (undisturbed_iff u).mp h.calm
  refine h.of_pulse (DataOutcome.whole (h.pinsHold 3)).keeps ?_ ?_ ?_ ?_ ?_
  · simp [undisturbed_iff, Machine.dataNext, hc, hs, hp]
  · simp [Machine.dataNext]
  · simp [Machine.dataNext]
  · rw [dataNext_chip, (wholeDataPulse_sameLine u).source, midPulse_short u h.short,
      chipShiftOut_chip_source]
    rfl
  · rw [dataNext_draws]
    exact (midPulse_highPhase u).draws_le

theorem InRead.ctrlNext : InRead s (ctrlNext u) := by
  obtain ⟨hc, hs, hp, -⟩ := (undisturbed_iff u).mp h.calm
  refine h.of_pulse (CtrlOutcome.whole (h.pinsHold 2)).keeps ?_ ?_ ?_ ?_ ?_
  · simp [undisturbed_iff, Machine.ctrlNext, hc, hs, hp]
  · simp [Machine.ctrlNext]
  · simp [Machine.ctrlNext]
  · rw [(ctrlNext_sameLine u).source, midCtrl_short u h.short]
    rfl
  · exact (midCtrl_highPhase u).draws_le

end

/-! ### Pulse by pulse -/

/-- The acceptance of READ (R81). -/
theorem step_read {s : State} (hu : undisturbed s = true) (hw : presents s 0x20#8 = true) :
    step s = .next (beginRead (acceptCommand s)) := by
  obtain ⟨hc, hs, -, -⟩ := (undisturbed_iff s).mp hu
  have hacc : accepts s .read = true := by
    have henc : encode .read = 0x20#8 := rfl
    have hl : Instr.legal s.cfg.hasEdgeNotify .read = true := rfl
    simp [accepts, agentsTurn, hc, hs, henc, hw, hl]
  rw [step_accepts hacc, takeEvent_nil s hs]
  rfl

theorem beginRead_atData {s : State} (hu : undisturbed s = true) (hw : presents s 0x20#8 = true) :
    AtData s 0 (beginRead (acceptCommand s)) := by
  have hf : s.block.fault = false := by
    simp only [presents, Bool.and_eq_true] at hw
    exact (canAccept_parts hw.1).2
  exact {
    calm := hu, gain := rfl, result := rfl, fault := hf, listen := rfl, info := rfl, chan := rfl
    host := rfl, source := rfl, draws := le_rfl, phase := rfl, cnt := rfl, pulses := rfl
    shift := fun w _ => by simp [BitVec.ushiftRight_eq_zero] }

section
variable {s u : State} {k : Nat}

theorem AtData.step (h : AtData s k u) (hk : k < 24) : Machine.step u = .next (Machine.dataNext u) := by
  have hb : u.block.phase ≠ .idle := by simp [h.phase]
  have turn : dataTurn u = true :=
    (dataTurn_iff u).mpr ⟨h.toInRead.microTurn hb, h.phase, by rw [h.cnt]; exact hk⟩
  rw [step_data_whole turn (h.toInRead.pinsHold 3), h.toInRead.takeEvent_eq]

theorem AtCtrl.step (h : AtCtrl s k u) (hk : k < pulseCount s.block.gain) :
    Machine.step u = .next (Machine.ctrlNext u) := by
  have hb : u.block.phase ≠ .idle := by simp [h.phase]
  have turn : ctrlTurn u = true :=
    (ctrlTurn_iff u).mpr ⟨h.toInRead.microTurn hb, h.phase, by rw [h.cnt, h.gain]; exact hk⟩
  rw [step_ctrl_whole turn (h.toInRead.pinsHold 2), h.toInRead.takeEvent_eq]

theorem AtCtrl.step_last (h : AtCtrl s (pulseCount s.block.gain) u) :
    Machine.step u = .next (completeRead u) := by
  have hb : u.block.phase ≠ .idle := by simp [h.phase]
  rw [step_complete (h.toInRead.microTurn hb) h.phase (by rw [h.cnt, h.gain]),
    h.toInRead.takeEvent_eq]

/-- The bit a valid READ shifts in is the next one of its word (R37). -/
theorem AtData.shift_next (h : AtData s k u) (hk : k < 24) (w : Raw24)
    (hw : (beginRead s).chip.source = .word w) :
    (Machine.dataNext u).block.shift = w >>> (24 - (k + 1)) := by
  have hsrc : u.chip.source = .word w := h.source.trans hw
  rw [dataNext_shift, wholeDataPulse_word u w hsrc h.toInRead.short, h.shift w hw, h.cnt]
  exact shiftIn_top_bits w k hk

theorem AtData.next (h : AtData s k u) (hk : k < 23) : AtData s (k + 1) (Machine.dataNext u) := by
  have hcnt := h.cnt
  have hstep := dataNext_step_lt (s := u) (by omega)
  refine { toInRead := h.toInRead.dataNext, phase := hstep.1, cnt := ?_, pulses := ?_,
           shift := h.shift_next (by omega) }
  · rw [hstep.2, BitVec.toNat_add, BitVec.toNat_ofNat]; omega
  · simp [h.pulses]

theorem AtData.last (h : AtData s 23 u) : AtCtrl s 0 (Machine.dataNext u) := by
  have hcnt := h.cnt
  have hstep := dataNext_step_last (s := u) (by omega)
  refine { toInRead := h.toInRead.dataNext, phase := hstep.1, cnt := ?_, pulses := ?_, clk := ?_,
           shift := fun w hw => ?_ }
  · rw [hstep.2]; rfl
  · simp [h.pulses]
  · simp [Machine.dataNext]
  · simpa using h.shift_next (by omega) w hw

theorem AtCtrl.next (h : AtCtrl s k u) (hk : k < pulseCount s.block.gain) :
    AtCtrl s (k + 1) (Machine.ctrlNext u) := by
  have hplus : (u.block.cnt + 1#5).toNat = k + 1 := by
    have : s.block.gain.toNat < 4 := s.block.gain.isLt
    have hc := h.cnt
    rw [pulseCount] at hk
    rw [BitVec.toNat_add]; simp; omega
  refine { toInRead := h.toInRead.ctrlNext, phase := rfl, cnt := ?_, pulses := ?_, clk := ?_,
           shift := ?_ }
  · simpa [Machine.ctrlNext] using hplus
  · simp [Machine.ctrlNext, h.pulses, Nat.add_assoc]
  · simp [Machine.ctrlNext]
  · simpa [Machine.ctrlNext] using h.shift

end

/-! ### The whole READ -/

section
variable {s : State} (hu : undisturbed s = true) (hw : presents s 0x20#8 = true)
include hu hw

theorem reaches_atData (k : Nat) (hk : k < 24) : ∃ u, Reaches (k + 1) s u ∧ AtData s k u := by
  induction k with
  | zero => exact ⟨_, .snoc (.zero s) (step_read hu hw), beginRead_atData hu hw⟩
  | succ k ih =>
    obtain ⟨u, hr, ha⟩ := ih (by omega)
    exact ⟨_, hr.snoc (ha.step (by omega)), ha.next (by omega)⟩

theorem reaches_atCtrl (k : Nat) (hk : k ≤ pulseCount s.block.gain) :
    ∃ u, Reaches (k + 25) s u ∧ AtCtrl s k u := by
  induction k with
  | zero =>
    obtain ⟨u, hr, ha⟩ := reaches_atData hu hw 23 (by omega)
    exact ⟨_, hr.snoc (ha.step (by omega)), ha.last⟩
  | succ k ih =>
    obtain ⟨u, hr, ha⟩ := ih (by omega)
    exact ⟨_, by simpa [Nat.add_right_comm] using hr.snoc (ha.step (by omega)), ha.next (by omega)⟩

/-- An undisturbed READ ends in its completion, after the whole frame (R84, R88). -/
theorem read_reaches_completion :
    ∃ u, AtCtrl s (pulseCount s.block.gain) u ∧
      Host.Core.run Sys2Proof.core (readSteps s.block.gain) s = .next (completeRead u) := by
  obtain ⟨u, hr, ha⟩ := reaches_atCtrl hu hw _ le_rfl
  have hn : readSteps s.block.gain = pulseCount s.block.gain + 25 + 1 := by
    rw [readSteps, dataPulses]; omega
  exact ⟨u, ha, hn ▸ hr.snoc ha.step_last⟩

end

/-- The mode the completed READ leaves (R39, R91). -/
theorem AtCtrl.nextGain {s u : State} {m : GainMode} (h : AtCtrl s (pulseCount s.block.gain) u)
    (hm : gainOfCode s.block.gain = some m) : (completeRead u).chip.nextGain = m :=
  completeRead_nextGain h.toInRead.source_ne (by rw [h.pulses, h.gain]) (by rw [h.gain, hm])

/-- What a READ that is complete leaves of the block. -/
theorem AtCtrl.completeRead_block {s u : State} {k : Nat} {w : Raw24} (h : AtCtrl s k u)
    (hf : s.block.fault = false) (hw : (beginRead s).chip.source = .word w) :
    (completeRead u).block =
      { s.block with
        clk := false
        shift := w
        result := BitVec.ofInt 32 (widen w)
        phase := .idle
        cnt := 0#5
        pending := (completeRead u).block.pending
        dinPrev := (completeRead u).block.dinPrev } := by
  rw [Machine.completeRead_block]
  ext1 <;> simp [h.clk, h.gain, h.shift w hw, pattern, h.fault, hf, h.listen, h.info]

/-- Settles O29: the run of a valid READ, whose word is the chip's conversion. -/
theorem validReadReturnsTheConversion : Obligations.ValidReadReturnsTheConversion := by
  intro s hu hw hr hg
  obtain ⟨u, ha, hrun⟩ := read_reaches_completion hu hw
  have hsrc : (beginRead s).chip.source = .word s.chip.conv := by
    rw [beginRead_chip]
    exact if_pos hr
  have hf : s.block.fault = false := by
    simp only [presents, Bool.and_eq_true] at hw
    exact (canAccept_parts hw.1).2
  obtain ⟨m, hm⟩ := gainOfCode_of_legal hg
  refine ⟨_, hrun, ?_, ha.completeRead_block hf hsrc, by rw [ha.nextGain hm, hm], ?_,
    completeRead_chip_convMode u, by simp [ha.host]⟩
  · simp [ha.chan, ha.shift _ hsrc, pattern]
  · simp [ha.pulses]

theorem gainOfCode_gainCode (m : GainMode) : gainOfCode (gainCode m) = some m := by
  cases m <;> rfl

/-- Settles O47: the completion sets NEXT_GAIN and draws the next conversion under it; the event that
follows latches under it too. -/
theorem gainTakesEffectOnTheNextConversion : Obligations.GainTakesEffectOnTheNextConversion := by
  intro s m w hu hw hg
  obtain ⟨u, ha, hrun⟩ := read_reaches_completion hu hw
  have hm : (completeRead u).chip.nextGain = m :=
    ha.nextGain (by rw [hg, gainOfCode_gainCode])
  obtain ⟨n, hle, hlt, hconv⟩ := completeRead_chip_conv u
  have hlegal : u.cfg.legal = true := ((undisturbed_iff u).mp ha.calm).1
  have turn : eventTurn (.ready w) { completeRead u with sched := [.ready w] } = true := by
    simp [eventTurn, hlegal]
  have hfree : dinForcedHigh (takeEvent { completeRead u with sched := [.ready w] }) = false := by
    simp [dinForcedHigh, busy]
  refine ⟨_, _, hrun, hm, by rw [completeRead_chip_convMode, hm], ⟨n, ha.draws.trans hle, hlt, hconv⟩,
    step_ready turn, ?_, ?_, ?_⟩ <;> rw [chipReady_of_not_forced hfree]
  · simp
  · simp [hm]
  · simp

end Sys2Proof.Machine
end

