-- ==== Sys2Proof/Proofs/Acceptance.lean ====
section
/-! SUPPORT. The serial command channel (20_memory.md R53): what happens to the word on CMD, and how a
READ ends. -/

namespace Sys2Proof.Machine

open Sys2Proof.Safety

/-! ### A word before an idle block -/

theorem presents_parts {s : State} {w : Byte} (h : presents s w = true) :
    canAccept s = true ∧ s.chan.cmd = some w := by
  simpa [presents] using h

/-- In the agents' turn a legal word before a block that can accept it is an accepted command. -/
theorem accepts_of_decode {s : State} {w : Byte} {i : Instr} (ha : agentsTurn s = true)
    (hp : presents s w = true) (hd : decode s.cfg.hasEdgeNotify w = .ok i) : accepts s i = true := by
  obtain ⟨rfl, hl⟩ := decode_sound _ _ _ hd
  simp [accepts, ha, hp, hl]

/-- In the agents' turn an illegal word before a block that can accept it is taken and answered (R73). -/
theorem step_illegalWord {s : State} {w : Byte} {x : IllegalWord} (ha : agentsTurn s = true)
    (hp : presents s w = true) (hd : decode s.cfg.hasEdgeNotify w = .error x) :
    step s = .next (respondIllegal (acceptCommand (takeEvent s))) := by
  obtain ⟨hcan, hw⟩ := presents_parts hp
  obtain ⟨hidle, hnf⟩ := canAccept_parts hcan
  simp only [step, nextMove_agents s ha, agentMove, takeEvent_block, takeEvent_chan, hnf, hidle, hw,
    acceptWord, takeEvent_cfg, hd]
  rfl

/-- Settles O5: a presented legal word is an accepted command, whose step is its meaning. -/
theorem stepRunsTheAcceptedCommand : Obligations.StepRunsTheAcceptedCommand := by
  intro s w i ha hp hd
  exact step_accepts (accepts_of_decode ha hp hd)

/-! ### The meaning of a command answers -/

theorem withUnit_next (s t : State) : ∃ u, withUnit s t = .next u := by
  unfold withUnit
  split <;> exact ⟨_, rfl⟩

/-- No command stops the machine: its meaning is a next state, that of a PinFault included (R136). -/
theorem exec_next (i : Instr) (s : State) : ∃ t, exec i s = .next t := by
  cases i with
  | rdy =>
    rw [exec, execRdy]
    rcases pinReadDin_cases s with ⟨-, e⟩ | ⟨-, e⟩ <;> rw [e] <;> exact ⟨_, rfl⟩
  | setgain g =>
    rw [exec, execSetgain]
    split <;> exact ⟨_, rfl⟩
  | read | getgain => exact ⟨_, rfl⟩
  | listen | unlisten | clrint | islistening => exact withUnit_next s _

/-- The meaning of a command presents no word. -/
theorem ExecCase.cmd {i : Instr} {s t : State} (h : ExecCase s i t) : t.chan.cmd = s.chan.cmd := by
  cases h <;> rfl

/-- A word before a block that can accept it leaves CMD in the agents' turn, legal or not (R53, R73). -/
theorem step_takes_word {s : State} {w : Byte} (ha : agentsTurn s = true)
    (hp : presents s w = true) : ∃ t, step s = .next t ∧ t.chan.cmd = none := by
  cases hd : decode s.cfg.hasEdgeNotify w with
  | ok i =>
    obtain ⟨t, ht⟩ := exec_next i (acceptCommand (takeEvent s))
    exact ⟨t, (step_accepts (accepts_of_decode ha hp hd)).trans ht, (exec_case ht).cmd⟩
  | error x => exact ⟨_, step_illegalWord ha hp hd, rfl⟩

/-! ### A word before a block that cannot accept it -/

/-- A word before a block that cannot accept it is held, by a reset too (R53; assumption log 15). -/
theorem step_keeps_cmd {s t : State} {w : Byte} (h : step s = .next t) (hw : s.chan.cmd = some w)
    (hcan : canAccept s = false) : t.chan.cmd = some w := by
  rw [← hw]
  cases step_kind h with
  | drive v _ eq => subst eq; simp
  | ready v _ eq => subst eq; simp
  | stretch us _ _ eq => subst eq; simp
  | rst _ eq => subst eq; simp
  | command i acc _ =>
    obtain ⟨-, hidle, hnf, -⟩ := accepts_parts acc
    simp [canAccept, hidle, hnf] at hcan
  | illegal _ acc _ => rw [acc] at hcan; cases hcan
  | data _ out => rw [out.keeps.chan]; rfl
  | ctrl _ out => rw [out.keeps.chan]; rfl
  | complete _ _ _ eq => subst eq; simp
  | host turn _ =>
    have hnone := (hostTurn_parts turn).2.2.2
    rw [hw] at hnone; cases hnone

/-! ### The end of a READ -/

/-- A data pulse, whole or failed, leaves the READ in progress (R84, R136). -/
theorem DataOutcome.busy {s t : State} (h : DataOutcome s t) (hb : s.block.phase ≠ .idle) :
    t.block.phase ≠ .idle := by
  cases h with
  | risingFails => exact hb
  | sampleFails => simpa [failedSample, midPulse] using hb
  | fallingFails => simpa [failedClkWrite, midPulse] using hb
  | whole => exact dataNext_busy s

/-- A control pulse, whole or failed, leaves the READ in progress (R84, R136). -/
theorem CtrlOutcome.busy {s t : State} (h : CtrlOutcome s t) (hb : s.block.phase ≠ .idle) :
    t.block.phase ≠ .idle := by
  cases h with
  | risingFails => exact hb
  | fallingFails => simpa [failedClkWrite, midCtrl] using hb
  | whole => simp [ctrlNext]

/-- A move of DIN leaves a READ in progress. -/
theorem DinMove.busy {s t : State} (h : DinMove s t) (hb : s.block.phase ≠ .idle) :
    t.block.phase ≠ .idle := by
  rw [h.block]
  exact hb

/-- A step in a READ is a reset, or the completion, or it leaves the READ in progress (R53, R84). -/
theorem step_in_read_cases {s t : State} (h : step s = .next t) (hb : s.block.phase ≠ .idle) :
    eventTurn .rst s = true ∨
    (microTurn s = true ∧ s.block.phase = .gainPulsing ∧
      s.block.cnt.toNat = pulseCount s.block.gain) ∨
    t.block.phase ≠ .idle := by
  cases step_kind h with
  | drive v _ eq => subst eq; exact .inr (.inr ((chipDrive_move v (takeEvent s)).busy hb))
  | ready w _ eq => subst eq; exact .inr (.inr ((chipReady_move w (takeEvent s)).busy hb))
  | stretch us _ _ eq => subst eq; exact .inr (.inr ((stretchClock_move us (takeEvent s)).busy hb))
  | rst turn _ => exact .inl turn
  | command i acc _ => exact absurd (accepts_parts acc).2.1 hb
  | illegal _ acc _ => exact absurd (canAccept_parts acc).1 hb
  | data _ out => exact .inr (.inr (out.busy hb))
  | ctrl _ out => exact .inr (.inr (out.busy hb))
  | complete turn phase cnt _ => exact .inr (.inl ⟨turn, phase, cnt⟩)
  | host turn _ => exact absurd (hostTurn_parts turn).2.1 hb

/-- Settles O7: by what a step does to CMD, and by what a step in a READ can be. -/
theorem commandsAreSerial : Obligations.CommandsAreSerial := by
  refine ⟨fun s t w h hw hcan _ => step_keeps_cmd h hw hcan, fun s w => step_takes_word, ?_⟩
  intro s t h hs ht
  rcases step_in_read_cases h ((busy_iff s).mp hs) with hr | hdone | hb
  · exact .inl hr
  · exact .inr hdone
  · rw [← busy_iff, ht] at hb
    cases hb

end Sys2Proof.Machine
end

