-- ==== Sys2Proof/Proofs/Encoding.lean ====
section
/-! SUPPORT. The command words (30_encoding.md R65 to R79): decoding and encoding are inverse on the legal
commands, every other word is answered `(ILLEGAL_COMMAND, 0)`, and every word's text reads back. -/

namespace Sys2Proof.Machine

open Sys2Proof.Safety

/-! ### Decoding and encoding -/

/-- Settles O1: `decode_encode`, by the commands. -/
theorem decodeInvertsEncode : Obligations.DecodeInvertsEncode := decode_encode

/-- Settles O2: soundness of the decoder, and `decode_encode` for the other direction. -/
theorem decodeAcceptsExactlyTheLegalWords : Obligations.DecodeAcceptsExactlyTheLegalWords := by
  refine fun h w i => ⟨decode_sound h w i, ?_⟩
  rintro ⟨rfl, hl⟩
  exact decode_encode h i hl

/-- The legal commands of a block, those of the edge-notify unit last (R66, R75). -/
def legalCommands (hasEdgeNotify : Bool) : List Instr :=
  [.rdy, .read, .setgain 0#2, .setgain 1#2, .setgain 2#2, .getgain] ++
    if hasEdgeNotify then [.listen, .unlisten, .clrint, .islistening] else []

theorem mem_legalCommands (h : Bool) (i : Instr) : i ∈ legalCommands h ↔ i.legal h = true := by
  cases i with
  | setgain g => revert g; cases h <;> decide
  | _ => cases h <;> decide

/-- A block has as many legal words as legal commands. -/
theorem countP_legalWords (h : Bool) :
    (List.range 256).countP (fun n => (decode h (BitVec.ofNat 8 n)).isOk) =
      (legalCommands h).length := by
  have hwords : ((legalCommands h).map fun i => (encode i).toNat).Nodup := by
    cases h <;> decide
  have hmem : ∀ n, n ∈ (List.range 256).filter (fun n => (decode h (BitVec.ofNat 8 n)).isOk) ↔
      n ∈ (legalCommands h).map fun i => (encode i).toNat := fun n => by
    simp only [List.mem_filter, List.mem_range, List.mem_map, mem_legalCommands]
    constructor
    · rintro ⟨hn, hok⟩
      cases hd : decode h (BitVec.ofNat 8 n) with
      | ok i =>
        obtain ⟨hw, hl⟩ := decode_sound _ _ _ hd
        exact ⟨i, hl, by rw [← hw, BitVec.toNat_ofNat, Nat.mod_eq_of_lt hn]⟩
      | error x => rw [hd] at hok; cases hok
    · rintro ⟨i, hl, rfl⟩
      refine ⟨(encode i).isLt, ?_⟩
      rw [BitVec.ofNat_toNat, BitVec.setWidth_eq, decode_encode h i hl]
      rfl
  rw [List.countP_eq_length_filter,
    ((List.perm_ext_iff_of_nodup (List.nodup_range.filter _) hwords).mpr hmem).length_eq,
    List.length_map]

/-- Settles O3: the words decode by evaluation, and are counted by their commands. -/
theorem opcodeMapWords : Obligations.OpcodeMapWords :=
  ⟨rfl, rfl, rfl, rfl, rfl, rfl, rfl, rfl, rfl, rfl, countP_legalWords true, countP_legalWords false⟩

/-! ### Illegal words -/

/-- Settles O6: an illegal word is taken off CMD and answered. -/
theorem illegalWordHasNoEffect : Obligations.IllegalWordHasNoEffect :=
  fun _ _ _ ha hp hd => step_illegalWord ha hp hd

/-- Settles O15: 0x33 is an illegal word, and `exec` of SETGAIN 3 answers as one. -/
theorem reservedGainIsIllegal : Obligations.ReservedGainIsIllegal :=
  ⟨fun _ => rfl, fun s ha hp => illegalWordHasNoEffect s _ _ ha hp rfl, fun _ => rfl⟩

/-- Without the unit an edge-notify word is illegal (R75). -/
theorem decode_edgeWord {w : Byte} (hw : w = 0x50#8 ∨ w = 0x60#8 ∨ w = 0x70#8 ∨ w = 0x80#8) :
    decode false w = .error (.edgeNotifyAbsent w) := by
  rcases hw with rfl | rfl | rfl | rfl <;> rfl

/-- Without the unit IRQ is 0, whatever the absent registers hold (R29, R32). -/
theorem irq_noUnit {s : State} (hu : s.cfg.hasEdgeNotify = false) : irq s = false := by
  simp [irq, listenBit, hu]

/-- Settles O21: the four words are illegal, so they have no effect. -/
theorem edgeCommandsNeedTheUnit : Obligations.EdgeCommandsNeedTheUnit := by
  refine ⟨fun w => decode_edgeWord, fun s w hu hw ha hp => ?_, fun s => irq_noUnit⟩
  exact illegalWordHasNoEffect s w _ ha hp (hu ▸ decode_edgeWord hw)

/-! ### SETGAIN -/

/-- The word of SETGAIN is its operation code with the gain code in bits 1 and 0 (R67). -/
theorem encode_setgain : ∀ g : BitVec 2, encode (.setgain g) = 0x30#8 ||| g.setWidth 8 := by
  decide

/-- Every code but 3 is legal, with the unit and without it (R67, R74). -/
theorem setgain_legal {g : BitVec 2} (hg : g ≠ 3#2) (h : Bool) :
    (Instr.setgain g).legal h = true := by
  simp [Instr.legal, Instr.wellFormed, Instr.needsEdgeNotify, hg]

theorem exec_setgain {g : BitVec 2} (hg : g ≠ 3#2) (s : State) :
    exec (.setgain g) s = .next (respondOk 0#32 (setGain g s)) := if_neg hg

/-- Settles O14: the three codes are those other than 3. -/
theorem setgainWritesGain : Obligations.SetgainWritesGain := by
  intro g s hcode
  have hg : g ≠ 3#2 := by rcases hcode with rfl | rfl | rfl <;> decide
  refine ⟨fun h => ?_, exec_setgain hg s⟩
  rw [← encode_setgain]
  exact decode_encode h _ (setgain_legal hg h)

/-! ### Disassembly -/

/-- A hexadecimal digit reads back, and is neither a blank nor the start of a comment. -/
theorem hexChar_reads : ∀ d : BitVec 4,
    hexValue (hexChar d) = some d ∧ isBlank (hexChar d) = false ∧ (hexChar d == ';') = false := by
  decide

/-- A word is its two hexadecimal digits. -/
theorem digits_append (w : Byte) : w.extractLsb' 4 4 ++ w.extractLsb' 0 4 = w := by
  rw [BitVec.extractLsb'_append_extractLsb'_eq_extractLsb' (by rfl)]
  exact BitVec.extractLsb'_eq_self

theorem parseWord_wordText (w : Byte) : parseWord (wordText w) = some w := by
  obtain ⟨hhi, -⟩ := hexChar_reads (w.extractLsb' 4 4)
  obtain ⟨hlo, -⟩ := hexChar_reads (w.extractLsb' 0 4)
  simp [parseWord, wordText, hhi, hlo, digits_append]

/-- The `.byte` line of a word assembles to it (R77). -/
theorem assembleLine_byte (w : Byte) :
    assembleLine (['.', 'b', 'y', 't', 'e', ' '] ++ wordText w) = some [.cmd w] := by
  obtain ⟨-, hb, hc⟩ := hexChar_reads (w.extractLsb' 4 4)
  obtain ⟨-, hb', hc'⟩ := hexChar_reads (w.extractLsb' 0 4)
  have hsplit : splitBlanks (dropComment (['.', 'b', 'y', 't', 'e', ' '] ++ wordText w)) [] =
      [['.', 'b', 'y', 't', 'e'], wordText w] := by
    simp_all [wordText, dropComment, splitBlanks, isBlank]
  rw [assembleLine, hsplit]
  simp [parseTwo, mnemonic, parseWord_wordText]

/-- The line of a well-formed command assembles to its word (R77, R79). -/
theorem assembleLine_commandText {i : Instr} (hi : i.wellFormed = true) :
    assembleLine (commandText i) = some [.cmd (encode i)] := by
  cases i with
  | setgain g => revert g; decide
  | _ => rfl

/-- Settles O4: a legal word prints as its command, every other one as `.byte`. -/
theorem disassemblyReassembles : Obligations.DisassemblyReassembles := by
  intro h w
  unfold disassemble
  cases hd : decode h w with
  | ok i =>
    obtain ⟨rfl, hl⟩ := decode_sound h w i hd
    rw [Instr.legal, Bool.and_eq_true] at hl
    exact assembleLine_commandText hl.1
  | error x => exact assembleLine_byte w

end Sys2Proof.Machine
end

