-- ==== Sys2Proof/Proofs/Widening.lean ====
section
/-! SUPPORT. Widening of the raw word (30_encoding.md R64; 40_protocol_engine.md R87): it is sign extension
from 24 bits, and its saturation changes nothing. -/

namespace Sys2Proof.Machine

/-- `sext_24` is sign extension (R64). -/
theorem sext24_eq_signExtend (raw : Raw24) : sext24 raw = raw.signExtend 32 := by
  have hones : 0xFF000000#32 = BitVec.allOnes 8 ++ 0#24 := rfl
  have hzext : raw.setWidth 32 = 0#8 ++ raw := BitVec.setWidth_eq_append (by decide)
  rw [BitVec.signExtend_eq_append_of_le (by decide), BitVec.msb_eq_getLsbD_last, sext24, hzext, hones,
    BitVec.or_append, BitVec.or_zero, BitVec.zero_or]
  cases raw.getLsbD 23 <;> rfl

/-- A raw word's value is in the range of a sample already, so that saturation keeps it (R87). -/
theorem widen_eq_toInt (raw : Raw24) : widen raw = raw.toInt := by
  have h := raw.toInt_lt
  have h' := raw.le_toInt
  rw [widen, sext24_eq_signExtend, BitVec.toInt_signExtend_of_le (by decide)]
  simp only [clamp, hx711Minimum, hx711Maximum]
  norm_num at h h'
  omega

/-- VALUE is the raw word, sign-extended (R72, R87). -/
theorem pattern_widen (raw : Raw24) : pattern (widen raw) = raw.signExtend 32 := by
  rw [widen_eq_toInt]
  rfl

/-- An i32 in the range of a sample lies, as a pattern, at one of the two ends (R72). -/
theorem toNat_of_sample_range {x : Word32} (hlo : hx711Minimum ≤ x.toInt)
    (hhi : x.toInt ≤ hx711Maximum) : 0xFF800000 ≤ x.toNat ∨ x.toNat ≤ 0x007FFFFF := by
  simp only [hx711Minimum, hx711Maximum, BitVec.toInt_eq_toNat_cond] at hlo hhi
  omega

/-- Settles O32: bits 23 to 31 of a sign extension are its sign. -/
theorem readValueIsSignExtended : Obligations.ReadValueIsSignExtended := by
  intro raw
  obtain ⟨hlo, hhi⟩ := pattern_widen_range raw
  refine ⟨fun i hi hi' => ?_, toNat_of_sample_range hlo hhi, hlo, hhi⟩
  change (pattern (widen raw)).getLsbD i = (pattern (widen raw)).getLsbD 23
  rw [pattern_widen, BitVec.getLsbD_signExtend, BitVec.getLsbD_signExtend]
  simp [hi', Nat.not_lt.mpr hi, BitVec.msb_eq_getLsbD_last]

end Sys2Proof.Machine
end

