-- ==== Sys2Proof/Proofs/EdgeDetector.lean ====
section
/-! SUPPORT. The edge detector's own registers PENDING and DIN_PREV (41_edge_notify.md R99; 30_encoding.md
R75): what a step writes of them follows from what it did to DIN. -/

namespace Sys2Proof.Machine

open Sys2Proof.Safety

/-! ### What the detector sees -/

/-- In `t` the edge detector has seen what became of DIN since `s`: nothing where DIN kept its level or
the unit is absent, and otherwise DIN_PREV is the new level; PENDING moves at a fall only (R75, R99). -/
structure EdgeSeen (s t : State) : Prop where
  still : t.chip.din = s.chip.din →
    t.block.dinPrev = s.block.dinPrev ∧ t.block.pending = s.block.pending
  moved : s.cfg.hasEdgeNotify = true → t.chip.din ≠ s.chip.din → t.block.dinPrev = t.chip.din
  noUnit : s.cfg.hasEdgeNotify = false →
    t.block.dinPrev = s.block.dinPrev ∧ t.block.pending = s.block.pending
  pending : t.block.pending = s.block.pending ∨ (s.chip.din = true ∧ t.chip.din = false)

/-- A step that leaves DIN and the two registers shows the detector nothing. -/
theorem EdgeSeen.refl {s t : State} (hd : t.chip.din = s.chip.din)
    (hr : t.block.dinPrev = s.block.dinPrev ∧ t.block.pending = s.block.pending) : EdgeSeen s t where
  still _ := hr
  moved _ hne := absurd hd hne
  noUnit _ := hr
  pending := .inl hr.2

/-- What happens before DIN moves, and touches none of what the detector works on, is not seen. -/
theorem EdgeSeen.of_before {s u t : State} (h : EdgeSeen u t) (hc : u.cfg = s.cfg)
    (hd : u.chip.din = s.chip.din) (hp : u.block.dinPrev = s.block.dinPrev)
    (hq : u.block.pending = s.block.pending) : EdgeSeen s t := by
  obtain ⟨hstill, hmoved, hno, hpend⟩ := h
  rw [hd, hp, hq] at hstill
  rw [hc, hd] at hmoved
  rw [hc, hp, hq] at hno
  rw [hd, hq] at hpend
  exact ⟨hstill, hmoved, hno, hpend⟩

/-- What happens after DIN has moved, and leaves the line as it is, is not seen. -/
theorem EdgeSeen.of_sameLine {s m t : State} (h : EdgeSeen s m) (hl : SameLine m t) :
    EdgeSeen s t := by
  constructor <;> simp only [hl.din, hl.dinPrev, hl.pending]
  · exact h.still
  · exact h.moved
  · exact h.noUnit
  · exact h.pending

/-- A change of DIN is one step of the detector (R99). -/
theorem driveDin_moved_dinPrev {v : Bool} {s : State} (hu : s.cfg.hasEdgeNotify = true)
    (hne : v ≠ s.chip.din) : (driveDin v s).block.dinPrev = v := by
  rw [driveDin, if_neg (Ne.symm hne), edgeDetect, if_pos hu]
  rfl

theorem driveDin_edgeSeen (v : Bool) (s : State) : EdgeSeen s (driveDin v s) where
  still h := by rw [(driveDin_move v s).still h]; exact ⟨rfl, rfl⟩
  moved hu hne := by
    rw [driveDin_din] at hne ⊢
    exact driveDin_moved_dinPrev hu hne
  noUnit hu := by rw [driveDin_noUnit v s hu]; exact ⟨rfl, rfl⟩
  pending := (driveDin_move v s).pending.imp_right fun ⟨hd, hd', _⟩ => ⟨hd, hd'⟩

theorem powerDown_edgeSeen (s : State) : EdgeSeen s (powerDown s) :=
  have h := (driveDin_edgeSeen true (setSource .poweredDown s)).of_before (s := s) rfl rfl rfl rfl
  ⟨h.still, h.moved, h.noUnit, h.pending⟩

/-! ### The chip's events and the pulses -/

theorem chipDrive_edgeSeen (v : Bool) (s : State) : EdgeSeen s (chipDrive v s) := by
  rcases chipDrive_cases v s with ⟨-, h⟩ | ⟨-, -, h⟩ | ⟨-, -, h⟩ <;> rw [h]
  · exact .refl rfl ⟨rfl, rfl⟩
  · exact (driveDin_edgeSeen v (latchDraw s)).of_before rfl rfl rfl rfl
  · exact driveDin_edgeSeen v s

theorem chipReady_edgeSeen (w : Raw24) (s : State) : EdgeSeen s (chipReady w s) := by
  rcases chipReady_cases w s with ⟨-, h⟩ | ⟨-, h⟩ <;> rw [h]
  · exact .refl rfl ⟨rfl, rfl⟩
  · exact (driveDin_edgeSeen false (latch w s)).of_before rfl rfl rfl rfl

theorem stretchClock_edgeSeen (us : Nat) (s : State) : EdgeSeen s (stretchClock us s) := by
  rcases stretchClock_cases us s with ⟨-, -, h⟩ | ⟨-, h⟩ <;> rw [h]
  · exact (powerDown_edgeSeen (addStretch us s)).of_before rfl rfl rfl rfl
  · exact .refl rfl ⟨rfl, rfl⟩

theorem HighPhase.edgeSeen {s m : State} (h : HighPhase s m) : EdgeSeen s m := by
  cases h with
  | poweredDown => exact (powerDown_edgeSeen (risen s)).of_before rfl rfl rfl rfl
  | quiet => exact .refl rfl ⟨rfl, rfl⟩
  | bit _ v u hu =>
    obtain rfl | rfl := hu <;> exact (driveDin_edgeSeen v _).of_before rfl rfl rfl rfl

theorem PulseLine.edgeSeen {s t : State} (h : PulseLine s t) : EdgeSeen s t := by
  rcases h with ⟨-, hl⟩ | ⟨-, m, hm, hl⟩
  · exact .refl hl.din ⟨hl.dinPrev, hl.pending⟩
  · exact hm.edgeSeen.of_sameLine hl

/-! ### Every step -/

theorem EdgeSeen.of_takeEvent {s t : State} (h : EdgeSeen (takeEvent s) t) : EdgeSeen s t :=
  h.of_before rfl rfl rfl rfl

/-- CLRINT writes PENDING, and reset both registers; in every other step the detector alone does. -/
inductive DetectorCase (s t : State) : Prop
  | seen (edge : EdgeSeen s t)
  | clrint (acc : accepts s .clrint = true) (unit : s.cfg.hasEdgeNotify = true)
      (chip : t.chip = s.chip) (block : t.block = { s.block with pending := false })
  | rst (turn : eventTurn .rst s = true) (din : t.chip.din = s.chip.din)

theorem step_detector {s t : State} (h : step s = .next t) : DetectorCase s t := by
  cases step_kind h with
  | drive v _ eq => subst eq; exact .seen (chipDrive_edgeSeen v _).of_takeEvent
  | ready w _ eq => subst eq; exact .seen (chipReady_edgeSeen w _).of_takeEvent
  | stretch us _ _ eq => subst eq; exact .seen (stretchClock_edgeSeen us _).of_takeEvent
  | rst turn eq => subst eq; exact .rst turn (by simp)
  | command i acc out =>
    cases out with
    | clrint unit => exact .clrint acc unit rfl rfl
    | _ => exact .seen (.refl rfl ⟨rfl, rfl⟩)
  | illegal _ _ eq => subst eq; exact .seen (.refl rfl ⟨rfl, rfl⟩)
  | data _ out => exact .seen out.line.edgeSeen.of_takeEvent
  | ctrl _ out => exact .seen out.line.edgeSeen.of_takeEvent
  | complete _ _ _ eq => subst eq; exact .seen (.refl (by simp) (by simp))
  | host _ frame =>
    exact .seen (.refl (by rw [frame.chip]; rfl) (by rw [frame.block]; exact ⟨rfl, rfl⟩))

/-- An event that leaves DIN at its level is no change (R99). -/
theorem chipDrive_same (s : State) : chipDrive s.chip.din s = s := by
  have hfall : (!busy s && s.chip.din && !s.chip.din) = false := by simp [Bool.and_assoc]
  rw [chipDrive, hfall, driveDin_same]
  simp

/-- A rise of DIN by an event of the chip is written to DIN_PREV and to nothing else of the block. -/
theorem chipDrive_rise {s : State} (hu : s.cfg.hasEdgeNotify = true)
    (hf : dinForcedHigh s = false) (hd : s.chip.din = false) :
    (chipDrive true s).block = { s.block with dinPrev := true } ∧
      (chipDrive true s).chip.din = true := by
  have hd' : (chipDrive true s).chip.din = true := chipDrive_din hf
  have hedge := chipDrive_edgeSeen true s
  have hprev := hedge.moved hu (by simp [hd, hd'])
  have hpend : (chipDrive true s).block.pending = s.block.pending := by simpa [hd] using hedge.pending
  refine ⟨?_, hd'⟩
  rw [(chipDrive_move true s).block, hprev, hd', hpend]

/-- Settles O38: by the writers of the detector's registers. -/
theorem onlyFallingEdgesAreSeen : Obligations.OnlyFallingEdgesAreSeen := by
  refine ⟨fun s turn => ?_, ?_, ?_, ?_, fun s turn hu hf hd =>
    ⟨_, step_drive turn, chipDrive_rise (s := takeEvent s) hu hf hd⟩⟩
  · rw [step_drive turn]
    exact congrArg _ (chipDrive_same (takeEvent s))
  · intro s t h hrst hd
    cases step_detector h with
    | seen edge => exact (edge.still hd).imp_right .inl
    | clrint acc _ _ block => exact ⟨by rw [block], .inr acc⟩
    | rst turn => rw [turn] at hrst; cases hrst
  · intro s t h hu hd hd'
    have hne : t.chip.din ≠ s.chip.din := by simp [hd, hd']
    cases step_detector h with
    | seen edge =>
      exact ⟨(edge.moved hu hne).trans hd', by simpa [hd] using edge.pending⟩
    | clrint _ _ chip => exact absurd (by rw [chip]) hne
    | rst _ din => exact absurd din hne
  · intro s t h hrst hu
    cases step_detector h with
    | seen edge => exact edge.noUnit hu
    | clrint _ unit => rw [hu] at unit; cases unit
    | rst turn => rw [turn] at hrst; cases hrst

end Sys2Proof.Machine
end

