-- ==== Sys2Proof/Proofs/HostCalls.lean ====
section
/-! SUPPORT. The calls of a host program that need no command or one (45_host_facade.md R109, R120 to R130;
30_encoding.md R78): the step that starts the call, and the step that takes the response. -/

namespace Sys2Proof.Machine

open Sys2Proof.Safety

/-! ### Starting a call -/

/-- Where the foreground's next statement is a call, its step starts that call (R46). -/
theorem step_call {s : State} {c : HostCall} (ht : foregroundTurn s = true)
    (hf : s.host.fg = .idle) (hc : nextCall s = some c) :
    step s = startCall c (passCall (takeEvent s)) := by
  have hp : s.cfg.program[s.host.pc]? = some (.call c) := by
    unfold nextCall at hc
    split at hc <;> cases hc
    assumption
  rw [step_program ht hf, programStep, takeEvent_cfg, takeEvent_host, hp]

/-- A procedure that returns to a foreground at rest leaves its result. -/
theorem finish_idle (r : HostResult) {s : State} (hf : s.host.fg = .idle) :
    finish r s = { s with host.result := some r } := by
  rw [finish, ← hf]

/-- A call that touches only the host's own state is over in the step that starts it. -/
theorem step_accessor {s u : State} {c : HostCall} {r : HostResult} (ht : foregroundTurn s = true)
    (hf : s.host.fg = .idle) (hc : nextCall s = some c)
    (hstart : startCall c (passCall (takeEvent s)) = .next (finish r u)) (hu : u.host.fg = .idle) :
    step s = .next { u with host.result := some r } := by
  rw [step_call ht hf hc, hstart, finish_idle r hu]

/-- With the unit an interrupt procedure issues its command (R126 to R128). -/
theorem edgeProcedure_unit (i : Instr) {s : State} (hu : s.cfg.hasEdgeNotify = true) :
    edgeProcedure i s = .next (issue i .awaitUnit s) := if_pos hu

/-- Without the unit it is refused (assumption log 25). -/
theorem edgeProcedure_noUnit (i : Instr) {s : State} (hu : s.cfg.hasEdgeNotify = false) :
    edgeProcedure i s = .refused .noSuchProcedure := by
  rw [edgeProcedure, hu]; rfl

/-! ### Taking a response -/

/-- Where the foreground is in a critical section and the response is there, its step takes it. -/
theorem step_takes_response {s : State} {r : Response} (ht : foregroundTurn s = true)
    (hr : s.chan.response = some r) (ha : awaiting s.host.fg = true) :
    step s = takeResponse r (takeEvent s) := by
  have hon : onResponse (takeEvent s) (fun r => takeResponse r (takeEvent s)) =
      takeResponse r (takeEvent s) := by rw [onResponse, takeEvent_chan, hr]
  rw [step_foreground s ht, ← hon, foregroundStep, takeEvent_host]
  cases hf : s.host.fg with
  | idle | scale | poll | tarePoll | tareSample | tareStore | tareRestore =>
    rw [hf] at ha; cases ha
  | _ => rfl

/-- GETGAIN's answer names the mode whose code it is (R63, R71). -/
theorem gainOfCode_answer (m : GainMode) :
    gainOfCode (((gainCode m).setWidth 32 : Word32).setWidth 2) = some m := by
  cases m <;> rfl

theorem isReadyValue_iff (r : Response) : isReadyValue r = true ↔ r.value = 1#32 := beq_iff_eq

/-- Settles O56: by the calls, and by the points at which a response is awaited. -/
theorem accessorsAndCommandCalls : Obligations.AccessorsAndCommandCalls := by
  refine ⟨fun s c ht hf hc => ?_, fun s c w p ht hf hc hcase => ?_, fun s c ht hf hc hu hcase => ?_,
    fun s ht hf hc => step_call ht hf hc, fun s ht hf => ?_, fun s r ht hr hf hv => ?_,
    fun s r x ht hr hcase => ?_⟩
  · refine ⟨?_, ?_, ?_, ?_, ?_⟩
    · rintro x rfl; exact step_accessor ht hf hc rfl hf
    · rintro rfl; exact step_accessor ht hf hc rfl hf
    · rintro o rfl; exact step_accessor ht hf hc rfl hf
    · rintro rfl; exact step_accessor ht hf hc rfl hf
    · rintro rfl; exact step_accessor ht hf hc rfl hf
  · have hcall := step_call ht hf hc
    rcases hcase with ⟨rfl, rfl, rfl⟩ | ⟨rfl, rfl, rfl⟩ | ⟨rfl, rfl⟩ | ⟨m, rfl, rfl, rfl⟩ |
      ⟨rfl, rfl, rfl⟩ | ⟨hu, rfl, rfl, rfl⟩ | ⟨hu, rfl, rfl, rfl⟩ | ⟨hu, rfl, rfl, rfl⟩
    · exact hcall
    · exact hcall
    · exact hcall
    · rw [← encode_setgain]; exact hcall
    · exact hcall
    · exact hcall.trans (edgeProcedure_unit .listen hu)
    · exact hcall.trans (edgeProcedure_unit .unlisten hu)
    · exact hcall.trans (edgeProcedure_unit .clrint hu)
  · rw [step_call ht hf hc]
    rcases hcase with rfl | rfl | rfl <;> exact edgeProcedure_noUnit _ hu
  · rw [step_foreground s ht, foregroundStep, takeEvent_host, hf]
    rfl
  · have hv' : ¬ isReadyValue r = true := mt (isReadyValue_iff r).mp hv
    rw [step_takes_response ht hr (by rw [hf]; rfl), takeResponse, takeEvent_host, hf]
    dsimp only
    rw [if_neg hv']
    rfl
  · have htake := step_takes_response ht hr
    rcases hcase with ⟨hf, rfl⟩ | ⟨hf, rfl⟩ | ⟨hf, hv, rfl⟩ | ⟨hf, rfl⟩ | ⟨hf, rfl⟩ |
      ⟨hf, m, hv, rfl⟩ <;> rw [htake (by rw [hf]; rfl), takeResponse, takeEvent_host, hf]
    · rfl
    · rfl
    · dsimp only
      rw [if_pos ((isReadyValue_iff r).mpr hv)]
      rfl
    · rfl
    · rfl
    · dsimp only
      rw [hv, gainOfCode_answer]
      rfl

end Sys2Proof.Machine
end

