-- ==== Sys2Proof/Proofs/Engine.lean ====
section
/-! SUPPORT. The protocol engine step by step: RDY and GETGAIN (40_protocol_engine.md R80, R90), the block
after a whole pulse of either kind (R84 to R86), and the block after a failed one (60_exceptions.md R136). -/

namespace Sys2Proof.Machine

open Sys2Proof.Safety

/-! ### RDY and GETGAIN -/

/-- RDY answers whether DIN reads low (R80). -/
theorem exec_rdy_holds {s : State} (h : pinFails s = false) :
    exec .rdy s = .next (respondOk (zextBit (!s.chip.din)) (popPin s)) := by
  rw [exec, execRdy, pinReadDin_ok s h]

/-- RDY whose read of DIN fails is a PinFault (R136). -/
theorem exec_rdy_fails {s : State} (h : pinFails s = true) :
    exec .rdy s = .next (failedSample s) := by
  rw [exec, execRdy, pinReadDin, if_pos h]
  rfl

theorem zextBit_not (d : Bool) : zextBit (!d) = if d then 0#32 else 1#32 := by
  cases d <;> rfl

/-- Settles O12: RDY by the outcome of its one pin primitive. -/
theorem rdyReportsReadiness : Obligations.RdyReportsReadiness := by
  refine ⟨fun _ => rfl, fun s h => ?_, fun s h => ?_⟩ <;> rw [pinsHold_one] at h
  · rw [exec_rdy_holds (by simpa using h), zextBit_not]
    rfl
  · exact exec_rdy_fails (by simpa using h)

/-- The zero extension of GAIN puts zeros above it (R71). -/
theorem zextGain_eq_append (g : BitVec 2) : zextGain g = 0#30 ++ g :=
  BitVec.setWidth_eq_append (by decide)

/-- Settles O16: GETGAIN answers the extension of GAIN, and writes the response only. -/
theorem getgainReturnsGain : Obligations.GetgainReturnsGain := by
  refine ⟨fun _ => rfl, fun s => ?_⟩
  rw [← zextGain_eq_append]
  rfl

/-! ### Whole pulses -/

/-- The block after a whole data pulse, STEP as the table of R84 says. -/
theorem dataNext_block (s : State) :
    (dataNext s).block =
      { s.block with
        clk := false
        shift := shiftIn s.block.shift (dataNext s).chip.din
        phase := if s.block.cnt.toNat < 23 then .reading else .gainPulsing
        cnt := if s.block.cnt.toNat < 23 then s.block.cnt + 1#5 else 0#5
        pending := (dataNext s).block.pending
        dinPrev := (dataNext s).block.dinPrev } := by
  by_cases hc : s.block.cnt.toNat < 23
  · obtain ⟨hphase, hcnt⟩ := dataNext_step_lt hc
    ext1 <;> simp [hphase, hcnt, hc] <;> simp [dataNext]
  · obtain ⟨hphase, hcnt⟩ := dataNext_step_last hc
    ext1 <;> simp [hphase, hcnt, hc] <;> simp [dataNext]

/-- Settles O22: the step is a whole data pulse. -/
theorem dataPulseShiftsOneBit : Obligations.DataPulseShiftsOneBit := by
  intro s hm hp hc hpins
  have turn : dataTurn s = true := (dataTurn_iff s).mpr ⟨hm, hp, hc⟩
  have hkeep : PulseKeeps (takeEvent s) (dataNext (takeEvent s)) :=
    (DataOutcome.whole (s := takeEvent s) hpins).keeps
  refine ⟨_, step_data_whole turn hpins, dataNext_block _, hkeep.chan, hkeep.host, hkeep.cfg,
    ?_, ?_, ?_⟩
  · simp [dataNext]
  · simp [dataNext]
  · simp

/-- A control pulse that is not stretched past T_PD_US leaves CLK low, is counted by the block and by the
chip, and changes nothing else (R86). -/
theorem ctrlNext_short {s : State} (hp : s.block.phase = .gainPulsing)
    (hshort : highTime s ≤ s.cfg.tPdUs) :
    ctrlNext s =
      { s with
        block.clk := false
        block.cnt := s.block.cnt + 1#5
        chip.pulses := s.chip.pulses + 1
        pins := s.pins.drop 2
        stretch := 0 } := by
  have hpins : s.pins.tail.tail = s.pins.drop 2 := by
    rw [← List.drop_one, ← List.drop_one, List.drop_drop]
  rw [ctrlNext, wholeCtrlPulse_short s hshort, ← hpins, afterCtrl, ← hp]
  rfl

/-- Settles O25: the step is a whole control pulse, whose high phase is quiet. -/
theorem controlPulseDropsTheSample : Obligations.ControlPulseDropsTheSample := by
  intro s hm hp hc hpins hshort
  have turn : ctrlTurn s = true := (ctrlTurn_iff s).mpr ⟨hm, hp, hc⟩
  rw [step_ctrl_whole turn hpins, ctrlNext_short (s := takeEvent s) hp hshort]
  rfl

/-! ### Failed pulses -/

/-- Where primitive `k` is the first to fail, the next `n` hold exactly when `n ≤ k`. -/
theorem pinsHold_iff_le {k : Nat} {s : State} (h : failsAt k s = true) (n : Nat) :
    pinsHold n s = true ↔ n ≤ k := by
  simp only [failsAt, Bool.and_eq_true] at h
  obtain ⟨hbefore, hk⟩ := h
  refine ⟨fun hn => ?_, fun hle => pinsHold_le hle hbefore⟩
  by_contra hlt
  have hnext : pinsHold (k + 1) s = true := pinsHold_le (by omega) hn
  rw [pinsHold, List.take_add_one, List.all_append, Bool.and_eq_true] at hnext
  cases hq : s.pins[k]? with
  | none => rw [hq] at hk; cases hk
  | some b =>
    rw [hq] at hk hnext
    obtain rfl : b = true := hk
    simp at hnext

theorem pinsHold_eq_false_iff {k : Nat} {s : State} (h : failsAt k s = true) (n : Nat) :
    pinsHold n s = false ↔ k < n := by
  rw [← Bool.not_eq_true, pinsHold_iff_le h, not_le]

/-- The first primitive that fails in a data pulse says what the pulse comes to. -/
theorem DataOutcome.of_failsAt {s t : State} {k : Nat} (h : DataOutcome s t) (hk : k < 3)
    (hf : failsAt k s = true) :
    (k = 0 ∧ t = failedClkWrite s) ∨ (k = 1 ∧ t = failedSample (midPulse s)) ∨
    (k = 2 ∧ t = failedClkWrite (popPin (midPulse s))) := by
  have holds := pinsHold_iff_le hf
  have fails := pinsHold_eq_false_iff hf
  cases h with
  | risingFails h1 => exact .inl ⟨by have := (fails 1).mp h1; omega, rfl⟩
  | sampleFails h1 h2 =>
    exact .inr (.inl ⟨by have := (holds 1).mp h1; have := (fails 2).mp h2; omega, rfl⟩)
  | fallingFails h2 h3 =>
    exact .inr (.inr ⟨by have := (holds 2).mp h2; omega, rfl⟩)
  | whole h3 => exact absurd ((holds 3).mp h3) (by omega)

/-- The first primitive that fails in a control pulse says what the pulse comes to. -/
theorem CtrlOutcome.of_failsAt {s t : State} {k : Nat} (h : CtrlOutcome s t) (hk : k < 2)
    (hf : failsAt k s = true) :
    (k = 0 ∧ t = failedClkWrite s) ∨ (k = 1 ∧ t = failedClkWrite (midCtrl s)) := by
  have holds := pinsHold_iff_le hf
  have fails := pinsHold_eq_false_iff hf
  cases h with
  | risingFails h1 => exact .inl ⟨by have := (fails 1).mp h1; omega, rfl⟩
  | fallingFails h1 h2 => exact .inr ⟨by have := (holds 1).mp h1; omega, rfl⟩
  | whole h2 => exact absurd ((holds 2).mp h2) (by omega)

/-- In a control pulse DIN does not fall, so that PENDING is kept (R86, R99). -/
theorem midCtrl_pending (s : State) : (midCtrl s).block.pending = s.block.pending := by
  rcases Nat.lt_or_ge s.cfg.tPdUs (highTime s) with h | h
  · rw [midCtrl_long s h]
    have hmove := (powerDown_move (risen s)).pending
    simpa [risen] using hmove
  · rw [midCtrl_short s h]
    rfl

/-- A failed write leaves CLK a draw made in it, whatever was drawn before (R136). -/
theorem failedClkWrite_clk {s m : State} (h : s.draws ≤ m.draws) :
    ∃ n, s.draws ≤ n ∧ n < (failedClkWrite m).draws ∧
      (failedClkWrite m).block.clk = Config.drawBit n :=
  ⟨m.draws, h, Nat.lt_succ_self _, rfl⟩

/-- A PinFault in a data pulse writes FAULT and its record, and what the pulse had come to of CLK and of
the detector's registers; STEP, SHIFT and the rest are kept (R136). -/
theorem DataOutcome.failed_block {s t : State} {k : Nat} (h : DataOutcome s t) (hk : k < 3)
    (hf : failsAt k s = true) :
    t.block =
      { s.block with
        clk := t.block.clk
        pending := t.block.pending
        dinPrev := t.block.dinPrev
        fault := true
        faultInfo :=
          some { pin := if k = 1 then .din else .clk
                 phase := s.block.phase
                 cnt := s.block.cnt } } := by
  rcases h.of_failsAt hk hf with ⟨rfl, rfl⟩ | ⟨rfl, rfl⟩ | ⟨rfl, rfl⟩
  · rfl
  · ext1 <;> simp [failedSample, midPulse]
  · ext1 <;> simp [failedClkWrite, midPulse]

/-- A PinFault in a control pulse keeps PENDING as well. -/
theorem CtrlOutcome.failed_block {s t : State} {k : Nat} (h : CtrlOutcome s t) (hk : k < 2)
    (hf : failsAt k s = true) :
    t.block =
      { s.block with
        clk := t.block.clk
        dinPrev := t.block.dinPrev
        fault := true
        faultInfo := some { pin := .clk, phase := s.block.phase, cnt := s.block.cnt } } := by
  rcases h.of_failsAt hk hf with ⟨rfl, rfl⟩ | ⟨rfl, rfl⟩
  · rfl
  · have hpending := midCtrl_pending s
    rw [midCtrl] at hpending
    ext1 <;> simp [failedClkWrite, midCtrl, hpending]

/-- CLK is high where the sample failed, since the pulse is then in its high phase. -/
theorem failedSample_midPulse_clk (s : State) : (failedSample (midPulse s)).block.clk = true := by
  rw [failedSample, pinFault_block, popPin_block, (midPulse_highPhase s).move.block]
  rfl

/-- An accepted RDY whose read of DIN fails is a PinFault, from the state in which the word is taken. -/
theorem step_rdy_fails {s : State} (acc : accepts s .rdy = true) (hp : pinsHold 1 s = false) :
    step s = .next (failedSample (acceptCommand (takeEvent s))) := by
  rw [pinsHold_one, Bool.not_eq_false'] at hp
  exact (step_accepts acc).trans (exec_rdy_fails hp)

/-- A step that tries a failing primitive leaves no response behind: one in a READ had none, and the
acceptance of RDY has cleared the last one. -/
theorem response_none_of_pinFailureTurn {s t : State} (h : step s = .next t)
    (hfail : pinFailureTurn s = true) (ha : answerLegal s = true) : t.chan.response = none := by
  have hread : microTurn s = true → s.chan.response = none := fun hm =>
    (answerLegal_iff s).mp ha ((busy_iff s).mp (microTurn_parts hm).2.2)
  simp only [pinFailureTurn, Bool.or_eq_true, Bool.and_eq_true, Bool.not_eq_true'] at hfail
  rcases hfail with (⟨turn, -⟩ | ⟨turn, -⟩) | ⟨acc, hp⟩
  · obtain ⟨u, hu, out⟩ := step_data turn
    cases h.symm.trans hu
    rw [out.keeps.chan]
    exact hread ((dataTurn_iff s).mp turn).1
  · obtain ⟨u, hu, out⟩ := step_ctrl turn
    cases h.symm.trans hu
    rw [out.keeps.chan]
    exact hread ((ctrlTurn_iff s).mp turn).1
  · cases h.symm.trans (step_rdy_fails acc hp)
    rfl

/-- Settles O27: by the first primitive that fails, and by what sets FAULT. -/
theorem pinFaultStopsTheBlock : Obligations.PinFaultStopsTheBlock := by
  refine ⟨fun s k turn hk hf => ?_, fun s k turn hk hf => ?_, fun s acc hf => ?_,
    fun s t h hs ht ha => ?_⟩
  · obtain ⟨t, ht, out⟩ := step_data turn
    have hblock := out.failed_block hk hf
    have hline := fun hd => (out.line.edgeSeen.of_takeEvent.still hd).symm
    have hchan := out.keeps.chan
    have hhost := out.keeps.host
    refine ⟨t, ht, hblock, ?_⟩
    rcases out.of_failsAt hk hf with ⟨rfl, rfl⟩ | ⟨rfl, rfl⟩ | ⟨rfl, rfl⟩
    · exact ⟨nofun, fun _ => failedClkWrite_clk le_rfl, fun _ => rfl, hline, hchan, hhost⟩
    · exact ⟨fun _ => failedSample_midPulse_clk _, fun hne => absurd rfl hne, nofun, hline, hchan,
        hhost⟩
    · have hdraws := (midPulse_highPhase (takeEvent s)).draws_le
      exact ⟨nofun, fun _ => failedClkWrite_clk hdraws, nofun, hline, hchan, hhost⟩
  · obtain ⟨t, ht, out⟩ := step_ctrl turn
    have hblock := out.failed_block hk hf
    have hline := fun hd => (out.line.edgeSeen.of_takeEvent.still hd).1
    have hchan := out.keeps.chan
    have hhost := out.keeps.host
    refine ⟨t, ht, hblock, ?_⟩
    rcases out.of_failsAt hk hf with ⟨rfl, rfl⟩ | ⟨rfl, rfl⟩
    · exact ⟨failedClkWrite_clk le_rfl, fun _ => rfl, hline, hchan, hhost⟩
    · have hdraws := (midCtrl_highPhase (takeEvent s)).draws_le
      exact ⟨failedClkWrite_clk hdraws, nofun, hline, hchan, hhost⟩
  · have hp : pinsHold 1 s = false := (pinsHold_eq_false_iff hf 1).mpr Nat.one_pos
    exact ⟨_, step_rdy_fails acc hp, rfl, rfl, rfl, rfl⟩
  · rcases step_fault_cases h with ⟨-, hf⟩ | hf | ⟨-, -, hfail⟩
    · rw [hf] at ht; cases ht
    · rw [hf, hs] at ht; cases ht
    · exact response_none_of_pinFailureTurn h hfail ha

end Sys2Proof.Machine
end

