-- ==== Sys2Proof/Proofs/WideningValue.lean ====
section
/-! SUPPORT. The laws of widening (40_protocol_engine.md R93), which are those of the two's complement value
of the raw word. -/

namespace Sys2Proof.Machine

/-- Two's complement: the word as a number, less 2^24 where bit 23 is set. -/
theorem widen_eq_toNat_sub (raw : Raw24) :
    widen raw = (raw.toNat : Int) - (if raw.getLsbD 23 then 16777216 else 0) := by
  rw [widen_eq_toInt, BitVec.toInt_eq_msb_cond, BitVec.msb_eq_getLsbD_last]
  cases raw.getLsbD 23 <;> simp

/-- Bit 23 is the sign. -/
theorem widen_neg_iff (raw : Raw24) : widen raw < 0 ↔ raw.getLsbD 23 = true := by
  have hsign : raw.getLsbD 23 = decide (raw.toInt < 0) :=
    (BitVec.msb_eq_getLsbD_last raw).symm.trans BitVec.msb_eq_toInt
  rw [widen_eq_toInt, hsign, decide_eq_true_eq]

theorem widen_eq_toInt_sext24 (raw : Raw24) : widen raw = (sext24 raw).toInt := by
  rw [widen_eq_toInt, sext24_eq_signExtend, BitVec.toInt_signExtend_of_le (by decide)]

/-- Settles O31: widening is the two's complement value of the word. -/
theorem wideningLaws : Obligations.WideningLaws := by
  refine ⟨fun raw => ⟨?_, ?_, widen_neg_iff raw, widen_eq_toNat_sub raw, widen_eq_toInt_sext24 raw, ?_⟩,
    fun a b h => ?_⟩
  · rw [widen_eq_toInt]; exact raw.le_toInt
  · rw [widen_eq_toInt]; exact Int.le_sub_one_of_lt raw.toInt_lt
  · have hlt := raw.isLt
    rw [widen_eq_toNat_sub]
    split <;> omega
  · rw [widen_eq_toInt, widen_eq_toInt] at h
    exact BitVec.eq_of_toInt_eq h

end Sys2Proof.Machine
end

