-- ==== Sys2Proof/Proofs/ReadSequence.lean ====
section
/-! SUPPORT. READ as one sequence (40_protocol_engine.md R82) against its micro-steps (R84), whatever its
pins and its stretched pulses do: each loop of the sequence by induction on the pulses it still owes. -/

namespace Sys2Proof.Machine

open Sys2Proof.Safety

/-! ### A READ that runs on -/

/-- With no event between its pulses the READ presented in `s` has come to the STEP `(p, k)` in `u`, by its acceptance and `n` whole pulses. -/
structure RunsOn (s : State) (p : Phase) (k n : Nat) (u : State) : Prop where
  run : Reaches (n + 1) s u
  legal : u.cfg.legal = true
  quiet : u.sched = []
  pins : u.pins ⊆ s.pins
  fault : u.block.fault = false
  gain : u.block.gain = s.block.gain
  phase : u.block.phase = p
  cnt : u.block.cnt.toNat = k
  pulses : u.chip.pulses = n

/-- The sequence ends in a state of which `P` holds, or where one of the pins of `s` fails, in a state that
the micro-steps reach too, within `m` steps from `s`. -/
inductive EndsAs (s : State) (m : Nat) (P : State → Prop) : Except State State → Prop
  | ok (v : State) (post : P v) : EndsAs s m P (.ok v)
  | error (e : State) (k : Nat) (le : k ≤ m) (run : Reaches k s e) (fails : true ∈ s.pins) :
      EndsAs s m P (.error e)

section
variable {s u : State} {p : Phase} {k n : Nat} (h : RunsOn s p k n u)
include h

theorem RunsOn.microTurn (hb : p ≠ .idle) : Safety.microTurn u = true := by
  simp [Safety.microTurn, agentsTurn, busy, h.legal, h.quiet, h.fault, h.phase, hb]

theorem RunsOn.takeEvent_eq : takeEvent u = u := takeEvent_nil u h.quiet

/-- A pulse in which a primitive fails ends the sequence and the run alike. -/
theorem RunsOn.ends_failed {e : State} {m : Nat} {P : State → Prop} (he : step u = .next e)
    (hf : PulseFailed u e) (hm : n + 2 ≤ m) : EndsAs s m P (.error e) :=
  .error e (n + 2) hm (h.run.snoc he) (h.pins hf.failed)

end

/-! ### Pulse by pulse -/

section
variable {s u : State} {k n : Nat}

/-- A data pulse of the sequence is the micro-step that owes it. -/
theorem RunsOn.dataPulse_cases (h : RunsOn s .reading k n u) (hk : k < 24) :
    (∃ e, dataPulse u = .error e ∧ step u = .next e ∧ PulseFailed u e) ∨
    (dataPulse u = .ok ((wholeDataPulse u).chip.din, wholeDataPulse u) ∧
      step u = .next (dataNext u)) := by
  have hc : u.block.cnt.toNat < dataPulses := by rw [h.cnt]; exact hk
  rw [step_reading (h.microTurn (by decide)) h.phase, h.takeEvent_eq, dataStep, if_pos hc]
  rcases Machine.dataPulse_cases u with ⟨e, he, hf⟩ | hok
  · exact .inl ⟨e, he, by rw [he], hf⟩
  · exact .inr ⟨hok, by rw [hok]; rfl⟩

/-- A control pulse of the sequence is the micro-step that owes it. -/
theorem RunsOn.ctrlPulse_cases (h : RunsOn s .gainPulsing k n u) (hk : k < pulseCount s.block.gain) :
    (∃ e, ctrlPulse u = .error e ∧ step u = .next e ∧ PulseFailed u e) ∨
    (ctrlPulse u = .ok (wholeCtrlPulse u) ∧ step u = .next (ctrlNext u)) := by
  have hc : u.block.cnt.toNat < pulseCount u.block.gain := by rw [h.cnt, h.gain]; exact hk
  rw [step_gainPulsing (h.microTurn (by decide)) h.phase, h.takeEvent_eq, ctrlStep, if_pos hc]
  rcases Machine.ctrlPulse_cases u with ⟨e, he, hf⟩ | hok
  · exact .inl ⟨e, he, by rw [he], hf⟩
  · exact .inr ⟨hok, by rw [hok]; rfl⟩

/-- A whole data pulse goes on with the READ, STEP being as the table of R84 says. -/
theorem RunsOn.of_dataPulse {p : Phase} {k' : Nat} (h : RunsOn s .reading k n u)
    (ht : step u = .next (dataNext u)) (hp : (dataNext u).block.phase = p)
    (hc : (dataNext u).block.cnt.toNat = k') : RunsOn s p k' (n + 1) (dataNext u) where
  run := h.run.snoc ht
  legal := by simpa [dataNext] using h.legal
  quiet := by simpa [dataNext] using h.quiet
  pins := by simpa [dataNext] using List.Subset.trans (List.drop_subset 3 u.pins) h.pins
  fault := by simpa [dataNext] using h.fault
  gain := by simpa [dataNext] using h.gain
  phase := hp
  cnt := hc
  pulses := by simp [h.pulses]

theorem RunsOn.dataNext (h : RunsOn s .reading k n u) (ht : step u = .next (dataNext u))
    (hk : k < 23) : RunsOn s .reading (k + 1) (n + 1) (dataNext u) := by
  have hcnt := h.cnt
  obtain ⟨hp, hc⟩ := dataNext_step_lt (s := u) (by omega)
  refine h.of_dataPulse ht hp ?_
  rw [hc, BitVec.toNat_add, BitVec.toNat_ofNat]
  omega

theorem RunsOn.dataNext_last (h : RunsOn s .reading 23 n u)
    (ht : step u = .next (Machine.dataNext u)) :
    RunsOn s .gainPulsing 0 (n + 1) (Machine.dataNext u) := by
  have hcnt := h.cnt
  obtain ⟨hp, hc⟩ := dataNext_step_last (s := u) (by omega)
  exact h.of_dataPulse ht hp (by rw [hc]; rfl)

theorem RunsOn.ctrlNext (h : RunsOn s .gainPulsing k n u) (ht : step u = .next (ctrlNext u))
    (hk : k < pulseCount s.block.gain) : RunsOn s .gainPulsing (k + 1) (n + 1) (ctrlNext u) where
  run := h.run.snoc ht
  legal := by simpa [Machine.ctrlNext] using h.legal
  quiet := by simpa [Machine.ctrlNext] using h.quiet
  pins := by simpa [Machine.ctrlNext] using List.Subset.trans (List.drop_subset 2 u.pins) h.pins
  fault := by simpa [Machine.ctrlNext] using h.fault
  gain := by simpa [Machine.ctrlNext] using h.gain
  phase := rfl
  cnt := by
    have hgain : s.block.gain.toNat < 4 := s.block.gain.isLt
    rw [pulseCount] at hk
    simp only [Machine.ctrlNext, afterCtrl_block, wholeCtrlPulse_block_cnt, BitVec.toNat_add,
      BitVec.toNat_ofNat, h.cnt]
    omega
  pulses := by simp [Machine.ctrlNext, h.pulses]

end

/-! ### The loops -/

section
variable {s u : State} {k : Nat}

/-- The data pulses still owed lead to the first control pulse, or to a PinFault. -/
theorem dataPulseLoop_ends (n : Nat) (h : RunsOn s .reading k k u) (hk : k + n = 23) :
    EndsAs s 25 (RunsOn s .gainPulsing 0 24) (dataPulseLoop (n + 1) u) := by
  induction n generalizing k u with
  | zero =>
    obtain rfl : k = 23 := hk
    rw [dataPulseLoop]
    rcases h.dataPulse_cases (by omega) with ⟨e, he, hstep, hf⟩ | ⟨hok, hstep⟩
    · rw [he]
      exact h.ends_failed hstep hf (by omega)
    · rw [hok]
      exact .ok _ (h.dataNext_last hstep)
  | succ n ih =>
    rw [dataPulseLoop]
    rcases h.dataPulse_cases (by omega) with ⟨e, he, hstep, hf⟩ | ⟨hok, hstep⟩
    · rw [he]
      exact h.ends_failed hstep hf (by omega)
    · rw [hok]
      exact ih (h.dataNext hstep (by omega)) (by omega)

/-- The control pulses still owed lead to the completion, or to a PinFault. -/
theorem ctrlPulseLoop_ends (n : Nat) (h : RunsOn s .gainPulsing k (24 + k) u)
    (hk : k + n = pulseCount s.block.gain) :
    EndsAs s (25 + pulseCount s.block.gain)
      (RunsOn s .gainPulsing (pulseCount s.block.gain) (24 + pulseCount s.block.gain))
      (ctrlPulseLoop n u) := by
  induction n generalizing k u with
  | zero =>
    obtain rfl : k = pulseCount s.block.gain := hk
    exact .ok u h
  | succ n ih =>
    rw [ctrlPulseLoop]
    rcases h.ctrlPulse_cases (by omega) with ⟨e, he, hstep, hf⟩ | ⟨hok, hstep⟩
    · rw [he]
      exact h.ends_failed hstep hf (by omega)
    · rw [hok]
      exact ih (h.ctrlNext hstep (by omega)) (by omega)

end

/-! ### The whole sequence -/

section
variable {s : State} (hc : s.cfg.legal = true) (hq : s.sched = []) (hw : presents s 0x20#8 = true)
include hc hq hw

/-- The acceptance of READ is the sequence's first step (R81). -/
theorem beginRead_runsOn : RunsOn s .reading 0 0 (beginRead (acceptCommand s)) := by
  have ha : agentsTurn s = true := by simp [agentsTurn, hc, hq]
  have hstep : step s = .next (beginRead (acceptCommand s)) := by
    rw [step_accepts (accepts_of_decode ha hw (i := .read) rfl), takeEvent_nil s hq]
    rfl
  have hnf : s.block.fault = false := (canAccept_parts (presents_parts hw).1).2
  exact {
    run := .snoc (.zero s) hstep, legal := hc, quiet := hq, pins := List.Subset.refl _, fault := hnf
    gain := rfl, phase := rfl, cnt := rfl, pulses := rfl }

/-- The sequence ends in the completion of a READ whose whole frame has run, or in a PinFault. -/
theorem readSequence_ends :
    EndsAs s (25 + pulseCount s.block.gain)
      (fun t => ∃ v, t = completeRead v ∧
        RunsOn s .gainPulsing (pulseCount s.block.gain) (24 + pulseCount s.block.gain) v)
      (readSequence (acceptCommand s)) := by
  have hdata := dataPulseLoop_ends 23 (beginRead_runsOn hc hq hw) rfl
  rw [readSequence, dataPulses, acceptCommand_block]
  generalize dataPulseLoop 24 (beginRead (acceptCommand s)) = r at hdata
  cases hdata with
  | error e k le run fails => exact .error e k (by omega) run fails
  | ok u hu =>
    have hctrl := ctrlPulseLoop_ends _ hu (Nat.zero_add _)
    dsimp only
    generalize ctrlPulseLoop (pulseCount s.block.gain) u = r at hctrl
    cases hctrl with
    | error e k le run fails => exact .error e k le run fails
    | ok v hv => exact .ok _ ⟨v, rfl, hv⟩

end

/-- After its last pulse the READ completes in the next step, the last of a READ's steps (R88). -/
theorem RunsOn.completes {s v : State}
    (h : RunsOn s .gainPulsing (pulseCount s.block.gain) (24 + pulseCount s.block.gain) v) :
    Reaches (readSteps s.block.gain) s (completeRead v) := by
  have hn : readSteps s.block.gain = 24 + pulseCount s.block.gain + 1 + 1 := rfl
  have hstep := step_complete (h.microTurn (by decide)) h.phase (by rw [h.cnt, h.gain])
  rw [h.takeEvent_eq] at hstep
  exact hn ▸ h.run.snoc hstep

/-- Settles O28: by how the sequence can end. -/
theorem microStepsRefineTheWholeRead : Obligations.MicroStepsRefineTheWholeRead := by
  intro s hc hq hw
  have hends := readSequence_ends hc hq hw
  refine ⟨fun t ht => ?_, fun e he => ?_⟩
  · rw [ht] at hends
    cases hends with
    | ok _ post =>
      obtain ⟨v, rfl, hv⟩ := post
      exact hv.completes
  · rw [he] at hends
    cases hends with
    | error _ k le run _ =>
      have hn : readSteps s.block.gain = 24 + pulseCount s.block.gain + 2 := rfl
      exact ⟨k, by omega, run⟩

/-- Settles O30: with no failing pin in the script the sequence can end in its completion only. -/
theorem everyReadRunsItsWholeFrame : Obligations.EveryReadRunsItsWholeFrame := by
  intro s hc hq hp hw
  have hends := readSequence_ends hc hq hw
  generalize readSequence (acceptCommand s) = r at hends
  cases hends with
  | error _ _ _ _ fails => rw [hp] at fails; cases fails
  | ok _ post =>
    obtain ⟨v, rfl, hv⟩ := post
    exact ⟨_, hv.completes, by simp, by simp [hv.fault], by simp [hv.pulses, pulseCount],
      by simp [pattern], by simp [hv.gain]⟩

end Sys2Proof.Machine
end

