-- ==== Sys2Proof/Proofs/EdgeNotify.lean ====
section
/-! SUPPORT. The edge-notify unit (41_edge_notify.md R100 to R107): its four commands, what a fall of DIN
leaves in PENDING in whichever step DIN falls, and what moves IRQ. -/

namespace Sys2Proof.Machine

open Sys2Proof.Safety

/-! ### IRQ -/

theorem irq_eq (s : State) :
    irq s = (s.cfg.hasEdgeNotify && (s.block.listen && s.block.pending)) := by
  rw [irq, listenBit, pendingBit]
  cases s.cfg.hasEdgeNotify <;> rfl

/-- IRQ is a function of LISTEN and PENDING where the unit is present (R32). -/
theorem irq_congr {s t : State} (hc : t.cfg = s.cfg) (hl : t.block.listen = s.block.listen)
    (hp : t.block.pending = s.block.pending) : irq t = irq s := by
  rw [irq_eq, irq_eq, hc, hl, hp]

theorem irq_of_listen_false {s : State} (hl : s.block.listen = false) : irq s = false := by
  simp [irq_eq, hl]

theorem irq_of_pending_false {s : State} (hp : s.block.pending = false) : irq s = false := by
  simp [irq_eq, hp]

/-- With a subscription IRQ shows PENDING (R32). -/
theorem irq_listening {s : State} (hu : s.cfg.hasEdgeNotify = true) (hl : s.block.listen = true) :
    irq s = s.block.pending := by
  simp [irq_eq, hu, hl]

/-! ### The four commands -/

/-- Where the unit is present, an edge-notify command has its effect (R75). -/
theorem withUnit_present {s : State} (hu : s.cfg.hasEdgeNotify = true) (t : State) :
    withUnit s t = .next t := if_pos hu

/-- Settles O17: LISTEN with the unit, after which IRQ shows PENDING. -/
theorem listenSubscribes : Obligations.ListenSubscribes :=
  ⟨rfl, decode_edgeWord (by decide), fun _ hu =>
    ⟨_, withUnit_present hu _, rfl, irq_listening hu rfl⟩⟩

/-- Settles O18: UNLISTEN with the unit, after which LISTEN holds IRQ at 0. -/
theorem unlistenEndsTheSubscription : Obligations.UnlistenEndsTheSubscription :=
  ⟨rfl, decode_edgeWord (by decide), fun _ hu =>
    ⟨_, withUnit_present hu _, rfl, irq_of_listen_false rfl⟩⟩

/-- Settles O19: CLRINT with the unit, after which PENDING holds IRQ at 0. -/
theorem clrintClearsPending : Obligations.ClrintClearsPending :=
  ⟨rfl, decode_edgeWord (by decide), fun _ hu =>
    ⟨_, withUnit_present hu _, rfl, irq_of_pending_false rfl⟩⟩

/-- Settles O20: ISLISTENING with the unit writes the response only. -/
theorem islisteningReportsListen : Obligations.IslisteningReportsListen :=
  ⟨rfl, decode_edgeWord (by decide), fun _ hu => withUnit_present hu _⟩

/-! ### A fall of DIN -/

/-- DIN falls from `s` to `t`, and the detector of a present unit has seen it high (R99). -/
structure SeenFall (s t : State) : Prop where
  unit : s.cfg.hasEdgeNotify = true
  prev : s.block.dinPrev = true
  high : s.chip.din = true
  low : t.chip.din = false

/-- What PENDING is in `t` after a fall of DIN since `s`: set while listening (R100), and otherwise what
it was or a draw made on the way from `s` to `t` (R101). -/
inductive FallPending (s t : State) : Prop
  | listening (on : s.block.listen = true) (set : t.block.pending = true)
  | drawn (off : s.block.listen = false) (n : Nat) (fresh : s.draws ≤ n) (spent : n < t.draws)
      (eq : t.block.pending = (s.block.pending || Config.drawBit n))

/-- If DIN falls from `s` to `t` before the detector's eyes, PENDING is what R100 and R101 say. -/
def LatchesFall (s t : State) : Prop := SeenFall s t → FallPending s t

/-- Where DIN keeps its level it does not fall. -/
theorem LatchesFall.of_still {s t : State} (hd : t.chip.din = s.chip.din) : LatchesFall s t := fun f =>
  absurd (f.low.symm.trans (hd.trans f.high)) Bool.false_ne_true

/-- Where DIN ends high it did not fall. -/
theorem LatchesFall.of_high {s t : State} (hd : t.chip.din = true) : LatchesFall s t := fun f =>
  absurd (f.low.symm.trans hd) Bool.false_ne_true

/-- What happens before DIN moves may make draws, but touches none of what the detector works on. -/
theorem LatchesFall.of_before {s u t : State} (h : LatchesFall u t) (hc : u.cfg = s.cfg)
    (hd : u.chip.din = s.chip.din) (hp : u.block.dinPrev = s.block.dinPrev)
    (hq : u.block.pending = s.block.pending) (hl : u.block.listen = s.block.listen)
    (hn : s.draws ≤ u.draws) : LatchesFall s t := fun ⟨unit, prev, high, low⟩ => by
  cases h ⟨hc ▸ unit, hp.trans prev, hd.trans high, low⟩ with
  | listening on set => exact .listening (hl.symm.trans on) set
  | drawn off n fresh spent eq =>
    exact .drawn (hl.symm.trans off) n (hn.trans fresh) spent (hq ▸ eq)

/-- What happens after DIN has moved may make draws, but leaves the line as it is. -/
theorem LatchesFall.of_sameLine {s m t : State} (h : LatchesFall s m) (hl : SameLine m t)
    (hn : m.draws ≤ t.draws) : LatchesFall s t := fun ⟨unit, prev, high, low⟩ => by
  cases h ⟨unit, prev, high, hl.din.symm.trans low⟩ with
  | listening on set => exact .listening on (hl.pending.trans set)
  | drawn off n fresh spent eq => exact .drawn off n fresh (spent.trans_le hn) (hl.pending.trans eq)

/-- A fall while not listening spends the draw it makes (R101). -/
theorem driveDin_fall_draws {s : State} (hu : s.cfg.hasEdgeNotify = true)
    (hp : s.block.dinPrev = true) (hd : s.chip.din = true) (hl : s.block.listen = false) :
    (driveDin false s).draws = s.draws + 1 := by
  simp [driveDin, edgeDetect, edgeStep, fallingEdge, hu, hp, hd, hl]

theorem driveDin_latchesFall (v : Bool) (s : State) : LatchesFall s (driveDin v s) := by
  rintro ⟨hu, hp, hd, hlow⟩
  obtain rfl : v = false := by rwa [driveDin_din] at hlow
  have hpend := driveDin_pending false s
  cases hl : s.block.listen with
  | true => exact .listening hl (by simp [hpend, hu, hp, hd, hl])
  | false =>
    exact .drawn hl s.draws le_rfl (by rw [driveDin_fall_draws hu hp hd hl]; exact Nat.lt_succ_self _)
      (by simp [hpend, hu, hp, hd, hl])

/-! ### The chip's events and the pulses -/

theorem chipDrive_latchesFall (v : Bool) (s : State) : LatchesFall s (chipDrive v s) := by
  rcases chipDrive_cases v s with ⟨-, h⟩ | ⟨-, -, h⟩ | ⟨-, -, h⟩ <;> rw [h]
  · exact .of_still rfl
  · exact (driveDin_latchesFall v (latchDraw s)).of_before rfl rfl rfl rfl rfl (Nat.le_succ _)
  · exact driveDin_latchesFall v s

theorem chipReady_latchesFall (w : Raw24) (s : State) : LatchesFall s (chipReady w s) := by
  rcases chipReady_cases w s with ⟨-, h⟩ | ⟨-, h⟩ <;> rw [h]
  · exact .of_still rfl
  · exact (driveDin_latchesFall false (latch w s)).of_before rfl rfl rfl rfl rfl le_rfl

/-- A stretch can only raise DIN, by a power-down (R38). -/
theorem stretchClock_latchesFall (us : Nat) (s : State) : LatchesFall s (stretchClock us s) := by
  rcases stretchClock_cases us s with ⟨-, -, h⟩ | ⟨-, h⟩ <;> rw [h]
  · exact .of_high (powerDown_din _)
  · exact .of_still rfl

theorem HighPhase.latchesFall {s m : State} (h : HighPhase s m) : LatchesFall s m := by
  cases h with
  | poweredDown => exact .of_high (powerDown_din _)
  | quiet => exact .of_still rfl
  | bit _ v u hu =>
    obtain rfl | rfl := hu
    · exact (driveDin_latchesFall v (risen s)).of_before rfl rfl rfl rfl rfl le_rfl
    · exact (driveDin_latchesFall v (spendDraw (risen s))).of_before rfl rfl rfl rfl rfl (Nat.le_succ _)

theorem DataOutcome.latchesFall {s t : State} (h : DataOutcome s t) : LatchesFall s t := by
  have hmid : LatchesFall s (midPulse s) := (midPulse_highPhase s).latchesFall
  cases h with
  | risingFails => exact .of_still rfl
  | sampleFails => exact hmid.of_sameLine (failedSample_sameLine _) le_rfl
  | fallingFails =>
    exact hmid.of_sameLine ((popPin_sameLine _).trans (failedClkWrite_sameLine _)) (Nat.le_succ _)
  | whole =>
    exact hmid.of_sameLine ((wholeDataPulse_sameLine s).trans (dataNext_sameLine s))
      (dataNext_draws s).ge

theorem CtrlOutcome.latchesFall {s t : State} (h : CtrlOutcome s t) : LatchesFall s t := by
  have hmid : LatchesFall s (midCtrl s) := (midCtrl_highPhase s).latchesFall
  cases h with
  | risingFails => exact .of_still rfl
  | fallingFails => exact hmid.of_sameLine (failedClkWrite_sameLine _) (Nat.le_succ _)
  | whole => exact hmid.of_sameLine (ctrlNext_sameLine s) le_rfl

/-! ### Every step -/

theorem LatchesFall.of_takeEvent {s t : State} (h : LatchesFall (takeEvent s) t) : LatchesFall s t :=
  h.of_before rfl rfl rfl rfl rfl le_rfl

theorem step_latchesFall {s t : State} (h : step s = .next t) : LatchesFall s t := by
  cases step_kind h with
  | drive v _ eq => subst eq; exact (chipDrive_latchesFall v _).of_takeEvent
  | ready w _ eq => subst eq; exact (chipReady_latchesFall w _).of_takeEvent
  | stretch us _ _ eq => subst eq; exact (stretchClock_latchesFall us _).of_takeEvent
  | rst _ eq => subst eq; exact .of_still (by simp)
  | command i _ out => cases out <;> exact .of_still rfl
  | illegal _ _ eq => subst eq; exact .of_still rfl
  | data _ out => exact out.latchesFall.of_takeEvent
  | ctrl _ out => exact out.latchesFall.of_takeEvent
  | complete _ _ _ eq => subst eq; exact .of_still (by simp)
  | host _ frame => exact .of_still (by rw [frame.chip]; rfl)

/-- A step in which DIN falls is one the detector sees, so DIN_PREV follows (R99). -/
theorem step_fall_dinPrev {s t : State} (h : step s = .next t) (f : SeenFall s t) :
    t.block.dinPrev = false := by
  have hne : t.chip.din ≠ s.chip.din := by simp [f.high, f.low]
  cases step_detector h with
  | seen edge => exact (edge.moved f.unit hne).trans f.low
  | clrint _ _ chip => exact absurd (by rw [chip]) hne
  | rst _ din => exact absurd din hne

/-- An event of the chip that lowers DIN does it in one step, and moves nothing but the line (R35, R36). -/
theorem step_fall_event {s : State} {e : Event} (he : e = .drive false ∨ ∃ w, e = .ready w)
    (turn : eventTurn e s = true) (hf : dinForcedHigh s = false) :
    ∃ t, step s = .next t ∧ DinMove s t ∧ t.chip.din = false ∧ t.chan = s.chan ∧ t.host = s.host := by
  have hf' : dinForcedHigh (takeEvent s) = false := hf
  obtain rfl | ⟨w, rfl⟩ := he
  · exact ⟨_, step_drive turn, (chipDrive_move false _).of_takeEvent, chipDrive_din hf', by simp, by simp⟩
  · have hlow : (chipReady w (takeEvent s)).chip.din = false := by
      rw [chipReady_of_not_forced hf', driveDin_din]
    exact ⟨_, step_ready turn, (chipReady_move w _).of_takeEvent, hlow, by simp, by simp⟩

/-- In every step with a fall while listening PENDING is set (R100). -/
theorem step_fall_listening {s t : State} (h : step s = .next t) (f : SeenFall s t)
    (hl : s.block.listen = true) : t.block.pending = true := by
  cases step_latchesFall h f with
  | listening _ set => exact set
  | drawn off => rw [hl] at off; cases off

/-- In every step with a fall while not listening PENDING stays, or is a draw of the step (R101). -/
theorem step_fall_unlistened {s t : State} (h : step s = .next t) (f : SeenFall s t)
    (hl : s.block.listen = false) :
    ∃ n, s.draws ≤ n ∧ n < t.draws ∧ t.block.pending = (s.block.pending || Config.drawBit n) := by
  cases step_latchesFall h f with
  | listening on => rw [hl] at on; cases on
  | drawn _ n fresh spent eq => exact ⟨n, fresh, spent, eq⟩

/-- Settles O36: what a fall latches, in every step and in the events that make DIN fall. -/
theorem fallingEdgeSetsPending : Obligations.FallingEdgeSetsPending := by
  refine ⟨fun s t h hu hl hp hd hlow => ?_, fun s e he turn hf hu hl hp hd => ?_⟩
  · have f : SeenFall s t := ⟨hu, hp, hd, hlow⟩
    exact ⟨step_fall_listening h f hl, step_fall_dinPrev h f⟩
  · obtain ⟨t, h, move, hlow, hchan, hhost⟩ := step_fall_event he turn hf
    have f : SeenFall s t := ⟨hu, hp, hd, hlow⟩
    refine ⟨t, h, ?_, hlow, hchan, hhost⟩
    rw [move.block, step_fall_listening h f hl, step_fall_dinPrev h f]

/-- Settles O37: what a fall draws, in every step and in the events that make DIN fall. -/
theorem unlistenedEdgeIsADraw : Obligations.UnlistenedEdgeIsADraw := by
  refine ⟨fun s t h hu hl hp hd hlow => ?_, fun s e he turn hf hu _ hp hd => ?_⟩
  · have f : SeenFall s t := ⟨hu, hp, hd, hlow⟩
    exact ⟨step_fall_dinPrev h f, step_fall_unlistened h f hl⟩
  · obtain ⟨t, h, move, hlow, -, -⟩ := step_fall_event he turn hf
    have hprev := step_fall_dinPrev h ⟨hu, hp, hd, hlow⟩
    exact ⟨t, h, hlow, hprev ▸ move.block⟩

/-! ### What moves IRQ -/

theorem step_rst {s : State} (h : eventTurn .rst s = true) :
    step s = .next (resetMachine (takeEvent s)) := by
  rw [step, nextMove_event h]; rfl

/-- What a step does to IRQ: nothing; or it becomes LISTEN at a fall of DIN that sets PENDING, PENDING
at a LISTEN command, and 0 at CLRINT, UNLISTEN or reset (R107). -/
inductive IrqCase (s t : State) : Prop
  | kept (eq : irq t = irq s)
  | fall (high : s.chip.din = true) (low : t.chip.din = false) (was : s.block.pending = false)
      (eq : irq t = listenBit s)
  | listen (acc : accepts s .listen = true) (eq : irq t = pendingBit s)
  | cleared (cause : accepts s .clrint = true ∨ accepts s .unlisten = true ∨
      eventTurn .rst s = true)
      (eq : irq t = false)

/-- Where only the edge detector writes, IRQ moves with a PENDING that it sets. -/
theorem OnlyEdges.irqCase {s t : State} (h : OnlyEdges s t) (hc : t.cfg = s.cfg) : IrqCase s t := by
  rcases h.pending with hsame | ⟨high, low, set⟩
  · exact .kept (irq_congr hc h.listen hsame)
  · cases hp : s.block.pending with
    | true => exact .kept (irq_congr hc h.listen (set.trans hp.symm))
    | false => exact .fall high low hp (by simp [irq_eq, listenBit, hc, h.listen, set])

theorem step_irq {s t : State} (h : step s = .next t) : IrqCase s t := by
  have hc : t.cfg = s.cfg := step_cfg h
  cases hrst : eventTurn .rst s with
  | true =>
    cases h.symm.trans (step_rst hrst)
    exact .cleared (.inr (.inr hrst)) (irq_of_listen_false rfl)
  | false =>
    cases step_writes h hrst with
    | edges only => exact only.irqCase hc
    | gain _ _ eq | result _ eq => exact .kept (irq_congr hc (by rw [eq]) (by rw [eq]))
    | listen acc eq => exact .listen acc (by simp [irq_eq, pendingBit, hc, eq])
    | unlisten acc eq => exact .cleared (.inr (.inl acc)) (irq_of_listen_false (by rw [eq]))
    | clrint acc eq => exact .cleared (.inl acc) (irq_of_pending_false (by rw [eq]))

/-- Settles O39: both laws are read off what a step does to IRQ. -/
theorem irqLaws : Obligations.IrqLaws := by
  refine ⟨fun s t h hs ht => ?_, fun s t h hs ht => ?_⟩
  · cases step_irq h with
    | kept eq => rw [eq, hs] at ht; cases ht
    | fall high low was eq =>
      rw [eq, listenBit, Bool.and_eq_true] at ht
      exact .inl ⟨high, low, ht.2, was⟩
    | listen acc eq =>
      rw [eq, pendingBit, Bool.and_eq_true] at ht
      exact .inr ⟨acc, ht.2⟩
    | cleared _ eq => rw [eq] at ht; cases ht
  · cases step_irq h with
    | kept eq => rw [eq, hs] at ht; cases ht
    | fall _ _ was => rw [irq_of_pending_false was] at hs; cases hs
    | listen _ eq =>
      rw [irq, Bool.and_eq_true] at hs
      rw [eq, hs.2] at ht; cases ht
    | cleared cause _ => exact cause

end Sys2Proof.Machine
end

