-- ==== Sys2Proof/Proofs/TareSuspended.lean ====
section
/-! SUPPORT. `tare` samples with LISTEN = 0 (45_host_facade.md R117; 70_reset_and_hazards.md R169): where
the foreground can stand in `tare`, and that every kind of step leaves it lawfully there. -/

namespace Sys2Proof.Machine

open Sys2Proof.Safety

/-! ### The host's turn -/

/-- In the host's turn the step is the host's. -/
theorem step_host {s : State} (h : hostTurn s = true) :
    step s = hostStep (s.sched.head? == some .foreground) (takeEvent s) := by
  obtain ⟨ha, hp, hf, hc⟩ := hostTurn_parts h
  simp only [step, nextMove_agents s ha, agentMove, takeEvent_block, takeEvent_chan, hf, hp, hc]
  rfl

/-- In the agents' turn a legal command's word before a block that can accept it is accepted. -/
theorem accepts_of_cmd {s : State} {i : Instr} (ha : agentsTurn s = true)
    (hcan : canAccept s = true) (hc : s.chan.cmd = some (encode i))
    (hl : i.legal s.cfg.hasEdgeNotify = true) : accepts s i = true := by
  simp [accepts, presents, ha, hcan, hc, hl]

/-- A dispatch needs IRQ and a foreground outside its critical sections (R142). -/
theorem dispatchEnabled_iff (s : State) : dispatchEnabled s = true ↔
    irq s = true ∧ s.host.inCs = false ∧ s.host.inHandler = false := by
  simp [dispatchEnabled, and_assoc]

/-! ### Where the foreground stands -/

/-- Where the foreground stands with respect to `tare`, and what `tareLegal` says of the machine then. -/
inductive TarePlace (s : State) : Prop
  | query (n : Nat) (fg : s.host.fg = .awaitTareQuery n) (unit : s.cfg.hasEdgeNotify = true)
      (idle : s.block.phase = .idle)
      (chan : (s.chan.cmd = some (encode .islistening) ∧ s.chan.response = none) ∨
        (s.chan.cmd = none ∧ ∀ r, s.chan.response = some r → r.value = zextBit s.block.listen))
  | unlisten (n : Nat) (fg : s.host.fg = .awaitTareUnlisten n) (unit : s.cfg.hasEdgeNotify = true)
      (idle : s.block.phase = .idle)
      (chan : (s.chan.cmd = some (encode .unlisten) ∧ s.chan.response = none) ∨
        (s.chan.cmd = none ∧ s.block.listen = false))
  | sampling (fg : tareSampling s.host.fg = true) (quiet : s.block.listen = false)
      (handler : s.host.inHandler = false)
      (chan : s.chan.cmd = none ∨ s.chan.cmd = some (encode .rdy) ∨
        s.chan.cmd = some (encode .read))
  | away (fg : tareSampling s.host.fg = false) (query : ∀ n, s.host.fg ≠ .awaitTareQuery n)
      (unlisten : ∀ n, s.host.fg ≠ .awaitTareUnlisten n)

theorem TarePlace.away_idle {s : State} (h : s.host.fg = .idle) : TarePlace s :=
  .away (by rw [h]; rfl) (by simp [h]) (by simp [h])

theorem busy_eq_false_iff (s : State) : busy s = false ↔ s.block.phase = .idle := by
  rw [← Bool.not_eq_true, busy_iff, not_not]

theorem tareLegal_query {s : State} {n : Nat} (h : s.host.fg = .awaitTareQuery n) :
    tareLegal s = true ↔ s.cfg.hasEdgeNotify = true ∧ s.block.phase = .idle ∧
      ((s.chan.cmd = some (encode .islistening) ∧ s.chan.response = none) ∨
        (s.chan.cmd = none ∧ ∀ r, s.chan.response = some r → r.value = zextBit s.block.listen)) := by
  simp only [tareLegal, h, Bool.and_eq_true, Bool.or_eq_true, Bool.not_eq_true', beq_iff_eq,
    Option.isNone_iff_eq_none, busy_eq_false_iff, and_assoc]
  cases s.chan.response <;> simp

theorem tareLegal_unlisten {s : State} {n : Nat} (h : s.host.fg = .awaitTareUnlisten n) :
    tareLegal s = true ↔ s.cfg.hasEdgeNotify = true ∧ s.block.phase = .idle ∧
      ((s.chan.cmd = some (encode .unlisten) ∧ s.chan.response = none) ∨
        (s.chan.cmd = none ∧ s.block.listen = false)) := by
  simp only [tareLegal, h, Bool.and_eq_true, Bool.or_eq_true, Bool.not_eq_true', beq_iff_eq,
    Option.isNone_iff_eq_none, busy_eq_false_iff, and_assoc]

/-- Outside the two answers `tare` waits for, only its sampling asks for something. -/
theorem tareLegal_elsewhere {s : State} (hq : ∀ n, s.host.fg ≠ .awaitTareQuery n)
    (hu : ∀ n, s.host.fg ≠ .awaitTareUnlisten n) :
    tareLegal s = if tareSampling s.host.fg then !s.block.listen && quietChannel s else true := by
  unfold tareLegal
  cases hf : s.host.fg with
  | awaitTareQuery n => exact absurd hf (hq n)
  | awaitTareUnlisten n => exact absurd hf (hu n)
  | _ => rfl

theorem quietChannel_iff (s : State) : quietChannel s = true ↔ s.host.inHandler = false ∧
    (s.chan.cmd = none ∨ s.chan.cmd = some (encode .rdy) ∨ s.chan.cmd = some (encode .read)) := by
  simp [quietChannel, or_assoc]

/-- The sampling points are no points of the two answers `tare` waits for. -/
theorem tareSampling_ne {p : FgPoint} (h : tareSampling p = true) (n : Nat) :
    p ≠ .awaitTareQuery n ∧ p ≠ .awaitTareUnlisten n := by
  refine ⟨?_, ?_⟩ <;> rintro rfl <;> cases h

theorem tareLegal_iff (s : State) : tareLegal s = true ↔ TarePlace s := by
  constructor
  · intro h
    by_cases hq : ∃ n, s.host.fg = .awaitTareQuery n
    · obtain ⟨n, hf⟩ := hq
      obtain ⟨unit, idle, chan⟩ := (tareLegal_query hf).mp h
      exact .query n hf unit idle chan
    by_cases hu : ∃ n, s.host.fg = .awaitTareUnlisten n
    · obtain ⟨n, hf⟩ := hu
      obtain ⟨unit, idle, chan⟩ := (tareLegal_unlisten hf).mp h
      exact .unlisten n hf unit idle chan
    rw [not_exists] at hq hu
    rw [tareLegal_elsewhere hq hu] at h
    cases hs : tareSampling s.host.fg with
    | false => exact .away hs hq hu
    | true =>
      rw [hs, if_pos rfl, Bool.and_eq_true, Bool.not_eq_true', quietChannel_iff] at h
      exact .sampling hs h.1 h.2.1 h.2.2
  · rintro (⟨n, hf, unit, idle, chan⟩ | ⟨n, hf, unit, idle, chan⟩ | ⟨hs, quiet, handler, chan⟩ |
      ⟨hs, hq, hu⟩)
    · exact (tareLegal_query hf).mpr ⟨unit, idle, chan⟩
    · exact (tareLegal_unlisten hf).mpr ⟨unit, idle, chan⟩
    · rw [tareLegal_elsewhere (fun n => (tareSampling_ne hs n).1) (fun n => (tareSampling_ne hs n).2),
        hs, if_pos rfl, Bool.and_eq_true, Bool.not_eq_true', quietChannel_iff]
      exact ⟨quiet, handler, chan⟩
    · rw [tareLegal_elsewhere hq hu, hs]
      rfl

/-! ### The block and the chip -/

/-- A step that touches neither the host nor the channel, nor LISTEN and PHASE, leaves `tare` as it is. -/
theorem TarePlace.of_still {s t : State} (h : TarePlace s) (hcfg : t.cfg = s.cfg)
    (hhost : t.host = s.host) (hchan : t.chan = s.chan) (hl : t.block.listen = s.block.listen)
    (hp : t.block.phase = s.block.phase) : TarePlace t := by
  rw [← tareLegal_iff] at h ⊢
  simpa only [tareLegal, quietChannel, busy, hcfg, hhost, hchan, hl, hp] using h

/-- While a READ runs `tare` is in its sampling, or the foreground is elsewhere; a micro-step that keeps
LISTEN, the word on CMD and the host leaves it there. -/
theorem TarePlace.of_busy {s t : State} (h : TarePlace s) (hb : s.block.phase ≠ .idle)
    (hhost : t.host = s.host) (hcmd : t.chan.cmd = s.chan.cmd)
    (hl : t.block.listen = s.block.listen) : TarePlace t := by
  cases h with
  | query _ _ _ idle => exact absurd idle hb
  | unlisten _ _ _ idle => exact absurd idle hb
  | sampling fg quiet handler chan =>
    exact .sampling (hhost ▸ fg) (hl.trans quiet) (hhost ▸ handler) (hcmd ▸ chan)
  | away fg query unlisten => exact .away (hhost ▸ fg) (hhost ▸ query) (hhost ▸ unlisten)

/-- The two commands that `tare` samples with leave LISTEN as it is. -/
theorem ExecCase.listen_eq {i : Instr} {s t : State} (h : ExecCase s i t)
    (hi : i = .rdy ∨ i = .read) : t.block.listen = s.block.listen := by
  cases h with
  | listen | unlisten => simp at hi
  | _ => rfl

/-- The block's acceptance of the word on CMD is no step of the host. -/
theorem step_word_host {s t : State} {w : Byte} (ha : agentsTurn s = true)
    (hp : presents s w = true) (h : step s = .next t) : t.host = s.host := by
  cases hd : decode s.cfg.hasEdgeNotify w with
  | ok i => exact (exec_case ((step_accepts (accepts_of_decode ha hp hd)).symm.trans h)).host
  | error x => cases h.symm.trans (step_illegalWord ha hp hd); rfl

/-- An accepted ISLISTENING answers LISTEN (R105). -/
theorem step_islistening {s : State} (h : accepts s .islistening = true)
    (hu : s.cfg.hasEdgeNotify = true) :
    step s = .next (respondOk (zextBit s.block.listen) (acceptCommand (takeEvent s))) :=
  (step_accepts h).trans (withUnit_present (s := acceptCommand (takeEvent s)) hu _)

/-- An accepted UNLISTEN clears LISTEN (R103). -/
theorem step_unlisten {s : State} (h : accepts s .unlisten = true)
    (hu : s.cfg.hasEdgeNotify = true) :
    step s = .next (respondOk 0#32 (setListen false (acceptCommand (takeEvent s)))) :=
  (step_accepts h).trans (withUnit_present (s := acceptCommand (takeEvent s)) hu _)

/-- The block's acceptance of the word on CMD leaves `tare` lawfully where it stands: ISLISTENING answers
LISTEN, UNLISTEN clears it, and the words of the sampling keep it. -/
theorem TarePlace.of_accept {s t : State} {w : Byte} (h : TarePlace s) (ha : agentsTurn s = true)
    (hcan : canAccept s = true) (hw : s.chan.cmd = some w) (ht : step s = .next t) :
    TarePlace t := by
  have hhost : t.host = s.host := step_word_host ha (w := w) (by simp [presents, hcan, hw]) ht
  cases h with
  | query n fg unit idle chan =>
    obtain ⟨hc, -⟩ := chan.resolve_right (by simp [hw])
    have hacc : accepts s .islistening = true := accepts_of_cmd ha hcan hc (by rw [unit]; rfl)
    cases ht.symm.trans (step_islistening hacc unit)
    exact .query n fg unit idle (.inr ⟨rfl, fun r hr => by cases hr; rfl⟩)
  | unlisten n fg unit idle chan =>
    obtain ⟨hc, -⟩ := chan.resolve_right (by simp [hw])
    have hacc : accepts s .unlisten = true := accepts_of_cmd ha hcan hc (by rw [unit]; rfl)
    cases ht.symm.trans (step_unlisten hacc unit)
    exact .unlisten n fg unit idle (.inr ⟨rfl, rfl⟩)
  | sampling fg quiet handler chan =>
    obtain ⟨i, hi, hacc⟩ : ∃ i, (i = .rdy ∨ i = .read) ∧ accepts s i = true := by
      rcases chan with hc | hc | hc
      · rw [hc] at hw; cases hw
      · exact ⟨.rdy, .inl rfl, accepts_of_cmd ha hcan hc rfl⟩
      · exact ⟨.read, .inr rfl, accepts_of_cmd ha hcan hc rfl⟩
    have out := exec_case ((step_accepts hacc).symm.trans ht)
    exact .sampling (hhost ▸ fg) ((out.listen_eq hi).trans quiet) (hhost ▸ handler) (.inl out.cmd)
  | away fg query unlisten => exact .away (hhost ▸ fg) (hhost ▸ query) (hhost ▸ unlisten)

/-! ### The host -/

/-- A waiting context stays where it is while there is no response, and takes the one there is. -/
theorem onResponse_cases {s t : State} {k : Response → Host.Outcome State Fault Refusal}
    (h : onResponse s k = .next t) : t = s ∨ ∃ r, s.chan.response = some r ∧ k r = .next t := by
  unfold onResponse at h
  split at h
  · cases h; exact .inl rfl
  · exact .inr ⟨_, ‹_›, h⟩

theorem TarePlace.sampling_parts {s : State} (h : TarePlace s)
    (hs : tareSampling s.host.fg = true) : s.block.listen = false ∧ s.host.inHandler = false := by
  cases h with
  | query n fg | unlisten n fg => rw [fg] at hs; cases hs
  | sampling _ quiet handler => exact ⟨quiet, handler⟩
  | away fg => rw [fg] at hs; cases hs

/-- The foreground can move: the block is idle, no word is presented, and no handler runs. -/
structure FgMoves (s : State) : Prop where
  idle : s.block.phase = .idle
  cmd : s.chan.cmd = none
  handler : s.host.inHandler = false
  edge : edgeLegal s = true

/-- `tare` begins its sampling at once only where there is no LISTEN to suspend (R29, R117). -/
theorem startTare_place {n : Nat} {s t : State} (hm : FgMoves s) (ht : startTare n s = .next t) :
    TarePlace t := by
  unfold startTare at ht
  split at ht
  · cases ht
  · split at ht
    · cases ht
      exact .query n rfl ‹_› hm.idle (.inl ⟨rfl, rfl⟩)
    · rename_i hu
      cases ht
      have hl := (((edgeLegal_iff s).mp hm.edge).2 (Bool.not_eq_true _ ▸ hu)).1
      exact .sampling rfl hl hm.handler (.inl hm.cmd)

theorem startCall_place {c : HostCall} {s t : State} (hm : FgMoves s) (hf : s.host.fg = .idle)
    (ht : startCall c s = .next t) : TarePlace t := by
  cases c with
  | tare n => exact startTare_place hm ht
  | enableInterrupt | disableInterrupt | clearInterrupt =>
    rw [startCall, edgeProcedure] at ht
    split at ht <;> cases ht
    exact .away rfl (by simp) (by simp)
  | _ => cases ht; exact .away (by simp [tareSampling, hf]) (by simp [hf]) (by simp [hf])

theorem programStep_place {s t : State} (hm : FgMoves s) (hf : s.host.fg = .idle)
    (ht : programStep s = .next t) : TarePlace t := by
  unfold programStep at ht
  split at ht
  · cases ht; exact .away_idle hf
  · exact startCall_place (s := passCall s) ⟨hm.idle, hm.cmd, hm.handler, hm.edge⟩ hf ht
  · cases ht; exact .away_idle hf
  · cases ht; exact .away_idle hf

/-- The answers `tare` takes: LISTEN is suspended where it was set, and stays 0 (R117). -/
theorem takeResponse_place {r : Response} {s t : State} (h : TarePlace s) (hm : FgMoves s)
    (hr : s.chan.response = some r) (ht : takeResponse r s = .next t) : TarePlace t := by
  rw [takeResponse] at ht
  cases hf : s.host.fg <;> rw [hf] at ht <;> dsimp only at ht
  case awaitTareQuery n =>
    obtain ⟨unit, idle, chan⟩ := (tareLegal_query hf).mp ((tareLegal_iff s).mpr h)
    have hv : r.value = zextBit s.block.listen := (chan.resolve_left (by simp [hr])).2 r hr
    split at ht <;> cases ht
    · exact .unlisten n rfl unit idle (.inl ⟨rfl, rfl⟩)
    · rename_i hne
      have hl : s.block.listen = false := by
        cases hl : s.block.listen with
        | false => rfl
        | true => exact absurd (by rw [hv, hl]; rfl) hne
      exact .sampling rfl hl hm.handler (.inl hm.cmd)
  case awaitTareUnlisten n =>
    obtain ⟨-, -, chan⟩ := (tareLegal_unlisten hf).mp ((tareLegal_iff s).mpr h)
    obtain ⟨-, hl⟩ := chan.resolve_left (by simp [hr])
    cases ht
    exact .sampling rfl hl hm.handler (.inl hm.cmd)
  case awaitTarePoll prior left vs =>
    obtain ⟨hl, hh⟩ := h.sampling_parts (by rw [hf]; rfl)
    split at ht <;> cases ht <;> exact .sampling rfl hl hh (.inl hm.cmd)
  case awaitTareSample prior left vs =>
    obtain ⟨hl, hh⟩ := h.sampling_parts (by rw [hf]; rfl)
    cases ht
    rw [endTareSample]
    split <;> exact .sampling rfl hl hh (.inl hm.cmd)
  case awaitReadSample scaled =>
    rw [endRead] at ht
    split at ht <;> cases ht
    cases scaled <;> exact .away rfl (by simp) (by simp)
  case awaitReadRdy scaled =>
    split at ht <;> cases ht <;> exact .away rfl (by simp) (by simp)
  case awaitPoll =>
    split at ht <;> cases ht <;> exact .away rfl (by simp) (by simp)
  case tarePoll | tareSample | tareStore | tareRestore => cases ht; exact h
  all_goals cases ht; exact .away (by simp [tareSampling, hf]) (by simp [hf]) (by simp [hf])

theorem foregroundStep_place {s t : State} (h : TarePlace s) (hm : FgMoves s)
    (ht : foregroundStep s = .next t) : TarePlace t := by
  rw [foregroundStep] at ht
  cases hf : s.host.fg <;> rw [hf] at ht <;> dsimp only at ht
  case idle => exact programStep_place hm hf ht
  case scale => cases ht; exact .away_idle rfl
  case poll => cases ht; exact .away rfl (by simp) (by simp)
  case tarePoll =>
    obtain ⟨hl, hh⟩ := h.sampling_parts (by rw [hf]; rfl)
    cases ht; exact .sampling rfl hl hh (.inr (.inl rfl))
  case tareSample =>
    obtain ⟨hl, hh⟩ := h.sampling_parts (by rw [hf]; rfl)
    cases ht; exact .sampling rfl hl hh (.inr (.inr rfl))
  case tareStore prior vs =>
    obtain ⟨hl, hh⟩ := h.sampling_parts (by rw [hf]; rfl)
    cases ht
    cases prior
    · exact .away_idle rfl
    · exact .sampling rfl hl hh (.inl hm.cmd)
  case tareRestore => cases ht; exact .away rfl (by simp) (by simp)
  all_goals
    rcases onResponse_cases ht with rfl | ⟨r, hr, htake⟩
    · exact h
    · exact takeResponse_place h hm hr htake

/-- A handler runs only while the foreground is elsewhere. -/
theorem TarePlace.of_handler {s t : State} (h : TarePlace s) (hx : contextsLegal s = true)
    (hrun : s.host.inHandler = true ∨ dispatchEnabled s = true) (hfg : t.host.fg = s.host.fg) :
    TarePlace t := by
  obtain ⟨hcs, -, hboth⟩ := (contextsLegal_iff s).mp hx
  have hout : awaiting s.host.fg = false := by
    rw [← hcs]
    rcases hrun with hh | hd
    · simpa [hh] using hboth
    · exact ((dispatchEnabled_iff s).mp hd).2.1
  cases h with
  | query n fg | unlisten n fg => rw [fg] at hout; cases hout
  | sampling fg quiet handler =>
    rcases hrun with hh | hd
    · rw [handler] at hh; cases hh
    · have hirq := ((dispatchEnabled_iff s).mp hd).1
      rw [irq_of_listen_false quiet] at hirq; cases hirq
  | away fg query unlisten => exact .away (hfg ▸ fg) (hfg ▸ query) (hfg ▸ unlisten)

theorem hostStep_place {f : Bool} {s t : State} (h : TarePlace s) (hi : inv s = true)
    (hp : s.block.phase = .idle) (hc : s.chan.cmd = none) (ht : hostStep f s = .next t) :
    TarePlace t := by
  obtain ⟨-, hline, -, hx⟩ := (inv_iff s).mp hi
  unfold hostStep at ht
  split at ht
  · rename_i hh
    exact h.of_handler hx (.inl hh)
      (handlerStep_contexts hh ((contextsLegal_iff s).mp hx).2.1 ht).fg
  · rename_i hh
    split at ht
    · rename_i hd
      cases ht
      exact h.of_handler hx (.inr (Bool.and_eq_true_iff.mp hd).1) rfl
    · exact foregroundStep_place h ⟨hp, hc, Bool.not_eq_true _ ▸ hh, hline.edge⟩ ht

/-! ### Every step -/

/-- A step of an idle block's turn is the acceptance of a word, or one of the host. -/
theorem TarePlace.of_idle_turn {s t : State} (h : TarePlace s) (hi : inv s = true)
    (ha : agentsTurn s = true) (hcan : canAccept s = true) (ht : step s = .next t) :
    TarePlace t := by
  cases hc : s.chan.cmd with
  | some w => exact h.of_accept ha hcan hc ht
  | none =>
    have turn : hostTurn s = true := by simp [hostTurn, ha, hcan, hc]
    have hplace : TarePlace (takeEvent s) := h.of_still rfl rfl rfl rfl rfl
    exact hostStep_place hplace hi (canAccept_parts hcan).1 hc ((step_host turn).symm.trans ht)

theorem step_place {s t : State} (hi : inv s = true) (h : TarePlace s) (ht : step s = .next t) :
    TarePlace t := by
  cases step_kind ht with
  | drive v _ eq => subst eq; exact h.of_still (by simp) (by simp) (by simp) (by simp) (by simp)
  | ready w _ eq => subst eq; exact h.of_still (by simp) (by simp) (by simp) (by simp) (by simp)
  | stretch us _ _ eq =>
    subst eq; exact h.of_still (by simp) (by simp) (by simp) (by simp) (by simp)
  | rst _ eq => subst eq; exact .away_idle rfl
  | command i acc _ =>
    obtain ⟨ha, hp, hf, -⟩ := accepts_parts acc
    exact h.of_idle_turn hi ha (by simp [canAccept, hp, hf]) ht
  | illegal ha hcan _ => exact h.of_idle_turn hi ha hcan ht
  | data turn out =>
    have hb := (busy_iff s).mp (microTurn_parts ((dataTurn_iff s).mp turn).1).2.2
    exact h.of_busy hb out.keeps.host (by rw [out.keeps.chan]; rfl) out.keeps.listen
  | ctrl turn out =>
    have hb := (busy_iff s).mp (microTurn_parts ((ctrlTurn_iff s).mp turn).1).2.2
    exact h.of_busy hb out.keeps.host (by rw [out.keeps.chan]; rfl) out.keeps.listen
  | complete turn _ _ eq =>
    have hb := (busy_iff s).mp (microTurn_parts turn).2.2
    subst eq
    exact h.of_busy hb (by simp) (by simp) (by simp)
  | host turn _ =>
    obtain ⟨ha, hp, hf, -⟩ := hostTurn_parts turn
    exact h.of_idle_turn hi ha (by simp [canAccept, hp, hf]) ht

/-- Settles O43: the invariant of the machine is kept by O41, and where `tare` stands by the kinds of a
step. -/
theorem stepKeepsTareSuspended : Obligations.StepKeepsTareSuspended := by
  intro s t h ht
  obtain ⟨hi, hl⟩ := Bool.and_eq_true_iff.mp h
  exact Bool.and_eq_true_iff.mpr ⟨stepKeepsTheInvariant s t hi ht,
    (tareLegal_iff t).mpr (step_place hi ((tareLegal_iff s).mp hl) ht)⟩

end Sys2Proof.Machine
end

