-- ==== Sys2Proof/Proofs/Float32.lean ====
section
/-! SUPPORT. The binary32 of `read_scaled` (45_host_facade.md R112, R113): the fields of a pattern, the
patterns of the finite numbers, and that rounding a number which has a pattern gives that pattern. -/

namespace Sys2Proof.Machine

open Sys2Proof.Safety

/-! ### The fields of a pattern -/

section
variable (s : Bool) (e f : Nat)

@[simp] theorem f32Sign_pack : f32Sign (f32Pack s e f) = s := by
  rw [f32Sign, f32Pack, BitVec.getLsbD_append, BitVec.getLsbD_append]
  simp

@[simp] theorem f32Exponent_pack : f32Exponent (f32Pack s e f) = e % 256 := by
  rw [f32Exponent, f32Pack, BitVec.extractLsb'_append_eq_of_le (by decide),
    BitVec.extractLsb'_append_eq_right, BitVec.toNat_ofNat]

@[simp] theorem f32Fraction_pack : f32Fraction (f32Pack s e f) = f % 2 ^ 23 := by
  rw [f32Fraction, f32Pack, BitVec.extractLsb'_append_eq_right, BitVec.toNat_ofNat]

end

theorem f32Fraction_lt (x : Word32) : f32Fraction x < 2 ^ 23 := (x.extractLsb' 0 23).isLt

/-- A pattern is made of its three fields. -/
theorem f32Pack_fields (x : Word32) : f32Pack (f32Sign x) (f32Exponent x) (f32Fraction x) = x := by
  have hs : BitVec.ofBool (f32Sign x) = x.extractLsb' 31 1 := by
    ext i hi
    obtain rfl : i = 0 := by omega
    simp [f32Sign]
  rw [f32Pack, f32Exponent, f32Fraction, BitVec.ofNat_toNat, BitVec.ofNat_toNat, hs,
    BitVec.setWidth_eq, BitVec.setWidth_eq,
    BitVec.extractLsb'_append_extractLsb'_eq_extractLsb' (start₂ := 31) (start₁ := 23) rfl,
    BitVec.extractLsb'_append_extractLsb'_eq_extractLsb' (start₂ := 23) (start₁ := 0) rfl,
    BitVec.extractLsb'_eq_self]

/-! ### Special values -/

theorem f32IsNaN_iff (x : Word32) :
    f32IsNaN x = true ↔ f32Exponent x = 255 ∧ f32Fraction x ≠ 0 := by simp [f32IsNaN]

theorem f32IsInf_iff (x : Word32) :
    f32IsInf x = true ↔ f32Exponent x = 255 ∧ f32Fraction x = 0 := by simp [f32IsInf]

theorem f32IsZero_iff (x : Word32) :
    f32IsZero x = true ↔ f32Exponent x = 0 ∧ f32Fraction x = 0 := by simp [f32IsZero]

theorem f32Finite_iff (x : Word32) : f32Finite x = true ↔ f32Exponent x < 255 := by simp [f32Finite]

theorem not_nan_of_finite {x : Word32} (h : f32Finite x = true) : f32IsNaN x = false := by
  rw [f32Finite_iff] at h
  rw [← Bool.not_eq_true, f32IsNaN_iff]
  omega

theorem not_inf_of_finite {x : Word32} (h : f32Finite x = true) : f32IsInf x = false := by
  rw [f32Finite_iff] at h
  rw [← Bool.not_eq_true, f32IsInf_iff]
  omega

theorem not_nan_of_inf {x : Word32} (h : f32IsInf x = true) : f32IsNaN x = false := by
  rw [f32IsInf_iff] at h
  rw [← Bool.not_eq_true, f32IsNaN_iff]
  exact fun hn => hn.2 h.2

/-- Whatever the free pattern is, the NaN made of it is one. -/
theorem f32NaN_isNaN (x y : Word32) : f32IsNaN (f32NaN x y) = true := by
  rw [f32IsNaN_iff, f32NaN, f32Exponent, f32Fraction, BitVec.extractLsb'_or, BitVec.extractLsb'_or]
  refine ⟨?_, fun h => ?_⟩
  · have hones : BitVec.extractLsb' 23 8 0x7FC00000#32 = BitVec.allOnes 8 := by decide
    rw [hones, BitVec.or_allOnes]
    rfl
  · have hbit := congrArg (fun v : BitVec 23 => v.getLsbD 22) (BitVec.eq_of_toNat_eq (y := 0#23) h)
    simp at hbit

/-- The product of a finite number that is no zero and an infinity (R113). -/
theorem f32Mul_inf {x y : Word32} (hx : f32Finite x = true) (hz : f32IsZero x = false)
    (hy : f32IsInf y = true) : f32Mul x y = f32Infinity (f32Sign x ^^ f32Sign y) := by
  simp [f32Mul, not_nan_of_finite hx, not_inf_of_finite hx, not_nan_of_inf hy, hy, hz]

theorem f32Mul_zero_inf {x y : Word32} (hx : f32Finite x = true) (hz : f32IsZero x = true)
    (hy : f32IsInf y = true) : f32Mul x y = f32NaN x y := by
  simp [f32Mul, not_nan_of_finite hx, not_inf_of_finite hx, not_nan_of_inf hy, hy, hz]

theorem f32Mul_nan {y : Word32} (x : Word32) (hy : f32IsNaN y = true) :
    f32Mul x y = f32NaN x y := by
  simp [f32Mul, hy]

/-- The product of finite numbers is their product rounded (R112). -/
theorem f32Mul_finite {x y : Word32} (hx : f32Finite x = true) (hy : f32Finite y = true) :
    f32Mul x y = f32Round (f32Sign x ^^ f32Sign y) (f32Significand x * f32Significand y)
      (f32Unit x + f32Unit y) := by
  simp [f32Mul, not_nan_of_finite hx, not_inf_of_finite hx, not_nan_of_finite hy,
    not_inf_of_finite hy]

/-! ### The finite numbers -/

/-- `k · 2^u` is how binary32 writes a finite magnitude: the significand is below 2^24, and has its top
bit unless its unit is the least one. -/
structure F32Canonical (k : Nat) (u : Int) : Prop where
  significand : k < 2 ^ 24
  least : -149 ≤ u
  greatest : u ≤ 104
  normal : 2 ^ 23 ≤ k ∨ u = -149

/-- The pattern of `± k · 2^u`. -/
def f32Encode (sign : Bool) (k : Nat) (u : Int) : Word32 :=
  if k < 2 ^ 23 then f32Pack sign 0 k else f32Pack sign (u + 150).toNat (k - 2 ^ 23)

theorem f32Canonical_of_finite {x : Word32} (h : f32Finite x = true) :
    F32Canonical (f32Significand x) (f32Unit x) := by
  rw [f32Finite_iff] at h
  have hf := f32Fraction_lt x
  unfold f32Significand f32Unit
  split <;> constructor <;> omega

/-- The pattern of a finite number's own magnitude and sign is that number. -/
theorem f32Encode_self {x : Word32} (h : f32Finite x = true) :
    f32Encode (f32Sign x) (f32Significand x) (f32Unit x) = x := by
  rw [f32Finite_iff] at h
  have hf := f32Fraction_lt x
  conv_rhs => rw [← f32Pack_fields x]
  unfold f32Encode f32Significand f32Unit
  split
  · rename_i h0
    rw [h0]
  · have he : ((f32Exponent x : Int) - 150 + 150).toNat = f32Exponent x := by omega
    rw [if_neg (by omega), he, Nat.add_sub_cancel]

section
variable {s : Bool} {k : Nat} {u : Int} (h : F32Canonical k u)
include h

theorem F32Canonical.fields : f32Significand (f32Encode s k u) = k ∧ f32Unit (f32Encode s k u) = u ∧
    f32Sign (f32Encode s k u) = s ∧ f32Finite (f32Encode s k u) = true := by
  obtain ⟨hk, hlo, hhi, hn⟩ := h
  unfold f32Encode
  split
  · have hu : u = -149 := by omega
    simp only [f32Significand, f32Unit, f32Exponent_pack, f32Fraction_pack, f32Sign_pack,
      f32Finite_iff, Nat.zero_mod, if_pos]
    exact ⟨by omega, hu.symm, trivial, by omega⟩
  · obtain ⟨e, he, hpos, hlt⟩ : ∃ e : Nat, u = e - 150 ∧ 0 < e ∧ e < 255 :=
      ⟨(u + 150).toNat, by omega, by omega, by omega⟩
    have hto : (u + 150).toNat = e := by omega
    simp only [hto, f32Significand, f32Unit, f32Exponent_pack, f32Fraction_pack, f32Sign_pack,
      f32Finite_iff, Nat.mod_eq_of_lt (show e < 256 by omega), if_neg hpos.ne']
    exact ⟨by omega, he.symm, trivial, hlt⟩

theorem F32Canonical.value :
    f32Value (f32Encode s k u) = (if s then -1 else 1) * (k : ℚ) * (2 : ℚ) ^ u := by
  obtain ⟨hk, hu, hs, -⟩ := h.fields (s := s)
  rw [f32Value, hk, hu, hs]

end

/-! ### Rounding -/

/-- The number of binary digits is the library's. -/
theorem bitLength_eq_size {fuel n : Nat} (h : n < 2 ^ fuel) : bitLength fuel n = n.size := by
  induction fuel generalizing n with
  | zero =>
    obtain rfl : n = 0 := by simpa using h
    simp [bitLength]
  | succ fuel ih =>
    rw [bitLength]
    split
    · rename_i h0; rw [h0]; rfl
    · rename_i h0
      rw [ih (by omega)]
      conv_rhs => rw [← Nat.bit_bodd_div2 n]
      rw [Nat.size_bit (by rwa [Nat.bit_bodd_div2]), Nat.div2_val]

theorem two_pow_size_le {n : Nat} (h : 0 < n) : 2 ^ (n.size - 1) ≤ n :=
  Nat.lt_size.mp (by have := Nat.size_pos.mpr h; omega)

/-- One magnitude has one place for its top bit. -/
theorem size_add_le_of_mul_zpow_eq {m k : Nat} {e u : Int} (hk : 0 < k)
    (h : (m : ℚ) * 2 ^ e = k * 2 ^ u) : (k.size : Int) + u ≤ m.size + e := by
  have hk2 : ((2 : ℚ) ^ (k.size - 1)) ≤ k := by exact_mod_cast two_pow_size_le hk
  have hm2 : (m : ℚ) < 2 ^ m.size := by exact_mod_cast Nat.lt_size_self m
  have hsize : ((k.size - 1 : Nat) : Int) = k.size - 1 := by
    have := Nat.size_pos.mpr hk; omega
  have hlt : (2 : ℚ) ^ ((k.size : Int) - 1 + u) < 2 ^ ((m.size : Int) + e) := by
    rw [zpow_add₀ two_ne_zero, zpow_add₀ two_ne_zero, ← hsize, zpow_natCast, zpow_natCast]
    calc (2 : ℚ) ^ (k.size - 1) * 2 ^ u ≤ k * 2 ^ u := by gcongr
      _ = m * 2 ^ e := h.symm
      _ < 2 ^ m.size * 2 ^ e := by gcongr
  have := (zpow_lt_zpow_iff_right₀ (one_lt_two : (1 : ℚ) < 2)).mp hlt
  omega

/-- Shifting out zeros loses nothing. -/
theorem shiftRightRne_mul_two_pow (k j : Nat) : shiftRightRne (k * 2 ^ j) j = k := by
  have hpos : 0 < 2 ^ j := Nat.two_pow_pos j
  have hmod : k * 2 ^ j % 2 ^ j = 0 := Nat.mul_mod_left k _
  have hdiv : k * 2 ^ j / 2 ^ j = k := Nat.mul_div_cancel k hpos
  rw [shiftRightRne, hmod, hdiv, if_neg (by omega), if_neg (by omega)]

/-- A magnitude of `m` units `2^e` that is `k` units `2^u` comes to `k` in those units. -/
theorem scaled_eq {m k : Nat} {e u : Int} (h : (m : ℚ) * 2 ^ e = k * 2 ^ u) :
    (if e < u then shiftRightRne m (u - e).toNat else m * 2 ^ (e - u).toNat) = k := by
  split
  · rename_i hlt
    have hm : m = k * 2 ^ (u - e).toNat := by
      have hz : (2 : ℚ) ^ u = 2 ^ (u - e).toNat * 2 ^ e := by
        rw [← zpow_natCast, ← zpow_add₀ two_ne_zero, Int.toNat_of_nonneg (by omega),
          Int.sub_add_cancel]
      rw [hz, ← mul_assoc] at h
      exact_mod_cast mul_right_cancel₀ (zpow_ne_zero e two_ne_zero) h
    rw [hm, shiftRightRne_mul_two_pow]
  · rename_i hge
    have hz : (2 : ℚ) ^ e = 2 ^ (e - u).toNat * 2 ^ u := by
      rw [← zpow_natCast, ← zpow_add₀ two_ne_zero, Int.toNat_of_nonneg (by omega),
        Int.sub_add_cancel]
    rw [hz, ← mul_assoc] at h
    exact_mod_cast mul_right_cancel₀ (zpow_ne_zero u two_ne_zero) h

theorem size_of_normal {k : Nat} (hlo : 2 ^ 23 ≤ k) (hhi : k < 2 ^ 24) : k.size = 24 :=
  le_antisymm (Nat.size_le.mpr hhi) (Nat.lt_size.mpr hlo)

/-- Rounding a number that binary32 has gives that number (R112). -/
theorem f32Round_exact (s : Bool) {m k : Nat} {e u : Int} (hm : m < 2 ^ 64) (hk : 0 < k)
    (hc : F32Canonical k u) (h : (m : ℚ) * 2 ^ e = k * 2 ^ u) :
    f32Round s m e = f32Encode s k u := by
  have hpos : 0 < m := by
    rcases Nat.eq_zero_or_pos m with rfl | hm0
    · have : (k : ℚ) * 2 ^ u ≠ 0 := by positivity
      exact absurd (by rw [← h]; simp) this
    · exact hm0
  have hle := size_add_le_of_mul_zpow_eq hk h
  have hge := size_add_le_of_mul_zpow_eq hpos h.symm
  obtain ⟨hk24, hlo, hhi, hn⟩ := hc
  have hq : max (e + (bitLength 64 m : Int) - 24) (-149) = u := by
    rw [bitLength_eq_size hm]
    rcases Nat.lt_or_ge k (2 ^ 23) with hsub | hnorm
    · have hsize : k.size ≤ 23 := Nat.size_le.mpr hsub
      omega
    · have hsize := size_of_normal hnorm hk24
      omega
  have hup : decide (k = 2 ^ 24) = false := decide_eq_false (by omega)
  have hfit : ¬ 255 ≤ u + 150 := by omega
  simp only [f32Round, hq, scaled_eq h, f32Encode, hup, Bool.false_eq_true, if_false, add_zero,
    if_neg hfit]

theorem f32Round_zero (s : Bool) (e : Int) : f32Round s 0 e = f32Pack s 0 0 := by
  have hz : ∀ q : Int,
      (if e < q then shiftRightRne 0 (q - e).toNat else 0 * 2 ^ (e - q).toNat) = 0 := fun q =>
    scaled_eq (by simp)
  simp only [f32Round, hz]
  rfl

/-! ### Integers -/

theorem natAbs_le_of_i32 (r : Word32) : r.toInt.natAbs ≤ 2 ^ 31 := by
  have h := r.toInt_lt
  have h' := r.le_toInt
  norm_num at h h'
  omega

theorem f32OfI32_zero : f32OfI32 0#32 = f32Pack false 0 0 := f32Round_zero false 0

/-- Every integer up to 2^24 is a magnitude of binary32. -/
theorem exists_canonical_of_le {n : Nat} (hpos : 0 < n) (h : n ≤ 2 ^ 24) :
    ∃ k u, 0 < k ∧ F32Canonical k u ∧ (n : ℚ) * 2 ^ (0 : Int) = k * 2 ^ u := by
  rcases Nat.lt_or_eq_of_le h with hlt | rfl
  · have hsize : n.size ≤ 24 := Nat.size_le.mpr hlt
    have hspos := Nat.size_pos.mpr hpos
    have hlo : 2 ^ (n.size - 1) * 2 ^ (24 - n.size) ≤ n * 2 ^ (24 - n.size) :=
      Nat.mul_le_mul_right _ (two_pow_size_le hpos)
    have hhi : n * 2 ^ (24 - n.size) < 2 ^ n.size * 2 ^ (24 - n.size) :=
      Nat.mul_lt_mul_of_pos_right (Nat.lt_size_self n) (Nat.two_pow_pos _)
    rw [← pow_add, show n.size - 1 + (24 - n.size) = 23 by omega] at hlo
    rw [← pow_add, show n.size + (24 - n.size) = 24 by omega] at hhi
    refine ⟨n * 2 ^ (24 - n.size), -((24 - n.size : Nat) : Int), by positivity,
      ⟨hhi, by omega, by omega, .inl hlo⟩, ?_⟩
    rw [zpow_neg, zpow_natCast, zpow_zero, mul_one]
    push_cast
    rw [mul_assoc, mul_inv_cancel₀ (by positivity), mul_one]
  · exact ⟨2 ^ 23, 1, by norm_num, ⟨by norm_num, by norm_num, by norm_num, .inl (by norm_num)⟩,
      by norm_num⟩

/-- An integer is its sign and its magnitude. -/
theorem sign_mul_natAbs (z : Int) :
    (if decide (z < 0) = true then (-1 : ℚ) else 1) * (z.natAbs : ℚ) = z := by
  rw [Nat.cast_natAbs]
  simp only [decide_eq_true_eq]
  split
  · rename_i h; rw [abs_of_neg h]; push_cast; ring
  · rename_i h; rw [abs_of_nonneg (not_lt.mp h), one_mul]

/-- Settles O34: such an integer has a pattern, and rounding gives it. -/
theorem smallIntegersConvertExactly : Obligations.SmallIntegersConvertExactly := by
  intro r hr
  rcases Nat.eq_zero_or_pos r.toInt.natAbs with h0 | hpos
  · have hz : r.toInt = 0 := Int.natAbs_eq_zero.mp h0
    obtain rfl : r = 0#32 := BitVec.eq_of_toInt_eq hz
    rw [f32OfI32_zero, hz]
    simp [f32Value, f32Significand, f32Finite_iff]
  · obtain ⟨k, u, hk, hc, heq⟩ := exists_canonical_of_le hpos hr
    have hround : f32OfI32 r = f32Encode (decide (r.toInt < 0)) k u :=
      f32Round_exact _ (by omega) hk hc heq
    rw [hround]
    refine ⟨?_, hc.fields.2.2.2⟩
    rw [hc.value, mul_assoc, ← heq, zpow_zero, mul_one, sign_mul_natAbs]

/-- In units that leave 24 digits a magnitude, rounded, has its top bit. -/
theorem two_pow_le_scaled {m : Nat} {q : Int} (hpos : 0 < m) (hq : q = m.size - 24) :
    2 ^ 23 ≤ if 0 < q then shiftRightRne m (q - 0).toNat else m * 2 ^ (0 - q).toNat := by
  have hspos := Nat.size_pos.mpr hpos
  have htop := two_pow_size_le hpos
  split
  · have hdiv : 2 ^ 23 ≤ m / 2 ^ (q - 0).toNat := by
      rw [Nat.le_div_iff_mul_le (Nat.two_pow_pos _), ← pow_add,
        show 23 + (q - 0).toNat = m.size - 1 by omega]
      exact htop
    unfold shiftRightRne
    dsimp only
    split
    · omega
    · split <;> omega
  · calc 2 ^ 23 = 2 ^ (m.size - 1) * 2 ^ (0 - q).toNat := by
          rw [← pow_add, show m.size - 1 + (0 - q).toNat = 23 by omega]
      _ ≤ m * 2 ^ (0 - q).toNat := Nat.mul_le_mul_right _ htop

/-- Rounding an i32 that is not 0 stays within the numbers with a top bit, far from an infinity. -/
theorem f32Round_i32 (s : Bool) {m : Nat} (hpos : 0 < m) (hm : m ≤ 2 ^ 31) :
    ∃ e f, 0 < e ∧ e < 255 ∧ f32Round s m 0 = f32Pack s e f := by
  have hsize : m.size ≤ 32 := Nat.size_le.mpr (by omega)
  have hspos := Nat.size_pos.mpr hpos
  obtain ⟨q, hq⟩ : ∃ q : Int, q = m.size - 24 := ⟨_, rfl⟩
  have hmax : max (0 + (bitLength 64 m : Int) - 24) (-149) = q := by
    rw [bitLength_eq_size (by omega)]
    omega
  have htop := two_pow_le_scaled hpos hq
  simp only [f32Round, hmax, if_neg (Nat.not_lt.mpr htop)]
  rw [if_neg (by split <;> omega)]
  exact ⟨_, _, by split <;> omega, by split <;> omega, rfl⟩

theorem f32OfI32_normal {r : Word32} (hr : r ≠ 0#32) :
    ∃ e f, 0 < e ∧ e < 255 ∧ f32OfI32 r = f32Pack (decide (r.toInt < 0)) e f := by
  refine f32Round_i32 _ (Int.natAbs_pos.mpr fun h => hr ?_) (natAbs_le_of_i32 r)
  exact BitVec.eq_of_toInt_eq h

/-- A converted i32 is finite, whichever it is, and a zero only if it is 0. -/
theorem f32OfI32_finite (r : Word32) : f32Finite (f32OfI32 r) = true := by
  rw [f32Finite_iff]
  rcases eq_or_ne r 0#32 with rfl | hr
  · rw [f32OfI32_zero, f32Exponent_pack]; decide
  · obtain ⟨e, f, -, hlt, heq⟩ := f32OfI32_normal hr
    rw [heq, f32Exponent_pack, Nat.mod_eq_of_lt (by omega)]
    exact hlt

theorem f32OfI32_isZero {r : Word32} (hr : r ≠ 0#32) : f32IsZero (f32OfI32 r) = false := by
  obtain ⟨e, f, hpos, hlt, heq⟩ := f32OfI32_normal hr
  rw [← Bool.not_eq_true, f32IsZero_iff, heq, f32Exponent_pack]
  omega

theorem f32OfI32_sign {r : Word32} (hr : r ≠ 0#32) :
    f32Sign (f32OfI32 r) = decide (r.toInt < 0) := by
  obtain ⟨e, f, -, -, heq⟩ := f32OfI32_normal hr
  rw [heq, f32Sign_pack]

theorem f32Infinity_eq (s : Bool) :
    f32Infinity s = if s then 0xFF800000#32 else 0x7F800000#32 := by
  cases s <;> rfl

/-- Settles O35: a converted reading is finite, and a zero only if the reading is 0. -/
theorem specialScalesFollowIeee : Obligations.SpecialScalesFollowIeee := by
  intro r x
  refine ⟨fun hx => ?_, fun hx hr => ?_, fun hx hr => ?_⟩
  · rw [f32Mul_nan _ hx]
    exact f32NaN_isNaN _ _
  · have hz : f32IsZero (f32OfI32 r) = true := by rw [hr, f32OfI32_zero]; decide
    rw [f32Mul_zero_inf (f32OfI32_finite r) hz hx]
    exact f32NaN_isNaN _ _
  · rw [f32Mul_inf (f32OfI32_finite r) (f32OfI32_isZero hr) hx, f32OfI32_sign hr, f32Infinity_eq]

/-! ### Exact products -/

/-- Numbers with one value that is not 0 have one sign and one magnitude. -/
theorem sign_mul_inj {s t : Bool} {a b : ℚ} (ha : 0 ≤ a) (hb : 0 < b)
    (h : (if s then (-1 : ℚ) else 1) * a = (if t then -1 else 1) * b) : s = t ∧ a = b := by
  cases s <;> cases t <;> simp at h
  · exact ⟨rfl, h⟩
  · linarith
  · linarith
  · exact ⟨rfl, h⟩

theorem sign_xor (s t : Bool) : (if s then (-1 : ℚ) else 1) * (if t then -1 else 1) =
    if s ^^ t then -1 else 1 := by
  cases s <;> cases t <;> norm_num

/-- The value of a product: its sign, and its magnitude in the units of the two factors. -/
theorem f32Value_mul (x y : Word32) : f32Value x * f32Value y =
    (if f32Sign x ^^ f32Sign y then (-1 : ℚ) else 1) *
      (((f32Significand x * f32Significand y : Nat) : ℚ) * 2 ^ (f32Unit x + f32Unit y)) := by
  rw [f32Value, f32Value, ← sign_xor, zpow_add₀ two_ne_zero]
  push_cast
  ring

theorem significand_mul_lt {x y : Word32} (hx : f32Finite x = true) (hy : f32Finite y = true) :
    f32Significand x * f32Significand y < 2 ^ 64 := by
  have hsx := (f32Canonical_of_finite hx).significand
  have hsy := (f32Canonical_of_finite hy).significand
  calc f32Significand x * f32Significand y ≤ 2 ^ 24 * 2 ^ 24 :=
        Nat.mul_le_mul hsx.le hsy.le
    _ < 2 ^ 64 := by norm_num

/-- A product that binary32 has is what the multiplication gives (R113). -/
theorem f32Mul_exact {x y z : Word32} (hx : f32Finite x = true) (hy : f32Finite y = true)
    (hz : f32Finite z = true) (hne : f32Value z ≠ 0) (h : f32Value x * f32Value y = f32Value z) :
    f32Mul x y = z := by
  have hk : 0 < f32Significand z := by
    rcases Nat.eq_zero_or_pos (f32Significand z) with h0 | hpos
    · exact absurd (by simp [f32Value, h0]) hne
    · exact hpos
  rw [f32Value_mul, f32Value, mul_assoc] at h
  obtain ⟨hs, hmag⟩ := sign_mul_inj (by positivity) (by positivity) h
  rw [f32Mul_finite hx hy, hs, f32Round_exact _ (significand_mul_lt hx hy) hk
    (f32Canonical_of_finite hz) hmag, f32Encode_self hz]

/-- A product that is 0 is the zero of the product's sign (R113). -/
theorem f32Mul_zero {x y : Word32} (hx : f32Finite x = true) (hy : f32Finite y = true)
    (h : f32Value x * f32Value y = 0) :
    f32Mul x y = if f32Sign x != f32Sign y then 0x80000000#32 else 0#32 := by
  have hzero : f32Significand x * f32Significand y = 0 := by
    rw [f32Value_mul] at h
    have hs : (if f32Sign x ^^ f32Sign y then (-1 : ℚ) else 1) ≠ 0 := by split <;> norm_num
    have hp : (2 : ℚ) ^ (f32Unit x + f32Unit y) ≠ 0 := zpow_ne_zero _ two_ne_zero
    exact_mod_cast (mul_eq_zero.mp ((mul_eq_zero.mp h).resolve_left hs)).resolve_right hp
  rw [f32Mul_finite hx hy, hzero, f32Round_zero]
  cases f32Sign x <;> cases f32Sign y <;> rfl

end Sys2Proof.Machine
end

