-- ==== Sys2Proof/Proofs/TareMean.lean ====
section
/-! SUPPORT. TARE_MEAN (45_host_facade.md R116): the truncated mean obeys the three laws, and every other
mean the host uses is held to them. -/

namespace Sys2Proof.Machine

open Sys2Proof.Safety

/-- The three laws of R116 for a mean `r` of the samples `v :: vs`. -/
structure MeanLaws (v : Int) (vs : List Int) (r : Int) : Prop where
  constant : (∀ x ∈ vs, x = v) → r = v
  near : (r - meanHalfUp (v :: vs)).natAbs ≤ 1 ∨ (r - meanHalfDown (v :: vs)).natAbs ≤ 1
  least : hx711Minimum ≤ r
  greatest : r ≤ hx711Maximum

/-- The checks a mean is held to are the three laws. -/
theorem meanLaws_of_checks {v : Int} {vs : List Int} {r : Int}
    (h : (constantLaw (v :: vs) r && nearLaw (v :: vs) r && rangeLaw r) = true) :
    MeanLaws v vs r := by
  simp only [constantLaw, nearLaw, rangeLaw, Bool.and_eq_true, Bool.or_eq_true, Bool.not_eq_true',
    decide_eq_true_eq, beq_iff_eq] at h
  obtain ⟨⟨hconst, hnear⟩, hlo, hhi⟩ := h
  refine ⟨fun hall => hconst.resolve_left ?_, hnear, hlo, hhi⟩
  simpa using hall

/-! ### The truncated mean -/

/-- Truncated division leaves a remainder smaller than the divisor, of either sign. -/
theorem tdiv_bounds (a : Int) {n : Int} (hn : 0 < n) :
    n * a.tdiv n - n < a ∧ a < n * a.tdiv n + n := by
  have hdiv := Int.mul_tdiv_add_tmod a n
  have hlt := Int.tmod_lt_of_pos a hn
  have hgt := Int.tmod_lt_of_pos (-a) hn
  rw [Int.neg_tmod] at hgt
  omega

/-- A truncated quotient lies between any two integers the quotient lies between. -/
theorem tdiv_mem {a n lo hi : Int} (hn : 0 < n) (hlo : n * lo ≤ a) (hhi : a ≤ n * hi)
    (h0 : lo ≤ 0) (h0' : 0 ≤ hi) : lo ≤ a.tdiv n ∧ a.tdiv n ≤ hi := by
  rcases le_total 0 a with ha | ha
  · rw [Int.tdiv_eq_ediv_of_nonneg ha]
    exact ⟨h0.trans (Int.ediv_nonneg ha hn.le), Int.ediv_le_of_le_mul hn (by rwa [mul_comm])⟩
  · have hneg : a.tdiv n = -((-a) / n) := by
      rw [← Int.tdiv_eq_ediv_of_nonneg (by omega), Int.neg_tdiv, neg_neg]
    have hle : (-a) / n ≤ -lo := Int.ediv_le_of_le_mul hn (by nlinarith)
    have hge : 0 ≤ (-a) / n := Int.ediv_nonneg (by omega) hn.le
    omega

theorem sum_bounds {lo hi : Int} {vs : List Int} (h : ∀ x ∈ vs, lo ≤ x ∧ x ≤ hi) :
    vs.length * lo ≤ vs.sum ∧ vs.sum ≤ vs.length * hi := by
  constructor
  · simpa using List.card_nsmul_le_sum vs lo fun x hx => (h x hx).1
  · simpa using List.sum_le_card_nsmul vs hi fun x hx => (h x hx).2

/-- The truncated mean is within 1 of the mean rounded with ties going up. -/
theorem truncatedMean_near (vs : List Int) (hne : vs ≠ []) :
    (truncatedMean vs - meanHalfUp vs).natAbs ≤ 1 := by
  have hn : (0 : Int) < vs.length := by exact_mod_cast List.length_pos_iff.mpr hne
  obtain ⟨hlo, hhi⟩ := tdiv_bounds vs.sum hn
  rw [truncatedMean, meanHalfUp]
  generalize vs.sum = a at *
  generalize (vs.length : Int) = n at *
  have hdiv := Int.mul_fdiv_add_fmod (2 * a + n) (2 * n)
  have hmod := Int.fmod_nonneg_of_pos (2 * a + n) (show 0 < 2 * n by omega)
  have hmod' := Int.fmod_lt_of_pos (2 * a + n) (show 0 < 2 * n by omega)
  generalize (2 * a + n).fdiv (2 * n) = q at *
  have hup : a.tdiv n - q < 2 := by
    by_contra hge
    nlinarith
  have hdown : -2 < a.tdiv n - q := by
    by_contra hge
    nlinarith
  omega

theorem truncatedMean_constant {v : Int} {vs : List Int} (h : ∀ x ∈ vs, x = v) :
    truncatedMean (v :: vs) = v := by
  have hrep : v :: vs = List.replicate (vs.length + 1) v :=
    List.eq_replicate_of_mem (by simpa using h)
  rw [truncatedMean, hrep, List.sum_replicate, List.length_replicate, nsmul_eq_mul]
  exact Int.mul_tdiv_cancel_left v (by omega)

theorem truncatedMean_laws {v : Int} {vs : List Int}
    (h : ∀ x ∈ v :: vs, hx711Minimum ≤ x ∧ x ≤ hx711Maximum) :
    MeanLaws v vs (truncatedMean (v :: vs)) := by
  obtain ⟨hlo, hhi⟩ := sum_bounds h
  obtain ⟨hmin, hmax⟩ := tdiv_mem (by simp) hlo hhi (by decide) (by decide)
  exact ⟨truncatedMean_constant, .inl (truncatedMean_near _ (by simp)), hmin, hmax⟩

/-! ### Every mean -/

theorem tareMean_laws (k : TareMeanKind) {v : Int} {vs : List Int}
    (h : ∀ x ∈ v :: vs, hx711Minimum ≤ x ∧ x ≤ hx711Maximum) :
    MeanLaws v vs (tareMean k (v :: vs)) := by
  cases k with
  | truncated => exact truncatedMean_laws h
  | anyLawful =>
    rw [tareMean]
    split
    · exact meanLaws_of_checks ‹_›
    · exact truncatedMean_laws h

/-- Settles O52: the default by its own laws, and every other mean by the checks it is held to. -/
theorem tareMeanLaws : Obligations.TareMeanLaws := by
  intro k v vs h
  obtain ⟨hconst, hnear, hlo, hhi⟩ := tareMean_laws k h
  exact ⟨hconst, hnear, hlo, hhi⟩

/-- The mean of one sample is that sample. -/
theorem tareMean_singleton (k : TareMeanKind) {v : Int} (hlo : hx711Minimum ≤ v)
    (hhi : v ≤ hx711Maximum) : tareMean k [v] = v :=
  (tareMean_laws k (by simpa using ⟨hlo, hhi⟩)).constant (by simp)

end Sys2Proof.Machine
end

