-- ==== Sys2Proof/Proofs/ReadAndTare.lean ====
section
/-! SUPPORT. The steps of `read`, `read_scaled` and `tare` (45_host_facade.md R110 to R119): what each
answer is taken to, in the foreground and in the handler. -/

namespace Sys2Proof.Machine

open Sys2Proof.Safety

/-! ### The offset -/

theorem toInt_pattern {v : Int} (hlo : -2147483648 ≤ v) (hhi : v ≤ 2147483647) :
    (pattern v).toInt = v := by
  rw [pattern, BitVec.toInt_ofInt, Int.bmod_eq_of_le] <;> omega

/-- A difference inside i32 is the corrected reading (R110). -/
theorem offsetCorrect_fits {a b : Word32} (hlo : -2147483648 ≤ a.toInt - b.toInt)
    (hhi : a.toInt - b.toInt ≤ 2147483647) :
    offsetCorrect a b = some (pattern (a.toInt - b.toInt)) :=
  if_neg (by omega)

/-- One outside i32 has none (R139). -/
theorem offsetCorrect_overflows {a b : Word32}
    (h : a.toInt - b.toInt < -2147483648 ∨ 2147483647 < a.toInt - b.toInt) :
    offsetCorrect a b = none :=
  if_pos h

theorem endRead_overflows {scaled : Bool} {r : Response} {s : State}
    (h : offsetCorrect r.value s.host.offset = none) :
    endRead scaled r s = .fault (.offsetOverflow r.value s.host.offset) := by
  rw [endRead, h]

/-- `read()` returns the corrected reading and writes LAST (R110). -/
theorem endRead_fits {r : Response} {s : State} {d : Word32}
    (h : offsetCorrect r.value s.host.offset = some d) :
    endRead false r s = .next (finish (.int d) (leaveCs { s with host.last := some d })) := by
  rw [endRead, h]; rfl

/-- `read_scaled()` goes on with the corrected reading (R112). -/
theorem endRead_scaled_fits {r : Response} {s : State} {d : Word32}
    (h : offsetCorrect r.value s.host.offset = some d) :
    endRead true r s = .next (goto (.scale d) (leaveCs { s with host.last := some d })) := by
  rw [endRead, h]; rfl

theorem handlerEndRead_overflows {r : Response} {s : State}
    (h : offsetCorrect r.value s.host.offset = none) :
    handlerEndRead r s = .fault (.offsetOverflow r.value s.host.offset) := by
  rw [handlerEndRead, h]

/-- The handler writes LAST and issues CLRINT (R129). -/
theorem handlerEndRead_fits {r : Response} {s : State} {d : Word32}
    (h : offsetCorrect r.value s.host.offset = some d) :
    handlerEndRead r s =
      .next (handlerIssue .clrint .awaitClear { s with host.last := some d }) := by
  rw [handlerEndRead, h]

/-! ### The samples of `tare` -/

/-- After a sample `tare` goes on to the next one, or to its mean (R114). -/
theorem endTareSample_eq (prior : Bool) (left : Nat) (vs : List Word32) (r : Response) (s : State) :
    endTareSample prior left vs r s =
      goto (if 1 < left then .tarePoll prior (left - 1) (vs ++ [r.value])
        else .tareStore prior (vs ++ [r.value])) (leaveCs s) := by
  rw [endTareSample]
  split
  · rw [if_neg (by omega)]; rfl
  · rw [if_pos (by omega)]; rfl

/-- With the samples there OFFSET gets their mean, and LISTEN is to be restored where it was set (R114,
R117). -/
theorem storeTareMean_eq (prior : Bool) (vs : List Word32) (s : State) :
    storeTareMean prior vs s =
      { s with host := { s.host with
          offset := pattern (tareMean s.cfg.tareMean (vs.map BitVec.toInt))
          fg := if prior then .tareRestore else .idle
          result := if prior then s.host.result else some .unit } } := by
  cases prior <;> rfl

/-! ### Taking an answer -/

section
variable {s : State} {r : Response} {prior : Bool} {left n : Nat} {vs : List Word32}

/-- In the foreground's turn an answer is taken at the point that waits for it. -/
theorem step_takes {p : FgPoint} (ht : foregroundTurn s = true) (hr : s.chan.response = some r)
    (hf : s.host.fg = p) (hp : awaiting p = true) : step s = takeResponse r (takeEvent s) :=
  step_takes_response ht hr (by rw [hf, hp])

/-- `read` of a chip that is not ready returns NotReady (R111). -/
theorem step_readRdy_notReady {scaled : Bool} (ht : foregroundTurn s = true)
    (hf : s.host.fg = .awaitReadRdy scaled) (hr : s.chan.response = some r)
    (hv : r.value = 0#32) : step s = .next (leaveWith .notReady (takeEvent s)) := by
  rw [step_takes ht hr hf rfl, takeResponse, takeEvent_host, hf]
  exact congrArg Host.Outcome.next (if_pos hv)

theorem step_readRdy_ready {scaled : Bool} (ht : foregroundTurn s = true)
    (hf : s.host.fg = .awaitReadRdy scaled) (hr : s.chan.response = some r)
    (hv : r.value ≠ 0#32) :
    step s = .next (issue .read (.awaitReadSample scaled) (takeEvent s)) := by
  rw [step_takes ht hr hf rfl, takeResponse, takeEvent_host, hf]
  exact congrArg Host.Outcome.next (if_neg hv)

theorem step_readSample {scaled : Bool} (ht : foregroundTurn s = true)
    (hf : s.host.fg = .awaitReadSample scaled) (hr : s.chan.response = some r) :
    step s = endRead scaled r (takeEvent s) := by
  rw [step_takes ht hr hf rfl, takeResponse, takeEvent_host, hf]

/-- Where LISTEN is set `tare` suspends it (R117). -/
theorem step_tareQuery_set (ht : foregroundTurn s = true) (hf : s.host.fg = .awaitTareQuery n)
    (hr : s.chan.response = some r) (hv : r.value = 1#32) :
    step s = .next (issue .unlisten (.awaitTareUnlisten n) (takeEvent s)) := by
  rw [step_takes ht hr hf rfl, takeResponse, takeEvent_host, hf]
  exact congrArg Host.Outcome.next (if_pos hv)

theorem step_tareQuery_clear (ht : foregroundTurn s = true) (hf : s.host.fg = .awaitTareQuery n)
    (hr : s.chan.response = some r) (hv : r.value ≠ 1#32) :
    step s =
      .next (goto (.tarePoll false n []) { leaveCs (takeEvent s) with host.tareSaved := false }) := by
  rw [step_takes ht hr hf rfl, takeResponse, takeEvent_host, hf]
  exact congrArg Host.Outcome.next (if_neg hv)

theorem step_tareUnlisten (ht : foregroundTurn s = true) (hf : s.host.fg = .awaitTareUnlisten n)
    (hr : s.chan.response = some r) :
    step s =
      .next (goto (.tarePoll true n []) { leaveCs (takeEvent s) with host.tareSaved := true }) := by
  rw [step_takes ht hr hf rfl, takeResponse, takeEvent_host, hf]

theorem step_tarePolled_ready (ht : foregroundTurn s = true)
    (hf : s.host.fg = .awaitTarePoll prior left vs) (hr : s.chan.response = some r)
    (hv : r.value = 1#32) :
    step s = .next (goto (.tareSample prior left vs) (leaveCs (takeEvent s))) := by
  rw [step_takes ht hr hf rfl, takeResponse, takeEvent_host, hf]
  exact congrArg Host.Outcome.next (if_pos ((isReadyValue_iff r).mpr hv))

/-- While the chip is not ready `tare` polls again (R115, R118). -/
theorem step_tarePolled_waits (ht : foregroundTurn s = true)
    (hf : s.host.fg = .awaitTarePoll prior left vs) (hr : s.chan.response = some r)
    (hv : r.value ≠ 1#32) :
    step s = .next (goto (.tarePoll prior left vs) (leaveCs (takeEvent s))) := by
  rw [step_takes ht hr hf rfl, takeResponse, takeEvent_host, hf]
  exact congrArg Host.Outcome.next (if_neg (mt (isReadyValue_iff r).mp hv))

theorem step_tareSampled (ht : foregroundTurn s = true)
    (hf : s.host.fg = .awaitTareSample prior left vs) (hr : s.chan.response = some r) :
    step s = .next (endTareSample prior left vs r (takeEvent s)) := by
  rw [step_takes ht hr hf rfl, takeResponse, takeEvent_host, hf]

theorem step_tareRestored (ht : foregroundTurn s = true) (hf : s.host.fg = .awaitTareRestore)
    (hr : s.chan.response = some r) : step s = .next (leaveWith .unit (takeEvent s)) := by
  rw [step_takes ht hr hf rfl, takeResponse, takeEvent_host, hf]

/-! ### The foreground's own steps -/

theorem step_scale {d : Word32} (ht : foregroundTurn s = true) (hf : s.host.fg = .scale d) :
    step s = .next (finish (.float (f32Mul (f32OfI32 d) s.host.scale)) (takeEvent s)) := by
  rw [step_foreground s ht, foregroundStep, takeEvent_host, hf]

theorem step_tarePoll (ht : foregroundTurn s = true) (hf : s.host.fg = .tarePoll prior left vs) :
    step s = .next (issue .rdy (.awaitTarePoll prior left vs) (takeEvent s)) := by
  rw [step_foreground s ht, foregroundStep, takeEvent_host, hf]

theorem step_tareSample (ht : foregroundTurn s = true)
    (hf : s.host.fg = .tareSample prior left vs) :
    step s = .next (issue .read (.awaitTareSample prior left vs) (takeEvent s)) := by
  rw [step_foreground s ht, foregroundStep, takeEvent_host, hf]

theorem step_tareStore (ht : foregroundTurn s = true) (hf : s.host.fg = .tareStore prior vs) :
    step s = .next (storeTareMean prior vs (takeEvent s)) := by
  rw [step_foreground s ht, foregroundStep, takeEvent_host, hf]

theorem step_tareRestore (ht : foregroundTurn s = true) (hf : s.host.fg = .tareRestore) :
    step s = .next (issue .listen .awaitTareRestore (takeEvent s)) := by
  rw [step_foreground s ht, foregroundStep, takeEvent_host, hf]

/-! ### The start of `tare` -/

theorem startTare_unit (hn : n ≠ 0) (hu : s.cfg.hasEdgeNotify = true) :
    startTare n s = .next (issue .islistening (.awaitTareQuery n) s) := by
  rw [startTare, if_neg hn, if_pos hu]

theorem startTare_noUnit (hn : n ≠ 0) (hu : s.cfg.hasEdgeNotify = false) :
    startTare n s = .next (goto (.tarePoll false n []) s) := by
  rw [startTare, if_neg hn, if_neg (by simp [hu])]

theorem step_tare (ht : foregroundTurn s = true) (hf : s.host.fg = .idle)
    (hc : nextCall s = some (.tare n)) : step s = startTare n (passCall (takeEvent s)) :=
  step_call ht hf hc

/-! ### The handler's steps -/

/-- A dispatch goes before the foreground unless the schedule says otherwise (R142). -/
theorem step_dispatch (ht : hostTurn s = true) (hs : s.sched.head? ≠ some .foreground)
    (hd : dispatchEnabled s = true) : step s = .next (dispatchHandler (takeEvent s)) := by
  have hd' : dispatchEnabled (takeEvent s) = true := hd
  have hfirst : (s.sched.head? == some Event.foreground) = false := beq_eq_false_iff_ne.mpr hs
  have hh : s.host.inHandler = false := ((dispatchEnabled_iff s).mp hd).2.2
  rw [step_host ht, hostStep, takeEvent_host, hh, hd', hfirst]
  rfl

/-- While the handler runs, the host's turn is its. -/
theorem step_handler (ht : hostTurn s = true) (hh : s.host.inHandler = true) :
    step s = handlerStep (takeEvent s) := by
  rw [step_host ht, hostStep, takeEvent_host, if_pos hh]

theorem onResponse_some {k : Response → Host.Outcome State Fault Refusal}
    (hr : s.chan.response = some r) : onResponse s k = k r := by
  rw [onResponse, hr]

theorem step_handlerStart (ht : hostTurn s = true) (hh : s.host.inHandler = true)
    (hd : s.host.hd = .start) :
    step s = .next (handlerIssue .rdy .awaitRdy (takeEvent s)) := by
  rw [step_handler ht hh, handlerStep, takeEvent_host, hd]

/-- NotReady is swallowed (R129, R138). -/
theorem step_handlerRdy_notReady (ht : hostTurn s = true) (hh : s.host.inHandler = true)
    (hd : s.host.hd = .awaitRdy) (hr : s.chan.response = some r) (hv : r.value = 0#32) :
    step s = .next (handlerIssue .clrint .awaitClear (takeEvent s)) := by
  rw [step_handler ht hh, handlerStep, takeEvent_host, hd]
  dsimp only
  rw [onResponse_some (s := takeEvent s) hr, if_pos hv]

theorem step_handlerRdy_ready (ht : hostTurn s = true) (hh : s.host.inHandler = true)
    (hd : s.host.hd = .awaitRdy) (hr : s.chan.response = some r) (hv : r.value ≠ 0#32) :
    step s = .next (handlerIssue .read .awaitSample (takeEvent s)) := by
  rw [step_handler ht hh, handlerStep, takeEvent_host, hd]
  dsimp only
  rw [onResponse_some (s := takeEvent s) hr, if_neg hv]

theorem step_handlerSample (ht : hostTurn s = true) (hh : s.host.inHandler = true)
    (hd : s.host.hd = .awaitSample) (hr : s.chan.response = some r) :
    step s = handlerEndRead r (takeEvent s) := by
  rw [step_handler ht hh, handlerStep, takeEvent_host, hd]
  exact onResponse_some hr

theorem step_handlerClear (ht : hostTurn s = true) (hh : s.host.inHandler = true)
    (hd : s.host.hd = .awaitClear) (hr : s.chan.response = some r) :
    step s = .next (returnFromHandler (takeEvent s)) := by
  rw [step_handler ht hh, handlerStep, takeEvent_host, hd]
  exact onResponse_some hr

end

/-! ### The statements -/

/-- Settles O53: the call's first step is the refusal. -/
theorem tareZeroIsRefused : Obligations.TareZeroIsRefused := fun _ ht hf hc => step_tare ht hf hc

/-- Settles O49: by whether the difference fits, in the foreground and in the handler. -/
theorem readSubtractsTheOffset : Obligations.ReadSubtractsTheOffset :=
  ⟨fun _ _ ht hf hr hlo hhi => ⟨_, toInt_pattern hlo hhi,
      (step_readSample ht hf hr).trans (endRead_fits (offsetCorrect_fits hlo hhi))⟩,
    fun _ _ _ ht hf hr hout =>
      (step_readSample ht hf hr).trans (endRead_overflows (offsetCorrect_overflows hout)),
    fun _ _ ht hh hd hr hout =>
      (step_handlerSample ht hh hd hr).trans
        (handlerEndRead_overflows (offsetCorrect_overflows hout))⟩

/-- Settles O51: the two steps of `read_scaled`, and the multiplication where the product is exact. -/
theorem readScaledMultipliesByScale : Obligations.ReadScaledMultipliesByScale :=
  ⟨fun _ _ ht hf hr hlo hhi => ⟨_, toInt_pattern hlo hhi,
      (step_readSample ht hf hr).trans (endRead_scaled_fits (offsetCorrect_fits hlo hhi))⟩,
    fun _ _ => step_scale, fun _ _ _ => f32Mul_exact, fun _ _ => f32Mul_zero⟩

end Sys2Proof.Machine
end

