-- ==== Sys2Proof/Proofs/HostRuns.lean ====
section
/-! SUPPORT. Undisturbed runs of the host's procedures (45_host_facade.md R110 to R118, R129): between two
steps of the host the block serves the one command it issued. -/

namespace Sys2Proof.Machine

open Sys2Proof.Safety

/-! ### Runs -/

theorem run_succ_inv {M : Host.Core} {n : Nat} {s t : M.State} (h : M.run (n + 1) s = .next t) :
    ∃ u, M.step s = .next u ∧ M.run n u = .next t := by
  rw [Host.Core.run] at h
  split at h
  · exact ⟨_, ‹_›, h⟩
  · cases h
  · cases h

theorem Reaches.succ_inv {n : Nat} {s t : State} (h : Reaches (n + 1) s t) :
    ∃ u, step s = .next u ∧ Reaches n u t :=
  run_succ_inv (M := Sys2Proof.core) h

theorem Reaches.trans {m n : Nat} {s u t : State} (hu : Reaches m s u) (ht : Reaches n u t) :
    Reaches (m + n) s t := by
  induction n generalizing s u m with
  | zero => cases ht; exact hu
  | succ n ih =>
    obtain ⟨v, hv, hrest⟩ := ht.succ_inv
    rw [← Nat.add_assoc, Nat.add_right_comm]
    exact ih (hu.snoc hv) hrest

/-- No step of a run writes the configuration (R46). -/
theorem Reaches.cfg {n : Nat} {s t : State} (h : Reaches n s t) : t.cfg = s.cfg := by
  induction n generalizing s with
  | zero => cases h; rfl
  | succ n ih =>
    obtain ⟨u, hu, hrest⟩ := h.succ_inv
    exact (ih hrest).trans (step_cfg hu)

/-! ### Between two commands -/

/-- The block is between two commands of an undisturbed run. -/
structure Quiet (s : State) : Prop where
  calm : undisturbed s = true
  accept : canAccept s = true

theorem Quiet.congr {s t : State} (q : Quiet s) (hcfg : t.cfg = s.cfg) (hsched : t.sched = s.sched)
    (hpins : t.pins = s.pins) (hstretch : t.stretch = s.stretch)
    (hphase : t.block.phase = s.block.phase) (hfault : t.block.fault = s.block.fault) :
    Quiet t := by
  obtain ⟨calm, accept⟩ := q
  constructor
  · rwa [undisturbed, hcfg, hsched, hpins, hstretch]
  · rwa [canAccept, hphase, hfault]

theorem Quiet.of_hostTurn {s : State} (hu : undisturbed s = true) (ht : hostTurn s = true) :
    Quiet s := by
  obtain ⟨-, hp, hf, -⟩ := hostTurn_parts ht
  exact ⟨hu, by simp [canAccept, hp, hf]⟩

theorem foregroundTurn_parts {s : State} (h : foregroundTurn s = true) :
    hostTurn s = true ∧ s.host.inHandler = false := by
  simp only [foregroundTurn, Bool.and_eq_true, Bool.not_eq_true'] at h
  exact h.1

theorem chipReadyInSync_parts {s : State} (h : chipReadyInSync s = true) :
    s.chip.din = false ∧ s.chip.sync = true := by
  simpa [chipReadyInSync] using h

section
variable {s : State} (q : Quiet s)
include q

theorem Quiet.takeEvent_eq : takeEvent s = s := takeEvent_nil s ((undisturbed_iff s).mp q.calm).2.1

theorem Quiet.agentsTurn : Safety.agentsTurn s = true := by
  obtain ⟨hc, hs, -, -⟩ := (undisturbed_iff s).mp q.calm
  simp [Safety.agentsTurn, hc, hs]

/-- With no word presented it is the host's turn. -/
theorem Quiet.hostTurn (hc : s.chan.cmd = none) : Safety.hostTurn s = true := by
  simp [Safety.hostTurn, q.agentsTurn, q.accept, hc]

/-- It is the foreground's, where no handler runs or is to be dispatched. -/
theorem Quiet.foregroundTurn (hc : s.chan.cmd = none) (hh : s.host.inHandler = false)
    (hd : dispatchEnabled s = false) : Safety.foregroundTurn s = true := by
  simp [Safety.foregroundTurn, q.hostTurn hc, hh, hd]

theorem Quiet.accepts {i : Instr} (hc : s.chan.cmd = some (encode i))
    (hl : i.legal s.cfg.hasEdgeNotify = true) : Safety.accepts s i = true :=
  accepts_of_cmd q.agentsTurn q.accept hc hl

end

/-! ### Scenes -/

/-- What the parts of the state are between two commands of an undisturbed run. -/
structure Scene (u : State) (g : Params) (b : Block) (k : Chip) (c : Channel) (h : HostState) : Prop
    extends Quiet u where
  cfg : u.cfg = g
  block : u.block = b
  chip : u.chip = k
  chan : u.chan = c
  host : u.host = h

/-- A channel on which a command waits for the block. -/
def issued (i : Instr) : Channel := { cmd := some (encode i), response := none }

/-- A channel on which the answer `v` waits for the host. -/
def answer (v : Word32) : Channel := { cmd := none, response := some { status := 0#8, value := v } }

theorem Quiet.scene {s : State} (q : Quiet s) : Scene s s.cfg s.block s.chip s.chan s.host :=
  { q with cfg := rfl, block := rfl, chip := rfl, chan := rfl, host := rfl }

section
variable {u v : State} {g : Params} {b : Block} {k : Chip} {c : Channel} {h : HostState}

/-- A step of an undisturbed run that leaves STEP's phase and FAULT as they are leads to the next scene. -/
theorem Scene.next (w : Scene u g b k c h) {b' : Block} {k' : Chip} {c' : Channel} {h' : HostState}
    (hsched : v.sched = u.sched) (hpins : v.pins = u.pins) (hstretch : v.stretch = u.stretch)
    (hcfg : v.cfg = u.cfg) (hblock : v.block = b') (hchip : v.chip = k') (hchan : v.chan = c')
    (hhost : v.host = h') (hphase : b'.phase = b.phase) (hfault : b'.fault = b.fault) :
    Scene v g b' k' c' h' where
  toQuiet := w.toQuiet.congr hcfg hsched hpins hstretch (by rw [hblock, hphase, w.block])
    (by rw [hblock, hfault, w.block])
  cfg := hcfg.trans w.cfg
  block := hblock
  chip := hchip
  chan := hchan
  host := hhost

/-! ### The block's part -/

/-- RDY answers whether DIN reads low, and changes nothing (R80). -/
theorem Scene.rdy (w : Scene u g b k (issued .rdy) h) :
    ∃ v, step u = .next v ∧ Scene v g b k (answer (zextBit (!k.din))) h := by
  obtain ⟨-, -, hp, -⟩ := (undisturbed_iff u).mp w.calm
  have hacc : Safety.accepts u .rdy = true := w.accepts (by rw [w.chan]; rfl) rfl
  have hholds : pinFails (acceptCommand u) = false := by simp [pinFails, hp]
  have hstep := step_accepts hacc
  rw [w.takeEvent_eq, exec_rdy_holds hholds] at hstep
  refine ⟨_, hstep, w.next rfl ?_ rfl rfl w.block w.chip ?_ w.host rfl rfl⟩
  · simp [hp]
  · simp [answer, w.chip]

variable (hu : g.hasEdgeNotify = true)
include hu

/-- With the unit an edge-notify command is accepted, and has its effect (R75). -/
theorem Scene.edge {i : Instr} {f : State → State} (w : Scene u g b k (issued i) h)
    (hl : i.legal true = true) (hexec : ∀ a, exec i a = withUnit a (f a)) :
    step u = .next (f (acceptCommand u)) := by
  have hacc : Safety.accepts u i = true := w.accepts (by rw [w.chan]; rfl) (by rw [w.cfg, hu, hl])
  rw [step_accepts hacc, w.takeEvent_eq, hexec]
  exact withUnit_present (w.cfg ▸ hu) _

theorem Scene.islistening (w : Scene u g b k (issued .islistening) h) :
    ∃ v, step u = .next v ∧ Scene v g b k (answer (zextBit b.listen)) h := by
  refine ⟨_, w.edge hu rfl fun _ => rfl, w.next rfl rfl rfl rfl w.block w.chip ?_ w.host rfl rfl⟩
  simp [answer, w.block]

theorem Scene.unlisten (w : Scene u g b k (issued .unlisten) h) :
    ∃ v, step u = .next v ∧ Scene v g { b with listen := false } k (answer 0#32) h := by
  refine ⟨_, w.edge hu rfl fun _ => rfl, w.next rfl rfl rfl rfl ?_ w.chip rfl w.host rfl rfl⟩
  simp [w.block]

theorem Scene.listen (w : Scene u g b k (issued .listen) h) :
    ∃ v, step u = .next v ∧ Scene v g { b with listen := true } k (answer 0#32) h := by
  refine ⟨_, w.edge hu rfl fun _ => rfl, w.next rfl rfl rfl rfl ?_ w.chip rfl w.host rfl rfl⟩
  simp [w.block]

theorem Scene.clrint (w : Scene u g b k (issued .clrint) h) :
    ∃ v, step u = .next v ∧ Scene v g { b with pending := false } k (answer 0#32) h := by
  refine ⟨_, w.edge hu rfl fun _ => rfl, w.next rfl rfl rfl rfl ?_ w.chip rfl w.host rfl rfl⟩
  simp [w.block]

omit hu

/-- An undisturbed READ of a ready chip answers its conversion, and touches neither LISTEN nor the host
(R37, R88). -/
theorem Scene.read (w : Scene u g b k (issued .read) h) (hdin : k.din = false)
    (hsync : k.sync = true) :
    ∃ v b' k', Reaches (readSteps b.gain) u v ∧
      Scene v g b' k' (answer (pattern (widen k.conv))) h ∧ b'.listen = b.listen := by
  have hw : presents u 0x20#8 = true := by
    have henc : encode .read = 0x20#8 := rfl
    simp [presents, w.accept, w.chan, issued, henc]
  obtain ⟨e, he, hrun⟩ := read_reaches_completion w.calm hw
  have hsrc : (beginRead u).chip.source = .word k.conv := by
    simp [w.chip, hdin, hsync]
  rw [w.block] at hrun
  refine ⟨completeRead e, _, _, hrun,
    { calm := ?_, accept := ?_, cfg := ?_, block := rfl, chip := rfl, chan := ?_, host := ?_ }, ?_⟩
  · simpa [undisturbed_iff] using (undisturbed_iff e).mp he.calm
  · simp [canAccept, he.fault]
  · exact (Reaches.cfg hrun).trans w.cfg
  · simp [answer, he.chan, he.shift _ hsrc]
  · simp [he.host, w.host]
  · simp [he.listen, w.block]

/-! ### The host's part -/

/-- A step of the host leaves block and chip as they are. -/
theorem Scene.hostStep (w : Scene u g b k c h) {c' : Channel} {h' : HostState} (hc : c.cmd = none)
    (hv : step u = .next v) (hchan : v.chan = c') (hhost : v.host = h') :
    Scene v g b k c' h' := by
  have turn : Safety.hostTurn u = true := w.hostTurn (by rw [w.chan, hc])
  have f := hostStep_frame _ _ _ ((step_host turn).symm.trans hv)
  exact w.next (f.sched.trans (by rw [w.takeEvent_eq])) f.pins f.stretch f.cfg
    (f.block.trans w.block) (f.chip.trans w.chip) hchan hhost rfl rfl

/-- In a critical section it is the foreground's turn, whatever IRQ is (R147). -/
theorem Scene.inCs_turn (w : Scene u g b k c h) (hc : c.cmd = none) (hh : h.inHandler = false)
    (hcs : h.inCs = true) : Safety.foregroundTurn u = true :=
  w.foregroundTurn (by rw [w.chan, hc]) (by rw [w.host, hh])
    (by simp [dispatchEnabled, w.host, hcs])

/-- With IRQ 0 it is the foreground's turn, in a critical section or not (R142). -/
theorem Scene.calm_turn (w : Scene u g b k c h) (hc : c.cmd = none) (hh : h.inHandler = false)
    (hirq : irq u = false) : Safety.foregroundTurn u = true :=
  w.foregroundTurn (by rw [w.chan, hc]) (by rw [w.host, hh]) (by simp [dispatchEnabled, hirq])

/-- The answer on the channel, as the host takes it. -/
theorem Scene.response {x : Word32} (w : Scene u g b k (answer x) h) :
    u.chan.response = some { status := 0#8, value := x } := by
  rw [w.chan]
  rfl

end

/-! ### The corrected sample -/

theorem toInt_pattern_widen (raw : Raw24) : (pattern (widen raw)).toInt = widen raw := by
  rw [pattern_widen, BitVec.toInt_signExtend_of_le (by decide), widen_eq_toInt]

theorem offsetCorrect_sample {raw : Raw24} {o : Word32} (hlo : -2147483648 ≤ widen raw - o.toInt)
    (hhi : widen raw - o.toInt ≤ 2147483647) :
    offsetCorrect (pattern (widen raw)) o = some (pattern (widen raw - o.toInt)) := by
  rw [← toInt_pattern_widen raw] at hlo hhi
  rw [offsetCorrect_fits hlo hhi, toInt_pattern_widen]

/-! ### `read` and `read_scaled` -/

section
variable {u v : State} {g : Params} {b : Block} {k : Chip} {c : Channel} {h : HostState}

/-- Both procedures begin with RDY, in a critical section. -/
theorem Scene.readBegins (w : Scene u g b k c h) (ht : Safety.foregroundTurn u = true)
    (hf : h.fg = .idle) {call : HostCall} (hcall : nextCall u = some call) {scaled : Bool}
    (hstart : ∀ s, startCall call s = .next (issue .rdy (.awaitReadRdy scaled) s)) :
    ∃ v, Reaches 2 u v ∧ Scene v g b k (answer (zextBit (!k.din)))
      { h with pc := h.pc + 1, result := none, inCs := true, fg := .awaitReadRdy scaled } := by
  obtain ⟨hturn, -⟩ := foregroundTurn_parts ht
  have hc : c.cmd = none := w.chan ▸ (hostTurn_parts hturn).2.2.2
  have hv := (step_call ht (by rw [w.host, hf]) hcall).trans (hstart _)
  obtain ⟨v', hv', w'⟩ := (w.hostStep (h' := { h with
    pc := h.pc + 1, result := none, inCs := true, fg := .awaitReadRdy scaled })
    hc hv rfl (by simp [w.host])).rdy
  exact ⟨v', ((Reaches.zero u).snoc hv).snoc hv', w'⟩

end

/-- Settles O48: RDY answers 0, and NotReady is returned. -/
theorem notReadyReadChangesNothing : Obligations.NotReadyReadChangesNothing := by
  intro s call hcase hu ht hf hcall hdin
  obtain ⟨hturn, hh⟩ := foregroundTurn_parts ht
  obtain ⟨scaled, hstart⟩ : ∃ scaled, ∀ s,
      startCall call s = .next (issue .rdy (.awaitReadRdy scaled) s) := by
    obtain rfl | rfl := hcase <;> exact ⟨_, fun _ => rfl⟩
  obtain ⟨v, hrun, w⟩ := (Quiet.of_hostTurn hu hturn).scene.readBegins ht hf hcall hstart
  rw [hdin] at w
  have hlast := step_readRdy_notReady (w.inCs_turn rfl hh rfl) (by rw [w.host]) w.response rfl
  have wlast := w.hostStep (h' := { s.host with
    pc := s.host.pc + 1, inCs := false, fg := .idle, result := some .notReady })
    rfl hlast rfl (by simp [w.host])
  exact ⟨_, hrun.snoc hlast, wlast.host, wlast.block, wlast.chip⟩

/-- Settles O50: RDY answers 1, the READ answers the conversion, and its difference to OFFSET fits. -/
theorem readReturnsTheCorrectedSample : Obligations.ReadReturnsTheCorrectedSample := by
  intro s hu ht hf hcall hready _ hlo hhi
  obtain ⟨hturn, hh⟩ := foregroundTurn_parts ht
  obtain ⟨hdin, hsync⟩ := chipReadyInSync_parts hready
  obtain ⟨v, hrdy, w⟩ :=
    (Quiet.of_hostTurn hu hturn).scene.readBegins ht hf hcall (scaled := false) fun _ => rfl
  rw [hdin] at w
  have hissue :=
    step_readRdy_ready (w.inCs_turn rfl hh rfl) (by rw [w.host]) w.response (by decide)
  have wissue := w.hostStep (c' := issued .read) (h' := { s.host with
    pc := s.host.pc + 1, result := none, inCs := true, fg := .awaitReadSample false })
    rfl hissue rfl (by simp [w.host])
  obtain ⟨e, b, k, hread, we, -⟩ := wissue.read hdin hsync
  have hend := (step_readSample (we.inCs_turn rfl hh rfl) (by rw [we.host]) we.response).trans
    (endRead_fits (s := takeEvent e)
      (by rw [takeEvent_host, we.host]; exact offsetCorrect_sample hlo hhi))
  have wend := we.hostStep (h' := { s.host with
    pc := s.host.pc + 1, last := some (pattern (widen s.chip.conv - s.host.offset.toInt)),
    inCs := false, fg := .idle,
    result := some (.int (pattern (widen s.chip.conv - s.host.offset.toInt))) })
    rfl hend rfl (by simp [we.host])
  have hrun := ((hrdy.snoc hissue).trans hread).snoc hend
  rw [show 2 + 1 + readSteps s.block.gain + 1 = readSteps s.block.gain + 4 by omega] at hrun
  exact ⟨_, _, hrun, toInt_pattern hlo hhi, wend.host⟩

end Sys2Proof.Machine
end

