-- ==== Sys2Proof/Proofs/HandlerRuns.lean ====
section
/-! SUPPORT. Undisturbed runs of the interrupt handler (45_host_facade.md R129; 60_exceptions.md R138, R142,
R144): from the dispatch to RDY's answer, and from CLRINT to the return. -/

namespace Sys2Proof.Machine

open Sys2Proof.Safety

section
variable {u v : State} {g : Params} {b : Block} {k : Chip} {c : Channel} {h : HostState}

/-- A dispatch needs the unit, LISTEN, and a foreground outside its critical sections (R32, R142). -/
theorem dispatchEnabled_parts {s : State} (hd : dispatchEnabled s = true) :
    s.cfg.hasEdgeNotify = true ∧ s.block.listen = true ∧ s.host.inHandler = false := by
  obtain ⟨hirq, -, hh⟩ := (dispatchEnabled_iff s).mp hd
  rw [irq_eq, Bool.and_eq_true, Bool.and_eq_true] at hirq
  exact ⟨hirq.1, hirq.2.1, hh⟩

/-- The handler is entered, and asks for RDY. -/
theorem Scene.handlerBegins (w : Scene u g b k c h) (ht : Safety.hostTurn u = true)
    (hd : dispatchEnabled u = true) :
    ∃ v, Reaches 3 u v ∧ Scene v g b k (answer (zextBit (!k.din)))
      { h with inHandler := true, hd := .awaitRdy } := by
  have hc : c.cmd = none := w.chan ▸ (hostTurn_parts ht).2.2.2
  have hsched : u.sched.head? ≠ some .foreground := by
    simp [((undisturbed_iff u).mp w.calm).2.1]
  have henter := step_dispatch ht hsched hd
  have wenter := w.hostStep (h' := { h with inHandler := true, hd := .start })
    hc henter w.chan (by simp [w.host])
  have hstart := step_handlerStart (wenter.hostTurn (by rw [wenter.chan, hc])) (by rw [wenter.host])
    (by rw [wenter.host])
  have wstart := wenter.hostStep (c' := issued .rdy)
    (h' := { h with inHandler := true, hd := .awaitRdy }) hc hstart rfl (by simp [w.host])
  obtain ⟨v, hv, wv⟩ := wstart.rdy
  exact ⟨v, (((Reaches.zero u).snoc henter).snoc hstart).snoc hv, wv⟩

/-- The handler's CLRINT clears PENDING, and the handler returns. -/
theorem Scene.handlerEnds (w : Scene u g b k (issued .clrint) h) (hu : g.hasEdgeNotify = true)
    (hh : h.inHandler = true) (hd : h.hd = .awaitClear) :
    ∃ v c', Reaches 2 u v ∧ Scene v g { b with pending := false } k c'
      { h with inHandler := false, hd := .idle } := by
  obtain ⟨e, hclear, we⟩ := w.clrint hu
  have hret := step_handlerClear (we.hostTurn (by rw [we.chan]; rfl)) (by rw [we.host, hh])
    (by rw [we.host, hd]) we.response
  have wret := we.hostStep (h' := { h with inHandler := false, hd := .idle })
    rfl hret rfl (by simp [we.host])
  exact ⟨_, _, ((Reaches.zero u).snoc hclear).snoc hret, wret⟩

end

/-- Settles O60: RDY answers 0, and the handler goes on to CLRINT at once. -/
theorem handlerSwallowsNotReady : Obligations.HandlerSwallowsNotReady := by
  intro s hu ht hd hdin
  obtain ⟨hunit, -, hh⟩ := dispatchEnabled_parts hd
  obtain ⟨v, hrdy, w⟩ := (Quiet.of_hostTurn hu ht).scene.handlerBegins ht hd
  rw [hdin] at w
  have hskip := step_handlerRdy_notReady (w.hostTurn (by rw [w.chan]; rfl)) (by rw [w.host])
    (by rw [w.host]) w.response rfl
  have wskip := w.hostStep (c' := issued .clrint)
    (h' := { s.host with inHandler := true, hd := .awaitClear }) rfl hskip rfl (by simp [w.host])
  obtain ⟨t, c, hend, wt⟩ := wskip.handlerEnds hunit rfl rfl
  refine ⟨t, (hrdy.snoc hskip).trans hend, ?_, wt.block, wt.chip⟩
  rw [wt.host, ← hh]

/-- Settles O59: RDY answers 1, the READ's sample is corrected, and CLRINT ends the interrupt. -/
theorem handlerReadsAndClears : Obligations.HandlerReadsAndClears := by
  intro s hu ht hd hready _ hlo hhi
  obtain ⟨hunit, hlisten, hh⟩ := dispatchEnabled_parts hd
  obtain ⟨hdin, hsync⟩ := chipReadyInSync_parts hready
  obtain ⟨v, hrdy, w⟩ := (Quiet.of_hostTurn hu ht).scene.handlerBegins ht hd
  rw [hdin] at w
  have hissue := step_handlerRdy_ready (w.hostTurn (by rw [w.chan]; rfl)) (by rw [w.host])
    (by rw [w.host]) w.response (by decide)
  have wissue := w.hostStep (c' := issued .read)
    (h' := { s.host with inHandler := true, hd := .awaitSample }) rfl hissue rfl (by simp [w.host])
  obtain ⟨e, b, k, hread, we, hb⟩ := wissue.read hdin hsync
  have hstore := (step_handlerSample (we.hostTurn (by rw [we.chan]; rfl)) (by rw [we.host])
      (by rw [we.host]) we.response).trans
    (handlerEndRead_fits (s := takeEvent e)
      (by rw [takeEvent_host, we.host]; exact offsetCorrect_sample hlo hhi))
  have wstore := we.hostStep (c' := issued .clrint)
    (h' := { s.host with
      last := some (pattern (widen s.chip.conv - s.host.offset.toInt))
      inHandler := true
      hd := .awaitClear })
    rfl hstore rfl (by simp [we.host])
  obtain ⟨t, c, hend, wt⟩ := wstore.handlerEnds hunit rfl rfl
  have hrun := (((hrdy.snoc hissue).trans hread).snoc hstore).trans hend
  rw [show 3 + 1 + readSteps s.block.gain + 1 + 2 = readSteps s.block.gain + 7 by omega] at hrun
  refine ⟨t, _, hrun, toInt_pattern hlo hhi, ?_, by rw [wt.block], ?_,
    irq_of_pending_false (by rw [wt.block])⟩
  · rw [wt.host, ← hh]
  · rw [wt.block, ← hlisten, ← hb]

end Sys2Proof.Machine
end

