-- ==== Sys2Proof/Proofs/TareRuns.lean ====
section
/-! SUPPORT. Undisturbed runs of `tare` (45_host_facade.md R114 to R118): a poll of a chip that is not
ready, and a whole `tare(1)` of one that is, with LISTEN suspended and restored. -/

namespace Sys2Proof.Machine

open Sys2Proof.Safety

section
variable {u v : State} {g : Params} {b : Block} {k : Chip} {c : Channel} {h : HostState}
variable {prior : Bool} {left : Nat} {vs : List Word32}

/-! ### Polling -/

/-- A poll of `tare` issues RDY and has its answer. -/
theorem Scene.tarePolls (w : Scene u g b k c h) (hc : c.cmd = none) (hh : h.inHandler = false)
    (hirq : irq u = false) (hf : h.fg = .tarePoll prior left vs) :
    ∃ v, Reaches 2 u v ∧ Scene v g b k (answer (zextBit (!k.din)))
      { h with inCs := true, fg := .awaitTarePoll prior left vs } := by
  have hissue := step_tarePoll (w.calm_turn hc hh hirq) (by rw [w.host, hf])
  have wissue := w.hostStep (c' := issued .rdy)
    (h' := { h with inCs := true, fg := .awaitTarePoll prior left vs })
    hc hissue rfl (by simp [w.host])
  obtain ⟨v, hv, wv⟩ := wissue.rdy
  exact ⟨v, ((Reaches.zero u).snoc hissue).snoc hv, wv⟩

/-- While DIN is high a poll leaves `tare` where it was (R115, R118). -/
theorem Scene.tareWaits (w : Scene u g b k c h) (hc : c.cmd = none) (hh : h.inHandler = false)
    (hirq : irq u = false) (hf : h.fg = .tarePoll prior left vs) (hdin : k.din = true) :
    ∃ v, Reaches 3 u v ∧ Scene v g b k (answer 0#32)
      { h with inCs := false, fg := .tarePoll prior left vs } := by
  obtain ⟨v, hv, wv⟩ := w.tarePolls hc hh hirq hf
  rw [hdin] at wv
  have hback := step_tarePolled_waits (wv.inCs_turn rfl hh rfl) (by rw [wv.host]) wv.response
    (by decide)
  have wback := wv.hostStep (h' := { h with inCs := false, fg := .tarePoll prior left vs })
    rfl hback wv.chan (by simp [wv.host])
  exact ⟨_, hv.snoc hback, wback⟩

/-- IRQ is a function of the scene. -/
theorem Scene.irq_eq (w : Scene u g b k c h) :
    irq u = (g.hasEdgeNotify && (b.listen && b.pending)) := by
  rw [Machine.irq_eq, w.cfg, w.block]

/-- After any number of polls `tare` is where it was. -/
theorem Scene.tareWaits_often (w : Scene u g b k c h) (hc : c.cmd = none)
    (hh : h.inHandler = false) (hirq : irq u = false) (hf : h.fg = .tarePoll prior left vs)
    (hdin : k.din = true) (n : Nat) :
    ∃ v c' h', Reaches (3 * n) u v ∧ Scene v g b k c' h' ∧ c'.cmd = none ∧
      h'.inHandler = false ∧ h'.fg = .tarePoll prior left vs ∧ h'.result = h.result := by
  induction n with
  | zero => exact ⟨u, c, h, .zero u, w, hc, hh, hf, rfl⟩
  | succ n ih =>
    obtain ⟨v, c', h', hv, wv, hc', hh', hf', hr'⟩ := ih
    have hirq' : irq v = false := by rw [wv.irq_eq, ← w.irq_eq, hirq]
    obtain ⟨t, ht, wt⟩ := wv.tareWaits hc' hh' hirq' hf' hdin
    exact ⟨t, _, _, hv.trans ht, wt, rfl, hh', rfl, hr'⟩

/-! ### A sample -/

/-- With LISTEN suspended, or no unit, IRQ is 0 whatever PENDING is. -/
theorem Scene.irq_silent (w : Scene u g b k c h) (hl : (g.hasEdgeNotify && b.listen) = false) :
    irq u = false := by
  rw [w.irq_eq, ← Bool.and_assoc, hl, Bool.false_and]

/-- The last sample of `tare` from a ready chip: a poll, and a READ (R114, R115). -/
theorem Scene.tareSamples (w : Scene u g b k c h) (hc : c.cmd = none) (hh : h.inHandler = false)
    (hl : (g.hasEdgeNotify && b.listen) = false) (hf : h.fg = .tarePoll prior 1 vs)
    (hdin : k.din = false) (hsync : k.sync = true) :
    ∃ n v b' k' c', Reaches n u v ∧
      Scene v g b' k' c'
        { h with inCs := false, fg := .tareStore prior (vs ++ [pattern (widen k.conv)]) } ∧
      c'.cmd = none ∧ b'.listen = b.listen := by
  obtain ⟨p, hp, wp⟩ := w.tarePolls hc hh (w.irq_silent hl) hf
  rw [hdin] at wp
  have hready := step_tarePolled_ready (wp.inCs_turn rfl hh rfl) (by rw [wp.host]) wp.response rfl
  have wready := wp.hostStep (h' := { h with inCs := false, fg := .tareSample prior 1 vs })
    rfl hready wp.chan (by simp [wp.host])
  have hissue := step_tareSample (wready.calm_turn rfl hh (wready.irq_silent hl))
    (by rw [wready.host])
  have wissue := wready.hostStep (c' := issued .read)
    (h' := { h with inCs := true, fg := .awaitTareSample prior 1 vs })
    rfl hissue rfl (by simp [wp.host])
  obtain ⟨e, b', k', hread, we, hb⟩ := wissue.read hdin hsync
  have htake := step_tareSampled (we.inCs_turn rfl hh rfl) (by rw [we.host]) we.response
  rw [endTareSample_eq] at htake
  have wtake := we.hostStep
    (h' := { h with inCs := false, fg := .tareStore prior (vs ++ [pattern (widen k.conv)]) })
    rfl htake we.chan (by simp [we.host])
  exact ⟨_, _, b', k', _, (((hp.snoc hready).snoc hissue).trans hread).snoc htake, wtake, rfl, hb⟩

/-! ### The end -/

/-- `tare` writes OFFSET, and sets LISTEN again where it was set (R114, R117). -/
theorem Scene.tareEnds (w : Scene u g b k c h) (hc : c.cmd = none) (hh : h.inHandler = false)
    (hl : (g.hasEdgeNotify && b.listen) = false) (hf : h.fg = .tareStore prior vs)
    (hu : prior = true → g.hasEdgeNotify = true) :
    ∃ n v c' cs, Reaches n u v ∧ Scene v g { b with listen := b.listen || prior } k c'
      { h with
        offset := pattern (tareMean g.tareMean (vs.map BitVec.toInt))
        inCs := cs
        fg := .idle
        result := some .unit } := by
  have hstore := step_tareStore (w.calm_turn hc hh (w.irq_silent hl)) (by rw [w.host, hf])
  rw [w.takeEvent_eq, storeTareMean_eq] at hstore
  have wstore := w.hostStep
    (h' := { h with
      offset := pattern (tareMean g.tareMean (vs.map BitVec.toInt))
      fg := if prior then .tareRestore else .idle
      result := if prior then h.result else some .unit })
    hc hstore w.chan (by simp [w.host, w.cfg])
  cases prior with
  | false => exact ⟨_, _, _, _, (Reaches.zero u).snoc hstore, by simpa using wstore⟩
  | true =>
    have hissue := step_tareRestore
      (wstore.calm_turn hc hh (wstore.irq_silent hl)) (by rw [wstore.host]; rfl)
    have wissue := wstore.hostStep (c' := issued .listen)
      (h' := { h with
        offset := pattern (tareMean g.tareMean (vs.map BitVec.toInt))
        inCs := true
        fg := .awaitTareRestore })
      hc hissue rfl (by simp [w.host, w.cfg])
    obtain ⟨e, hlisten, we⟩ := wissue.listen (hu rfl)
    have hlast := step_tareRestored (we.inCs_turn rfl hh rfl) (by rw [we.host]) we.response
    have wlast := we.hostStep
      (h' := { h with
        offset := pattern (tareMean g.tareMean (vs.map BitVec.toInt))
        inCs := false
        fg := .idle
        result := some .unit })
      rfl hlast rfl (by simp [we.host])
    rw [Bool.or_true]
    exact ⟨_, _, _, _, (((Reaches.zero u).snoc hstore).snoc hissue).snoc hlisten |>.snoc hlast, wlast⟩

end

/-! ### The beginning -/

/-- What `tare` begun in `s` has written of the host when its sampling begins. -/
def tareBegun (s : State) (n : Nat) (cs : Bool) : HostState :=
  { s.host with
    pc := s.host.pc + 1
    result := none
    inCs := cs
    fg := .tarePoll (listenBit s) n []
    tareSaved := if s.cfg.hasEdgeNotify then s.block.listen else s.host.tareSaved }

/-- The block of `s` with its subscription suspended. -/
def suspended (s : State) : Block :=
  { s.block with listen := s.block.listen && !listenBit s }

theorem suspended_of_unset {s : State} (h : listenBit s = false) : suspended s = s.block := by
  rw [suspended, h]
  simp

theorem suspended_of_set {s : State} (h : listenBit s = true) :
    suspended s = { s.block with listen := false } := by
  rw [suspended, h]
  simp

section
variable {s : State} {n : Nat} (q : Quiet s) (ht : foregroundTurn s = true)
  (hf : s.host.fg = .idle) (hcall : nextCall s = some (.tare n)) (hn : n ≠ 0)
include q ht hf hcall hn

/-- Without the unit `tare` begins its sampling at once. -/
theorem reaches_tareBegun_noUnit (hu : s.cfg.hasEdgeNotify = false) :
    ∃ v, Reaches 1 s v ∧
      Scene v s.cfg (suspended s) s.chip s.chan (tareBegun s n s.host.inCs) := by
  have hc : s.chan.cmd = none := (hostTurn_parts (foregroundTurn_parts ht).1).2.2.2
  have hbit : listenBit s = false := by simp [listenBit, hu]
  have hgo := (step_tare ht hf hcall).trans (startTare_noUnit hn hu)
  have wgo := q.scene.hostStep (c' := s.chan) (h' := tareBegun s n s.host.inCs) hc hgo rfl
    (by simp [tareBegun, hbit, hu])
  rw [suspended_of_unset hbit]
  exact ⟨_, (Reaches.zero s).snoc hgo, wgo⟩

/-- With the unit it asks for LISTEN first (R117). -/
theorem reaches_tareQuery (hu : s.cfg.hasEdgeNotify = true) :
    ∃ v, Reaches 2 s v ∧ Scene v s.cfg s.block s.chip (answer (zextBit s.block.listen))
      { s.host with
        pc := s.host.pc + 1, result := none, inCs := true, fg := .awaitTareQuery n } := by
  have hc : s.chan.cmd = none := (hostTurn_parts (foregroundTurn_parts ht).1).2.2.2
  have hask := (step_tare ht hf hcall).trans (startTare_unit hn hu)
  have wask := q.scene.hostStep (c' := issued .islistening)
    (h' := { s.host with
      pc := s.host.pc + 1, result := none, inCs := true, fg := .awaitTareQuery n })
    hc hask rfl (by simp)
  obtain ⟨v, hv, wv⟩ := wask.islistening hu
  exact ⟨v, ((Reaches.zero s).snoc hask).snoc hv, wv⟩

/-- It goes on to its sampling where LISTEN is 0, and suspends it first where it is 1. -/
theorem reaches_tareBegun_unit (hu : s.cfg.hasEdgeNotify = true) :
    ∃ m v x, Reaches m s v ∧
      Scene v s.cfg (suspended s) s.chip (answer x) (tareBegun s n false) := by
  obtain ⟨-, hh⟩ := foregroundTurn_parts ht
  obtain ⟨e, hrun, we⟩ := reaches_tareQuery q ht hf hcall hn hu
  cases hl : s.block.listen with
  | false =>
    have hbit : listenBit s = false := by simp [listenBit, hl]
    rw [hl] at we
    have hgo := step_tareQuery_clear (we.inCs_turn rfl hh rfl) (by rw [we.host]) we.response
      (by decide)
    have wgo := we.hostStep (h' := tareBegun s n false) rfl hgo we.chan
      (by simp [we.host, tareBegun, hbit, hu, hl])
    rw [suspended_of_unset hbit]
    exact ⟨_, _, _, hrun.snoc hgo, wgo⟩
  | true =>
    have hbit : listenBit s = true := by simp [listenBit, hu, hl]
    rw [hl] at we
    have hset := step_tareQuery_set (we.inCs_turn rfl hh rfl) (by rw [we.host]) we.response rfl
    have wset := we.hostStep (c' := issued .unlisten)
      (h' := { s.host with
        pc := s.host.pc + 1, result := none, inCs := true, fg := .awaitTareUnlisten n })
      rfl hset rfl (by simp [we.host])
    obtain ⟨d, hclear, wd⟩ := wset.unlisten hu
    have hgo := step_tareUnlisten (wd.inCs_turn rfl hh rfl) (by rw [wd.host]) wd.response
    have wgo := wd.hostStep (h' := tareBegun s n false) rfl hgo wd.chan
      (by simp [wd.host, tareBegun, hbit, hu, hl])
    rw [suspended_of_set hbit]
    exact ⟨_, _, _, ((hrun.snoc hset).snoc hclear).snoc hgo, wgo⟩

/-- `tare` asks for LISTEN where there is a unit, and suspends it where it is set (R117). -/
theorem reaches_tareBegun :
    ∃ m v c cs, Reaches m s v ∧ c.cmd = none ∧
      Scene v s.cfg (suspended s) s.chip c (tareBegun s n cs) := by
  cases hu : s.cfg.hasEdgeNotify with
  | false =>
    obtain ⟨v, hrun, w⟩ := reaches_tareBegun_noUnit q ht hf hcall hn hu
    exact ⟨_, v, _, _, hrun, (hostTurn_parts (foregroundTurn_parts ht).1).2.2.2, w⟩
  | true =>
    obtain ⟨m, v, x, hrun, w⟩ := reaches_tareBegun_unit q ht hf hcall hn hu
    exact ⟨m, v, _, _, hrun, rfl, w⟩

end

/-! ### The statements -/

/-- Settles O54: by induction on the polls, in none of which the block or the chip changes. -/
theorem tareWaitsForEver : Obligations.TareWaitsForEver := by
  intro s prior left vs hu ht hirq hf hdin n
  obtain ⟨hturn, hh⟩ := foregroundTurn_parts ht
  obtain ⟨t, c, h, hrun, w, -, -, hfg, hres⟩ := (Quiet.of_hostTurn hu hturn).scene.tareWaits_often
    (hostTurn_parts hturn).2.2.2 hh hirq hf hdin n
  exact ⟨t, hrun, by rw [w.host, hfg], by rw [w.host, hres], w.block, w.chip⟩

/-- With its subscription suspended, a block holds IRQ at 0. -/
theorem suspended_silent (s : State) : (s.cfg.hasEdgeNotify && (suspended s).listen) = false := by
  rw [suspended, listenBit]
  cases s.cfg.hasEdgeNotify <;> cases s.block.listen <;> rfl

/-- What was suspended is restored. -/
theorem suspended_restored (s : State) : ((suspended s).listen || listenBit s) = s.block.listen := by
  rw [suspended, listenBit]
  cases s.cfg.hasEdgeNotify <;> cases s.block.listen <;> rfl

theorem tareMean_sample (m : TareMeanKind) (raw : Raw24) :
    tareMean m [(pattern (widen raw)).toInt] = widen raw := by
  obtain ⟨hlo, hhi⟩ := pattern_widen_range raw
  rw [tareMean_singleton m hlo hhi, toInt_pattern_widen]

/-- An undisturbed `tare(1)` of a ready chip (R114 to R117). -/
theorem reaches_tareOne {s : State} (hu : undisturbed s = true) (ht : foregroundTurn s = true)
    (hf : s.host.fg = .idle) (hcall : nextCall s = some (.tare 1))
    (hready : chipReadyInSync s = true) :
    ∃ (n : Nat) (t : State), Reaches n s t ∧
      t.host.fg = .idle ∧ t.host.result = some .unit ∧ t.host.pc = s.host.pc + 1 ∧
      t.host.offset = pattern (widen s.chip.conv) ∧ t.block.listen = s.block.listen ∧
      t.host.tareSaved = (if s.cfg.hasEdgeNotify then s.block.listen else s.host.tareSaved) ∧
      t.host.last = s.host.last ∧ t.host.scale = s.host.scale := by
  obtain ⟨hturn, hh⟩ := foregroundTurn_parts ht
  obtain ⟨hdin, hsync⟩ := chipReadyInSync_parts hready
  obtain ⟨m, u, c, cs, hbegin, hc, w⟩ :=
    reaches_tareBegun (.of_hostTurn hu hturn) ht hf hcall one_ne_zero
  obtain ⟨n, v, b, k, c', hsample, w', hc', hb⟩ :=
    w.tareSamples hc hh (suspended_silent s) rfl hdin hsync
  have hsilent : (s.cfg.hasEdgeNotify && b.listen) = false := by rw [hb, suspended_silent]
  have hunit : listenBit s = true → s.cfg.hasEdgeNotify = true := fun h =>
    (Bool.and_eq_true_iff.mp h).1
  obtain ⟨l, t, c'', cs', hend, wt⟩ := w'.tareEnds hc' hh hsilent rfl hunit
  refine ⟨_, t, (hbegin.trans hsample).trans hend, by rw [wt.host], by rw [wt.host],
    by rw [wt.host]; rfl, ?_, ?_, by rw [wt.host]; rfl, by rw [wt.host]; rfl, by rw [wt.host]; rfl⟩
  · rw [wt.host]
    exact congrArg pattern (tareMean_sample _ _)
  · rw [wt.block]
    exact (congrArg (· || listenBit s) hb).trans (suspended_restored s)

/-- Settles O55: a whole `tare(1)`, and the steps a longer one is made of. -/
theorem tareTakesItsSamples : Obligations.TareTakesItsSamples := by
  refine ⟨fun s hu ht hf hcall hready _ => reaches_tareOne hu ht hf hcall hready,
    fun s n ht hf hcall hn => ?_, fun s n r ht hr hf => ?_,
    fun s n r ht hr hf => step_tareUnlisten ht hf hr,
    fun s prior left vs r ht hr hf hv => step_tarePolled_ready ht hf hr hv,
    fun s prior left vs ht hf => ⟨_, step_tareSample ht hf, rfl, rfl, rfl⟩,
    fun s prior left vs r ht hr hf => ?_, fun s prior vs ht hf => ?_⟩
  · have hcmd : s.chan.cmd = none := (hostTurn_parts (foregroundTurn_parts ht).1).2.2.2
    have hstep := step_tare ht hf hcall
    cases hunit : s.cfg.hasEdgeNotify with
    | true => exact ⟨_, hstep.trans (startTare_unit hn hunit), rfl, rfl, rfl⟩
    | false => exact ⟨_, hstep.trans (startTare_noUnit hn hunit), rfl, rfl, hcmd⟩
  · have hcmd : s.chan.cmd = none := (hostTurn_parts (foregroundTurn_parts ht).1).2.2.2
    by_cases hv : r.value = 1#32
    · rw [if_pos hv, if_pos hv]
      exact ⟨_, step_tareQuery_set ht hf hr hv, rfl, rfl, rfl⟩
    · rw [if_neg hv, if_neg hv]
      exact ⟨_, step_tareQuery_clear ht hf hr hv, rfl, rfl, hcmd⟩
  · rw [step_tareSampled ht hf hr, endTareSample_eq]
    rfl
  · rw [step_tareStore ht hf, storeTareMean_eq]
    rfl

end Sys2Proof.Machine
end

