-- ==== Sys2Proof/Proofs/Contexts.lean ====
section
/-! SUPPORT. The two contexts of the host do not interleave (60_exceptions.md R142, R145, R147): what a
step of each can be, in every state, and which of them a step of the machine moves. -/

namespace Sys2Proof.Machine

open Sys2Proof.Safety

/-! ### The handler's steps -/

/-- What a step of the handler can come to: it waits, issues a command, at most with LAST written, or
returns (R129, R144). -/
inductive HandlerMove (s : State) : State → Prop
  | waits : HandlerMove s s
  | issues (i : Instr) (p : HdPoint) (last : Option Word32) (past : p ≠ .start) :
      HandlerMove s (handlerIssue i p { s with host.last := last })
  | returns : HandlerMove s (returnFromHandler s)

theorem handlerEndRead_move {r : Response} {s t : State} (h : handlerEndRead r s = .next t) :
    HandlerMove s t := by
  unfold handlerEndRead at h
  split at h <;> cases h
  exact .issues _ _ _ (by simp)

theorem handlerStep_move {s t : State} (h : handlerStep s = .next t) : HandlerMove s t := by
  rw [handlerStep] at h
  cases hp : s.host.hd <;> rw [hp] at h
  case idle => cases h; exact .returns
  case start => cases h; exact .issues .rdy .awaitRdy s.host.last (by simp)
  all_goals
    rcases onResponse_next h with rfl | ⟨r, hr⟩
    · exact .waits
  case awaitRdy =>
    split at hr <;> cases hr
    · exact .issues .clrint .awaitClear s.host.last (by simp)
    · exact .issues .read .awaitSample s.host.last (by simp)
  case awaitSample => exact handlerEndRead_move hr
  case awaitClear => cases hr; exact .returns

/-- No step of the handler moves the foreground (R142, R147). -/
theorem HandlerMove.foreground {s t : State} (h : HandlerMove s t) :
    t.host.fg = s.host.fg ∧ t.host.pc = s.host.pc ∧ t.host.inCs = s.host.inCs ∧
      t.host.result = s.host.result := by
  cases h <;> exact ⟨rfl, rfl, rfl, rfl⟩

/-- A step of the handler comes to its start only by waiting there. -/
theorem HandlerMove.start {s t : State} (h : HandlerMove s t) (ht : t.host.hd = .start) :
    s.host.hd = .start := by
  cases h with
  | waits => exact ht
  | issues i p last past => exact absurd ht past
  | returns => cases ht

/-! ### The foreground's steps -/

theorem startCall_inHandler {c : HostCall} {s t : State} (h : startCall c s = .next t) :
    t.host.inHandler = s.host.inHandler := by
  unfold startCall startTare edgeProcedure at h
  repeat' split at h
  all_goals cases h
  all_goals rfl

theorem takeResponse_inHandler {r : Response} {s t : State} (h : takeResponse r s = .next t) :
    t.host.inHandler = s.host.inHandler := by
  unfold takeResponse endRead endTareSample at h
  dsimp only at h
  repeat' split at h
  all_goals cases h
  all_goals rfl

theorem programStep_inHandler {s t : State} (h : programStep s = .next t) :
    t.host.inHandler = s.host.inHandler := by
  unfold programStep at h
  split at h
  case h_2 => exact (startCall_inHandler h).trans rfl
  all_goals cases h; rfl

/-- No step of the foreground dispatches a handler, wherever the foreground stands (R142). -/
theorem foregroundStep_inHandler {s t : State} (h : foregroundStep s = .next t) :
    t.host.inHandler = s.host.inHandler := by
  rw [foregroundStep] at h
  cases hf : s.host.fg <;> rw [hf] at h
  case idle => exact programStep_inHandler h
  case tareStore prior vs => cases h; cases prior <;> rfl
  case scale | poll | tarePoll | tareSample | tareRestore => cases h; rfl
  all_goals
    rcases onResponse_next h with rfl | ⟨r, hr⟩
    · rfl
    · exact takeResponse_inHandler hr

/-! ### Which context a step moves -/

/-- What a step of the machine does to the host: nothing, a reset, or a step of one context, which is
the handler where it runs and otherwise a dispatch or the foreground (R142, R156). -/
inductive ContextMove (s t : State) : Prop
  | still (host : t.host = s.host)
  | rst (turn : eventTurn .rst s = true) (host : t.host = HostState.resetWith s.host.pc)
  | handler (running : s.host.inHandler = true) (move : HandlerMove (takeEvent s) t)
  | dispatch (enabled : dispatchEnabled s = true)
  | foreground (free : s.host.inHandler = false) (eq : foregroundStep (takeEvent s) = .next t)

theorem hostStep_contextMove {f : Bool} {s t : State} (h : hostStep f (takeEvent s) = .next t) :
    ContextMove s t := by
  unfold hostStep at h
  split at h
  · exact .handler ‹_› (handlerStep_move h)
  · rename_i hh
    split at h
    · rename_i hd
      exact .dispatch (Bool.and_eq_true_iff.mp hd).1
    · exact .foreground (Bool.not_eq_true _ ▸ hh) h

theorem step_contextMove {s t : State} (h : step s = .next t) : ContextMove s t := by
  cases step_kind h with
  | drive _ _ eq | ready _ _ eq | stretch _ _ _ eq => exact .still (by simp [eq])
  | rst turn eq => exact .rst turn (by simp [eq])
  | command i _ out => exact .still out.host
  | illegal _ _ eq => exact .still (by simp [eq])
  | data _ out => exact .still out.keeps.host
  | ctrl _ out => exact .still out.keeps.host
  | complete _ _ _ eq => exact .still (by simp [eq])
  | host turn _ => exact hostStep_contextMove ((step_host turn).symm.trans h)

/-- In a critical section of the foreground no step dispatches a handler (R142, R147). -/
theorem ContextMove.no_dispatch {s t : State} (h : ContextMove s t) (hcs : s.host.inCs = true)
    (hh : s.host.inHandler = false) : t.host.inHandler = false := by
  cases h with
  | still host => rw [host, hh]
  | rst _ host => rw [host]; rfl
  | handler running => rw [hh] at running; cases running
  | dispatch enabled =>
    have hout := ((dispatchEnabled_iff s).mp enabled).2.1
    rw [hcs] at hout; cases hout
  | foreground _ eq => exact (foregroundStep_inHandler eq).trans hh

/-- While the handler runs, a step leaves the host alone, resets it, or is one of the handler (R142). -/
theorem ContextMove.of_running {s t : State} (h : ContextMove s t) (hh : s.host.inHandler = true) :
    t.host = s.host ∨
    (eventTurn .rst s = true ∧ t.host = HostState.resetWith s.host.pc) ∨
    HandlerMove (takeEvent s) t := by
  cases h with
  | still host => exact .inl host
  | rst turn host => exact .inr (.inl ⟨turn, host⟩)
  | handler _ move => exact .inr (.inr move)
  | dispatch enabled =>
    have hfree := ((dispatchEnabled_iff s).mp enabled).2.2
    rw [hh] at hfree; cases hfree
  | foreground free => rw [hh] at free; cases free

/-! ### The statements -/

/-- Settles O57: R142's three conditions enable the dispatch, and the schedule does not forbid it. -/
theorem dispatchEntersTheHandler : Obligations.DispatchEntersTheHandler := by
  intro s ht hs hirq hcs hh
  exact step_dispatch ht hs ((dispatchEnabled_iff s).mpr ⟨hirq, hcs, hh⟩)

/-- Settles O58: by which context a step moves. -/
theorem contextsDoNotInterleave : Obligations.ContextsDoNotInterleave := by
  intro s t h
  have hmove := step_contextMove h
  refine ⟨hmove.no_dispatch, fun hh hrst => ?_, fun hh hstart => ?_⟩
  · rcases hmove.of_running hh with host | ⟨hturn, -⟩ | move
    · rw [host]; exact ⟨rfl, rfl, rfl, rfl⟩
    · rw [hrst] at hturn; cases hturn
    · exact move.foreground
  · rcases hmove.of_running hh with host | ⟨-, host⟩ | move
    · rw [← host]; exact hstart
    · rw [host] at hstart; cases hstart
    · exact move.start hstart

end Sys2Proof.Machine
end

