-- ==== Sys2Proof/Proofs/Reset.lean ====
section
/-! SUPPORT. Power-on and reset (70_reset_and_hazards.md R157 to R159), and what the model refuses (R163,
R164). -/

namespace Sys2Proof.Machine

open Sys2Proof.Safety

/-! ### The chip under reset -/

/-- Reset while BUSY leaves the chip out of sync and its mode a draw, and the rest of it alone (R158). -/
theorem resetMachine_chip_busy {s : State} (h : busy s = true) :
    (resetMachine s).chip =
      { s.chip with sync := false, nextGain := Config.drawGain s.draws } := by
  simp [resetMachine, chipCutFrame, h]

/-! ### Power-on -/

theorem State.resetWith_seqInv (cfg : Params) : SeqInv (State.resetWith cfg) where
  gain := rfl
  step := rfl
  clk := rfl
  result := rfl
  fault := rfl
  pulses := rfl
  answer := rfl

theorem State.resetWith_lineInv (cfg : Params) : LineInv (State.resetWith cfg) where
  edge := (edgeLegal_iff _).mpr ⟨fun _ => rfl, fun _ => ⟨rfl, rfl⟩⟩
  power := rfl
  platform := (platformLegal_iff _).mpr fun _ => ⟨rfl, nofun⟩

/-- A machine of any configuration meets the invariant at power-on: the chip's first conversion is made
under the mode it has then, whatever the two draws are (R36, R39). -/
theorem State.resetWith_inv (cfg : Params) : inv (State.resetWith cfg) = true := by
  have hmode : modeLegal (State.resetWith cfg) = true := (modeLegal_iff _).mpr fun _ _ => rfl
  exact (inv_iff _).mpr
    ⟨State.resetWith_seqInv cfg, State.resetWith_lineInv cfg, hmode, rfl⟩

/-! ### Refusals -/

/-- A configuration that breaks R164 is refused before anything moves. -/
theorem step_illegalConfiguration {s : State} (h : s.cfg.legal = false) :
    step s = .refused .badConfiguration := by
  simp [step, nextMove, h]

/-- A stretched pulse has no meaning on a platform that keeps R163 (U22). -/
theorem step_stretch_outsideSpec {s : State} {us : Nat} (h : eventTurn (.stretch us) s = true)
    (hp : s.cfg.platformStretches = false) : step s = .refused .outsideSpec := by
  rw [step, nextMove_event h]
  simp [eventMove, hp]

/-! ### The statements -/

/-- Settles O44: the step of `RST` is the reset of the machine, which writes the block and the host
whole. -/
theorem resetValues : Obligations.ResetValues := by
  refine ⟨fun s turn => ⟨_, step_rst turn, rfl, ?_, rfl, rfl, rfl, rfl, rfl, rfl⟩,
    rfl, rfl, rfl, rfl, rfl, rfl, rfl⟩
  exact irq_of_listen_false rfl

/-- Settles O45: reset of a busy block cuts the chip's frame, and reset of an idle one leaves the chip
alone. -/
theorem resetAndTheChip : Obligations.ResetAndTheChip := by
  intro s turn
  refine ⟨_, step_rst turn, rfl, fun hbusy => ⟨?_, ?_⟩, fun hidle => ?_⟩
  · rw [resetMachine_chan]
  · exact resetMachine_chip_busy (s := takeEvent s) hbusy
  · exact resetMachine_chip_idle (s := takeEvent s) hidle

/-- Settles O9: the two refusals, and the default configuration, which meets neither. -/
theorem outsideTheSpecIsRefused : Obligations.OutsideTheSpecIsRefused := by
  refine ⟨fun s hle => ?_, fun s us turn hp => step_stretch_outsideSpec turn hp,
    rfl, rfl, rfl, rfl⟩
  have hlegal : s.cfg.legal = false := decide_eq_false (Nat.not_lt.mpr hle)
  exact step_illegalConfiguration hlegal

/-- Settles O42: the reset state is the power-on state of the default configuration. -/
theorem resetMeetsTheInvariant : Obligations.ResetMeetsTheInvariant :=
  State.resetWith_inv Params.default

end Sys2Proof.Machine
end
